-- ==== Sys2Proof/Word.lean ====
section
/-! DEFINITION. The widths of the block: bytes, 16-bit registers and operands, 32-bit command and result words (spec/00_scope.md R7, R8). -/

namespace Sys2Proof

/-- A byte, the only unit of data the block stores, moves, receives or emits (R7, R72). -/
abbrev Byte := BitVec 8

/-- A 16-bit register or operand: `TIMEOUT`, `STATUS`, `EVENTS`, `imm`, `val` (R40, R46, R47, R101, R102). -/
abbrev Half := BitVec 16

/-- A command word or a result word, passed whole on a client port (R8, R72, R100). -/
abbrev Word := BitVec 32

end Sys2Proof
end

