-- ==== Sys2Proof/Syntax.lean ====
section
/-! DEFINITION. The instructions: one constructor per row of spec/opcode_table.json (spec/30_encoding.md R103, R104, R110, R111). -/

namespace Sys2Proof

/-- The ring selector `sel` (R103): 0 is the RX ring, 1 the RSP ring. -/
inductive RingSel where
  | rx
  | rsp
deriving DecidableEq, Repr

/-- The operations of R104 and the two wire formats of R110 and R111. An operand is the field of R106 as it stands; the
length fields `len` and `n` are the lengths of the byte lists they count. -/
inductive Instr where
  /-- `RB.PUSH sel, byte` (R147). -/
  | rbPush (sel : RingSel) (b : Byte)
  /-- `RB.POP sel` (R148). -/
  | rbPop (sel : RingSel)
  /-- `RB.EMPTY sel` (R149). -/
  | rbEmpty (sel : RingSel)
  /-- `RB.REWIND sel, k` (R150). -/
  | rbRewind (sel : RingSel) (k : Half)
  /-- `RB.GETC sel` (R151). -/
  | rbGetc (sel : RingSel)
  /-- `SM.LOAD <bytes>` (R163). -/
  | smLoad (pat : List Byte)
  /-- `SM.FEED <byte>` (R164). -/
  | smFeed (b : Byte)
  /-- `CH.SEND <bytes>` (R191). -/
  | chSend (str : List Byte)
  /-- `CH.RECV <bytes>` (R194). -/
  | chRecv (token : List Byte)
  /-- `CH.READTILL <limit>, <bytes>` (R195). -/
  | chReadtill (limit : Half) (delim : List Byte)
  /-- `CH.SETTO <ms>` (R196). -/
  | chSetto (ms : Half)
  /-- `PQ.RECV <cid>, <amount>` (R218). -/
  | pqRecv (cid : BitVec 4) (amount : Half)
  /-- `BD.SEND <cid>, <bytes>` (R220). -/
  | bdSend (cid : BitVec 4) (data : List Byte)
  /-- `PQ.FLUSH <cid>` (R221). -/
  | pqFlush (cid : BitVec 4)
  /-- `SYS.RDSTAT` (R240). -/
  | sysRdstat
  /-- `SYS.RDEVT` (R241). -/
  | sysRdevt
  /-- `WIRE.BULKFRAME`: the frame `1B 5A c d3 d2 d1 d0 payload` (R110). The header bytes stand raw, because the receiver
  judges them (R217). -/
  | wireBulkFrame (c d3 d2 d1 d0 : Byte) (payload : List Byte)
  /-- `WIRE.DATA_ACCEPTED`: the token `1B 4F` (R111). -/
  | wireDataAccepted
deriving DecidableEq, Repr

/-- What an instruction is encoded as: a request on a client port (R100), or bytes on the wire (R110, R111). -/
inductive Encoded where
  | request (cmd : Word) (payload : List Byte)
  | wire (bytes : List Byte)
deriving DecidableEq, Repr

end Sys2Proof
end

