-- ==== Sys2Proof/Machine/Operands.lean ====
section
/-! DEFINITION. Operand forms: the fields of a command word (spec/30_encoding.md R101, R106), the ring selector (R103), and the digit conversions of the wire header (spec/00_scope.md R12, spec/44_packet_queue.md R217). -/

namespace Sys2Proof

/-- `opc`, bits 31:24 of a command word (R101). -/
def Word.opc (w : Word) : BitVec 8 := w.extractLsb' 24 8

/-- `a`, bits 23:16 of a command word (R101). -/
def Word.a (w : Word) : BitVec 8 := w.extractLsb' 16 8

/-- `imm`, bits 15:0 of a command word (R101). -/
def Word.imm (w : Word) : Half := w.extractLsb' 0 16

/-- A command word from its three fields (R101). -/
def mkCommand (opc a : BitVec 8) (imm : Half) : Word := opc ++ (a ++ imm)

/-- The ring that `sel = cmd[16]` names (R103, R106): bit 0 of the field `a`. -/
def selOfA (a : BitVec 8) : RingSel := if a.getLsbD 0 then .rsp else .rx

/-- The field `a` that carries a ring selector, bits 23:17 zero (R103). -/
def RingSel.toA : RingSel → BitVec 8
  | .rx => 0
  | .rsp => 1

/-- `is_dec` (R12). -/
def isDec (b : Byte) : Bool := decide (0x30 ≤ b.toNat ∧ b.toNat ≤ 0x39)

/-- `decval` (R12). -/
def decval (b : Byte) : Nat := b.toNat - 0x30

/-- `is_hex` (R12): upper and lower case. -/
def isHex (b : Byte) : Bool :=
  isDec b || decide (0x41 ≤ b.toNat ∧ b.toNat ≤ 0x46) || decide (0x61 ≤ b.toNat ∧ b.toNat ≤ 0x66)

/-- `hexval` (R12). -/
def hexval (b : Byte) : Nat :=
  if b.toNat ≤ 0x39 then b.toNat - 0x30
  else if b.toNat ≤ 0x46 then b.toNat - 0x41 + 10
  else b.toNat - 0x61 + 10

/-- `hexdigit` (R12): lower case. -/
def hexdigit (v : Nat) : Byte := BitVec.ofNat 8 (if v ≤ 9 then 0x30 + v else 0x61 + v - 10)

/-- One decimal digit as a byte. -/
def decdigit (v : Nat) : Byte := BitVec.ofNat 8 (0x30 + v)

/-- `dec4` (R12): four decimal digits, most significant first. -/
def dec4 (n : Nat) : List Byte :=
  [decdigit (n / 1000), decdigit (n / 100 % 10), decdigit (n / 10 % 10), decdigit (n % 10)]

/-- `undec4` (R12). -/
def undec4 (d3 d2 d1 d0 : Byte) : Nat := 1000 * decval d3 + 100 * decval d2 + 10 * decval d1 + decval d0

/-- Are all four length bytes decimal digits (R113)? -/
def isDec4 (d3 d2 d1 d0 : Byte) : Bool := isDec d3 && isDec d2 && isDec d1 && isDec d0

/-- What `header_ok` (R217) reads from five header bytes: the connection id and the length, or nothing where the header
is malformed. -/
def headerRead (pktMax : Nat) : List Byte → Option (BitVec 4 × Nat)
  | [c, d3, d2, d1, d0] =>
    if isHex c && isDec4 d3 d2 d1 d0 && decide (undec4 d3 d2 d1 d0 ≤ pktMax) then
      some (BitVec.ofNat 4 (hexval c), undec4 d3 d2 d1 d0)
    else none
  | _ => none

/-- The header `BD.SEND` emits: marker, connection id, length (R110, R112, R113, R220). -/
def bulkHeader (cid : BitVec 4) (n : Nat) : List Byte := [0x1B, 0x5A, hexdigit cid.toNat] ++ dec4 n

/-- The data-accepted token (R111). -/
def dataAcceptedToken : List Byte := [0x1B, 0x4F]

/-- The number of payload bytes a frame on the wire has (R110): what its four length digits say, none where they are no
digits (log entry 8). -/
def wirePayloadLen (d3 d2 d1 d0 : Byte) : Nat := if isDec4 d3 d2 d1 d0 then undec4 d3 d2 d1 d0 else 0

end Sys2Proof
end

