-- ==== Sys2Proof/WellFormed.lean ====
section
/-! DEFINITION. Which instructions an encoding can carry: every length fits its field (spec/30_encoding.md R101, R103, R110). -/

namespace Sys2Proof

/-- The bounds the encoding puts on an instruction: a pattern, token or delimiter has a length of at most 8 bits, a string or
payload one of at most 16 bits (R103), and a frame on the wire has as many payload bytes as its header says (R110). An empty or
over-long operand that the encoding can carry is well formed: the operation answers RANGE (R108). -/
def Instr.wellFormed : Instr → Bool
  | .rbPush _ _ => true
  | .rbPop _ => true
  | .rbEmpty _ => true
  | .rbRewind _ _ => true
  | .rbGetc _ => true
  | .smLoad pat => decide (pat.length ≤ 255)
  | .smFeed _ => true
  | .chSend str => decide (str.length ≤ 65535)
  | .chRecv token => decide (token.length ≤ 255)
  | .chReadtill _ delim => decide (delim.length ≤ 255)
  | .chSetto _ => true
  | .pqRecv _ _ => true
  | .bdSend _ data => decide (data.length ≤ 65535)
  | .pqFlush _ => true
  | .sysRdstat => true
  | .sysRdevt => true
  | .wireBulkFrame _ d3 d2 d1 d0 payload => decide (payload.length = wirePayloadLen d3 d2 d1 d0)
  | .wireDataAccepted => true

end Sys2Proof
end

