-- ==== Sys2Proof/Decode.lean ====
section
/-! DEFINITION. Decoding and encoding (spec/30_encoding.md R101 to R113): the opcode map of R104, the formats of R103, the payload length of R105, the wire formats of R110 and R111, and the words of spec/opcode_table.json. -/

namespace Sys2Proof

/-- The sixteen operations of R104. -/
inductive Op where
  | rbPush | rbPop | rbEmpty | rbRewind | rbGetc
  | smLoad | smFeed
  | chSend | chRecv | chReadtill | chSetto
  | pqRecv | bdSend | pqFlush
  | sysRdstat | sysRdevt
deriving DecidableEq, Repr

/-- The rows of R104 in the table's order. -/
def Op.all : List Op :=
  [.rbPush, .rbPop, .rbEmpty, .rbRewind, .rbGetc, .smLoad, .smFeed, .chSend, .chRecv, .chReadtill, .chSetto,
    .pqRecv, .bdSend, .pqFlush, .sysRdstat, .sysRdevt]

/-- The column `opc` of R104. -/
def Op.opc : Op → BitVec 8
  | .rbPush => 0x01
  | .rbPop => 0x02
  | .rbEmpty => 0x03
  | .rbRewind => 0x04
  | .rbGetc => 0x05
  | .smLoad => 0x10
  | .smFeed => 0x11
  | .chSend => 0x20
  | .chRecv => 0x21
  | .chReadtill => 0x22
  | .chSetto => 0x23
  | .pqRecv => 0x30
  | .bdSend => 0x31
  | .pqFlush => 0x32
  | .sysRdstat => 0x40
  | .sysRdevt => 0x41

/-- The formats of R103. -/
inductive Format where
  | z | r | rb | rk | b | p | pl | s | t | c | ca | cs
deriving DecidableEq, Repr

/-- The column `format` of R104. -/
def Op.format : Op → Format
  | .rbPush => .rb
  | .rbPop => .r
  | .rbEmpty => .r
  | .rbRewind => .rk
  | .rbGetc => .r
  | .smLoad => .p
  | .smFeed => .b
  | .chSend => .s
  | .chRecv => .p
  | .chReadtill => .pl
  | .chSetto => .t
  | .pqRecv => .ca
  | .bdSend => .cs
  | .pqFlush => .c
  | .sysRdstat => .z
  | .sysRdevt => .z

/-- The reserved bits of the field `a` by format (R103): the bits of this mask must be zero. -/
def Format.reservedA : Format → BitVec 8
  | .z => 0xFF
  | .r => 0xFE
  | .rb => 0xFE
  | .rk => 0xFE
  | .b => 0xFF
  | .p => 0x00
  | .pl => 0x00
  | .s => 0xFF
  | .t => 0xFF
  | .c => 0xF0
  | .ca => 0xF0
  | .cs => 0xF0

/-- The reserved bits of the field `imm` by format (R103). -/
def Format.reservedImm : Format → Half
  | .z => 0xFFFF
  | .r => 0xFFFF
  | .rb => 0xFF00
  | .rk => 0x0000
  | .b => 0xFF00
  | .p => 0xFFFF
  | .pl => 0x0000
  | .s => 0x0000
  | .t => 0x0000
  | .c => 0xFFFF
  | .ca => 0x0000
  | .cs => 0x0000

/-- Does a command word select the row of `o` (R104, R107): its `opc`, and every reserved bit zero? -/
def Op.selects (o : Op) (w : Word) : Bool :=
  o.opc == w.opc && w.a &&& o.format.reservedA == 0 && w.imm &&& o.format.reservedImm == 0

/-- The columns `match` and `mask` of R104, as spec/opcode_table.json has them. -/
def Op.matchMask : Op → Word × Word
  | .rbPush => (0x01000000, 0xFFFEFF00)
  | .rbPop => (0x02000000, 0xFFFEFFFF)
  | .rbEmpty => (0x03000000, 0xFFFEFFFF)
  | .rbRewind => (0x04000000, 0xFFFE0000)
  | .rbGetc => (0x05000000, 0xFFFEFFFF)
  | .smLoad => (0x10000000, 0xFF00FFFF)
  | .smFeed => (0x11000000, 0xFFFFFF00)
  | .chSend => (0x20000000, 0xFFFF0000)
  | .chRecv => (0x21000000, 0xFF00FFFF)
  | .chReadtill => (0x22000000, 0xFF000000)
  | .chSetto => (0x23000000, 0xFFFF0000)
  | .pqRecv => (0x30000000, 0xFFF00000)
  | .bdSend => (0x31000000, 0xFFF00000)
  | .pqFlush => (0x32000000, 0xFFF0FFFF)
  | .sysRdstat => (0x40000000, 0xFFFFFFFF)
  | .sysRdevt => (0x41000000, 0xFFFFFFFF)

/-- The row a command word selects, if any (R104, R107). -/
def decodeOp (w : Word) : Option Op := Op.all.find? (fun o => o.selects w)

/-- The number of payload bytes that follow a command word, by `opc` alone (R105). -/
def payloadLen (w : Word) : Nat :=
  if w.opc = 0x10 ∨ w.opc = 0x21 ∨ w.opc = 0x22 then w.a.toNat
  else if w.opc = 0x20 ∨ w.opc = 0x31 then w.imm.toNat
  else 0

/-- Why a request is no instruction. -/
inductive DecodeError where
  /-- The command word matches no row: the operation completes with ILLEGAL (R107). -/
  | illegal
  /-- The payload has not the length the command word fixes: such a pair is no request (R100, R105; log entry 9). -/
  | payloadLength
deriving DecidableEq, Repr

/-- Operand assembly (R106): the instruction of a row from the fields and the payload. -/
def Op.assemble (o : Op) (w : Word) (payload : List Byte) : Instr :=
  match o with
  | .rbPush => .rbPush (selOfA w.a) (w.imm.extractLsb' 0 8)
  | .rbPop => .rbPop (selOfA w.a)
  | .rbEmpty => .rbEmpty (selOfA w.a)
  | .rbRewind => .rbRewind (selOfA w.a) w.imm
  | .rbGetc => .rbGetc (selOfA w.a)
  | .smLoad => .smLoad payload
  | .smFeed => .smFeed (w.imm.extractLsb' 0 8)
  | .chSend => .chSend payload
  | .chRecv => .chRecv payload
  | .chReadtill => .chReadtill w.imm payload
  | .chSetto => .chSetto w.imm
  | .pqRecv => .pqRecv (w.a.extractLsb' 0 4) w.imm
  | .bdSend => .bdSend (w.a.extractLsb' 0 4) payload
  | .pqFlush => .pqFlush (w.a.extractLsb' 0 4)
  | .sysRdstat => .sysRdstat
  | .sysRdevt => .sysRdevt

/-- Decoding of a request (R100 to R107). -/
def decodeRequest (w : Word) (payload : List Byte) : Except DecodeError Instr :=
  if payload.length = payloadLen w then
    match decodeOp w with
    | some o => .ok (o.assemble w payload)
    | none => .error .illegal
  else .error .payloadLength

/-- Decoding of a byte string the module puts on the line: a bulk frame with as many payload bytes as its header says
(R110), the data-accepted token (R111), or neither. -/
def decodeWire : List Byte → Option Instr
  | [x0, x1] => if x0 = 0x1B ∧ x1 = 0x4F then some .wireDataAccepted else none
  | x0 :: x1 :: c :: d3 :: d2 :: d1 :: d0 :: payload =>
    if x0 = 0x1B ∧ x1 = 0x5A ∧ payload.length = wirePayloadLen d3 d2 d1 d0 then
      some (.wireBulkFrame c d3 d2 d1 d0 payload)
    else none
  | _ => none

/-- Decoding of whatever carries an instruction. -/
def decode : Encoded → Option Instr
  | .request cmd payload => (decodeRequest cmd payload).toOption
  | .wire bytes => decodeWire bytes

/-- The encoding of an instruction (R101 to R104, R106, R110, R111). -/
def encode : Instr → Encoded
  | .rbPush sel b => .request (mkCommand 0x01 sel.toA (0#8 ++ b)) []
  | .rbPop sel => .request (mkCommand 0x02 sel.toA 0) []
  | .rbEmpty sel => .request (mkCommand 0x03 sel.toA 0) []
  | .rbRewind sel k => .request (mkCommand 0x04 sel.toA k) []
  | .rbGetc sel => .request (mkCommand 0x05 sel.toA 0) []
  | .smLoad pat => .request (mkCommand 0x10 (BitVec.ofNat 8 pat.length) 0) pat
  | .smFeed b => .request (mkCommand 0x11 0 (0#8 ++ b)) []
  | .chSend str => .request (mkCommand 0x20 0 (BitVec.ofNat 16 str.length)) str
  | .chRecv token => .request (mkCommand 0x21 (BitVec.ofNat 8 token.length) 0) token
  | .chReadtill limit delim => .request (mkCommand 0x22 (BitVec.ofNat 8 delim.length) limit) delim
  | .chSetto ms => .request (mkCommand 0x23 0 ms) []
  | .pqRecv cid amount => .request (mkCommand 0x30 (0#4 ++ cid) amount) []
  | .bdSend cid data => .request (mkCommand 0x31 (0#4 ++ cid) (BitVec.ofNat 16 data.length)) data
  | .pqFlush cid => .request (mkCommand 0x32 (0#4 ++ cid) 0) []
  | .sysRdstat => .request (mkCommand 0x40 0 0) []
  | .sysRdevt => .request (mkCommand 0x41 0 0) []
  | .wireBulkFrame c d3 d2 d1 d0 payload => .wire (0x1B :: 0x5A :: c :: d3 :: d2 :: d1 :: d0 :: payload)
  | .wireDataAccepted => .wire [0x1B, 0x4F]

/-- The `n` bytes of a number read most significant byte first. -/
def bytesMsbFirst : Nat → Nat → List Byte
  | 0, _ => []
  | n + 1, w => BitVec.ofNat 8 (w / 256 ^ n) :: bytesMsbFirst n w

/-- A wire string given by its header bytes, completed by the zero payload bytes its header asks for. -/
def withZeroPayload : List Byte → List Byte
  | [x0, x1, c, d3, d2, d1, d0] => x0 :: x1 :: c :: d3 :: d2 :: d1 :: d0 :: List.replicate (wirePayloadLen d3 d2 d1 d0) 0
  | bytes => bytes

/-- The instruction whose bits spec/opcode_table.json numbers `w`, every bit above `nbits` zero. A 32-bit row is a command word
(R8, R104), its payload zeros. A row of another width is a wire format: the table writes it in transmission order and reads it as
one number, so its first byte is the most significant (log entry 10). -/
def tableEncoded (nbits w : Nat) : Encoded :=
  if nbits = 32 then
    .request (BitVec.ofNat 32 w) (List.replicate (payloadLen (BitVec.ofNat 32 w)) 0)
  else .wire (withZeroPayload (bytesMsbFirst (nbits / 8) w))

/-- The instruction the decoder reads from an opcode-table word. -/
def decodeTableWord (nbits w : Nat) : Option Instr := decode (tableEncoded nbits w)

end Sys2Proof
end

