-- ==== Sys2Proof/Config.lean ====
section
/-! DEFINITION. The parameters of the block (spec/00_scope.md R5), the steps the environment may choose (R11, R14, spec/30_encoding.md R122), and the one free value of the model: which step the environment chooses when none has been placed. -/

namespace Sys2Proof

/-- Handler tags of the registration table (R28, R177, R178). -/
inductive Handler where
  /-- Sets the registration's `EVENTS` bit and reads no byte (R177). -/
  | event
  /-- Reassembles a bulk frame (R178, R213 to R216). -/
  | bulk
deriving DecidableEq, Repr

/-- One entry `REG[i] = (pat, h)` of the registration table (R28, R170). -/
structure Registration where
  pat : List Byte
  handler : Handler
deriving DecidableEq, Repr

/-- The OPEN parameters of R5. They are an argument of the model: every state carries one `Config`, and no step changes it
(R51; log entry 1). `R` is `reg.length`. -/
structure Config where
  rxN : Nat
  rspN : Nat
  pmax : Nat
  reg : List Registration
  pktMax : Nat
  nport : Nat
deriving DecidableEq, Repr

/-- `QCAP`, the capacity of each packet queue, in packets (R5). -/
def Config.qcap : Nat := 5

/-- `TIMEOUT_DEFAULT`, the reset value of the `TIMEOUT` register in ticks (R5, R52). -/
def Config.timeoutDefault : Half := 100

/-- The reference values of R5, used by State.reset and by spec/95_test_vectors.md. -/
def Config.reference : Config where
  rxN := 1024
  rspN := 256
  pmax := 32
  reg := [⟨[0x1B, 0x5A], .bulk⟩]
  pktMax := 2048
  nport := 2

/-- The ranges R5 gives the parameters, with R170's bounds on the patterns. -/
def Config.wf (c : Config) : Bool :=
  decide (1 ≤ c.rxN) && decide (1 ≤ c.rspN) && decide (1 ≤ c.pmax) && decide (c.pmax ≤ 255)
    && decide (c.reg.length ≤ 16)
    && c.reg.all (fun r => decide (1 ≤ r.pat.length) && decide (r.pat.length ≤ c.pmax))
    && decide (c.pktMax ≤ 9999) && decide (1 ≤ c.nport)

/-- One line of an event script (R122), that is, one choice of the environment: which agent steps next, with the inputs
of that step. A choice whose agent has no enabled step changes nothing (R11; log entry 2). -/
inductive Action where
  /-- The client of `port` presents the request `(cmd, payload)` (R100). -/
  | issue (port : Nat) (cmd : Word) (payload : List Byte)
  /-- `rx <bytes>`: one `RX.BYTE(b)` step of `A_RX` per byte, in order (R122, R146). -/
  | rx (bytes : List Byte)
  /-- A step of the dispatcher `A_DISP`. -/
  | disp
  /-- A progress step of `A_CLI[port]`. `accept` is what `A_TXSINK` answers if the step offers it a byte (R192). -/
  | cli (port : Nat) (accept : Bool)
  /-- A step of `A_TICK` (R262). -/
  | tick
  /-- A step of `A_RESET` (R280). -/
  | reset
deriving DecidableEq, Repr, Inhabited

/-- The environment's choices where none has been placed in `State.script`: which agent steps next, the bytes that arrive,
the requests the clients issue, the sink's answers (spec/93_implementation_defined.md E1 to E3). A free value: nothing can
be proved of it (log entry 2). -/
opaque Config.environment : Nat → Action

end Sys2Proof
end

