-- ==== Sys2Proof/Machine/State.lean ====
section
/-! DEFINITION. The architectural state (spec/10_state.md), its value after reset (R50, R280), and the ways a step can stop. -/

namespace Sys2Proof.Machine

/-- A storage array of the block (R70): a list of (slot, byte) pairs, slots strictly rising, no pair equal to what an unlisted
slot reads as. -/
abbrev Memory := List Host.Cell

/-- A ring buffer instance (R22). Its capacity is a parameter. -/
structure Ring where
  store : Memory
  head : Nat
  tail : Nat
  count : Nat
  hist : Nat
deriving DecidableEq, Repr

/-- A sequence matcher with its own pattern: the ephemeral matcher of a port (R26, R45). -/
structure Matcher where
  pat : List Byte
  cur : Nat
deriving DecidableEq, Repr

/-- `disp.phase` (R29). -/
inductive Phase where
  | scan
  | hdr
  | payload
  | putWait
deriving DecidableEq, Repr

/-- The dispatcher: phase, hold window, frame registers and read timer (R29 to R32). -/
structure Disp where
  phase : Phase
  hold : List Byte
  fHdr : List Byte
  fCid : BitVec 4
  fLen : Nat
  fBuf : List Byte
  t : Nat
deriving DecidableEq, Repr

/-- A packet (R34): `len` is the number of bytes not yet consumed. -/
structure Packet where
  cid : BitVec 4
  data : List Byte
  off : Nat
  len : Nat
deriving DecidableEq, Repr

/-- The stage of an operation that sends (R43). -/
inductive Stage where
  /-- Waiting for the TX lock. -/
  | lock
  /-- Holding it. -/
  | emit
deriving DecidableEq, Repr

/-- `port[p].op`: IDLE or the record of the operation in progress (R43). -/
inductive PortOp where
  | idle
  | getc (sel : RingSel) (t : Nat)
  | send (str : List Byte) (i : Nat) (stage : Stage) (bulk : Bool) (n : Nat)
  | recv (t : Nat)
  | readtill (limit : Nat) (out : List Byte) (t : Nat)
  | pqrecv (cid : BitVec 4) (amount : Nat) (t : Nat)
  | tokwait (n : Nat) (t : Nat)
deriving DecidableEq, Repr

/-- The status codes of a result word (R102, R251). -/
inductive StatusCode where
  | ok
  | timeout
  | fail
  | empty
  | range
  | illegal
deriving DecidableEq, Repr

/-- The sticky flags of `STATUS` (R47). -/
inductive StatusFlag where
  | rxOvf
  | rspOvf
  | frameBad
  | frameShort
  | pqStall
deriving DecidableEq, Repr

/-- A response `(res, data)` (R100). -/
structure Response where
  res : Word
  data : List Byte
deriving DecidableEq, Repr

/-- A client port (R43, R45). `resps` is the model's own: the responses delivered since reset, oldest first (log entry 5). -/
structure Port where
  op : PortOp
  em : Matcher
  resps : List Response
deriving DecidableEq, Repr

/-- The state of the block. `cfg` holds the parameters (R5, R51; log entry 1). `cur`, `script` and `clock` are the model's own: the
port whose request is being carried out (log entry 6), the steps the environment has already chosen, and the counter of its
free choices (log entry 2). -/
structure State where
  cfg : Config
  rx : Ring
  rsp : Ring
  mcur : List Nat
  disp : Disp
  q : Vector (List Packet) 16
  timeout : Half
  status : Half
  events : Half
  txOwner : Option Nat
  txLog : List Byte
  ports : List Port
  cur : Nat
  script : List Action
  clock : Nat
deriving DecidableEq, Repr

/-- The block has no fault: "No error stops the block: never fatal to the engine" (R250). -/
inductive Fault where
deriving DecidableEq, Repr

/-- Why a step has no outcome. -/
inductive Refusal where
  /-- Raised by `exec` for an instruction without a meaning in this model; no arm raises it. Safe. -/
  | notModelled (mnemonic : String)
  /-- Raised by the meaning of a client operation when the port `cur` does not exist or is not IDLE: the spec says that this
  cannot occur and need not be defined (spec/93_implementation_defined.md E9). `step` never raises it, because an issue step on
  such a port is not enabled. Safe: the model stops where the block has no step (log entry 7). -/
  | portBusy
deriving DecidableEq, Repr

/-- An empty ring with no history (R50). -/
def Ring.init : Ring := { store := [], head := 0, tail := 0, count := 0, hist := 0 }

/-- The dispatcher after reset (R50). -/
def Disp.init : Disp := { phase := .scan, hold := [], fHdr := [], fCid := 0, fLen := 0, fBuf := [], t := 0 }

/-- A port after reset (R50). -/
def Port.init : Port := { op := .idle, em := { pat := [], cur := 0 }, resps := [] }

/-- The table of reset values R50, for given parameters, with the model's own environment fields. -/
def State.initial (cfg : Config) (script : List Action) (clock : Nat) : State where
  cfg := cfg
  rx := Ring.init
  rsp := Ring.init
  mcur := List.replicate cfg.reg.length 0
  disp := Disp.init
  q := Vector.replicate 16 []
  timeout := Config.timeoutDefault
  status := 0
  events := 0
  txOwner := none
  txLog := []
  ports := List.replicate cfg.nport Port.init
  cur := 0
  script := script
  clock := clock

/-- The block right after reset, with the reference parameters of R5 and nothing chosen by the environment yet. -/
def State.reset : State := State.initial Config.reference [] 0

end Sys2Proof.Machine
end

