-- ==== Sys2Proof/Machine/Flags.lean ====
section
/-! DEFINITION. The flag registers `STATUS` and `EVENTS` (spec/10_state.md R46, R47) and the result word (spec/30_encoding.md R102). -/

namespace Sys2Proof.Machine

/-- The bit of `STATUS` a flag has (R47). -/
def flagBit : StatusFlag → Nat
  | .rxOvf => 0
  | .rspOvf => 1
  | .frameBad => 2
  | .frameShort => 3
  | .pqStall => 4

/-- Setting a sticky flag (R47). -/
def setFlag (f : StatusFlag) (s : State) : State :=
  { s with status := s.status ||| BitVec.twoPow 16 (flagBit f) }

/-- Setting bit `w` of `EVENTS` (R46, R177). -/
def setEvent (w : Nat) (s : State) : State :=
  { s with events := s.events ||| BitVec.twoPow 16 w }

/-- The status codes of R102. -/
def statusNumber : StatusCode → BitVec 4
  | .ok => 0
  | .timeout => 1
  | .fail => 2
  | .empty => 3
  | .range => 4
  | .illegal => 5

/-- The result word (R102): `st` in bits 31:28, bits 27:16 zero, `val` in bits 15:0. -/
def resultWord (st : StatusCode) (val : Half) : Word := statusNumber st ++ (0#12 ++ val)

/-- The sentinel `val` of an operation that did not succeed (R102). -/
def sentinel : Half := 0xFFFF

/-- The ring's overflow flag (R47, R140). -/
def overflowFlag : RingSel → StatusFlag
  | .rx => .rxOvf
  | .rsp => .rspOvf

end Sys2Proof.Machine
end

