-- ==== Sys2Proof/Machine/Ops.lean ====
section
/-! DEFINITION. The shared operations: storage access, the ring primitives (spec/40_ring_buffer.md), the matcher primitive (spec/41_sequence_matcher.md), the queue primitives (spec/44_packet_queue.md), ports, timers and the completion of an operation (spec/00_scope.md R11). The block takes no exception (R250): completing with a status is what stands for one. -/

namespace Sys2Proof.Machine

/-! ### Storage -/

/-- What a slot that nothing has written reads as: 0, never observable (R89; log entry 4). -/
def unlistedByte : Byte := 0

/-- `MemRead(S, i, 1)` (R9). -/
def memRead : Memory → Nat → Byte
  | [], _ => unlistedByte
  | (a, v) :: m, i => if a = i then v else memRead m i

/-- `MemWrite(S, i, 1, v)` (R9), in canonical form. -/
def memWrite : Memory → Nat → Byte → Memory
  | [], i, v => if v = unlistedByte then [] else [(i, v)]
  | (a, u) :: m, i, v =>
    if i < a then (if v = unlistedByte then (a, u) :: m else (i, v) :: (a, u) :: m)
    else if i = a then (if v = unlistedByte then m else (i, v) :: m)
    else (a, u) :: memWrite m i v

/-- The canonical form: every slot is at least `lo` and the slots rise strictly, and no listed byte is the unlisted one. -/
def Memory.wfFrom : Nat → Memory → Bool
  | _, [] => true
  | lo, (a, v) :: m => decide (lo ≤ a) && decide (v ≠ unlistedByte) && Memory.wfFrom (a + 1) m

/-- The canonical form of a storage array. -/
def Memory.wf (m : Memory) : Bool := Memory.wfFrom 0 m

/-! ### Rings -/

/-- `live(r)` (R24): the unread bytes, oldest first. -/
def Ring.live (n : Nat) (r : Ring) : List Byte :=
  (List.range r.count).map fun j => memRead r.store ((r.tail + j) % n)

/-- `past(r)` (R24): the rewindable history, oldest first. -/
def Ring.past (n : Nat) (r : Ring) : List Byte :=
  (List.range r.hist).map fun j => memRead r.store ((r.tail + n - r.hist + j) % n)

/-- The index form of `rb_push` (R140) on a ring of capacity `n`. -/
def Ring.push (n : Nat) (r : Ring) (b : Byte) : Ring :=
  let count := if r.count = n then r.count else r.count + 1
  { store := memWrite r.store r.head b
    head := (r.head + 1) % n
    tail := if r.count = n then (r.tail + 1) % n else r.tail
    count := count
    hist := min r.hist (n - count) }

/-- The index form of `rb_pop` (R141): nothing where the precondition `count > 0` fails. -/
def Ring.pop (n : Nat) (r : Ring) : Option (Byte × Ring) :=
  if r.count = 0 then none
  else some (memRead r.store r.tail,
    { r with tail := (r.tail + 1) % n, count := r.count - 1, hist := r.hist + 1 })

/-- The index form of `rb_rewind` (R74, R143): nothing where the precondition `k ≤ hist` fails. -/
def Ring.rewind (n : Nat) (r : Ring) (k : Nat) : Option Ring :=
  if k ≤ r.hist then
    some { r with tail := (r.tail + n - k) % n, count := r.count + k, hist := r.hist - k }
  else none

/-- The ring a selector names (R103). -/
def State.ring (s : State) : RingSel → Ring
  | .rx => s.rx
  | .rsp => s.rsp

/-- Replacing the ring a selector names. -/
def State.setRing (s : State) (sel : RingSel) (r : Ring) : State :=
  match sel with
  | .rx => { s with rx := r }
  | .rsp => { s with rsp := r }

/-- The capacity of the ring a selector names (R5, R25). -/
def Config.ringN (c : Config) : RingSel → Nat
  | .rx => c.rxN
  | .rsp => c.rspN

/-- `rb_push(r, b)` (R140): never blocks; on a full ring the oldest unread byte is lost and the ring's flag is set. -/
def rbPush (sel : RingSel) (b : Byte) (s : State) : State :=
  let n := Config.ringN s.cfg sel
  let s' := s.setRing sel (Ring.push n (s.ring sel) b)
  if (s.ring sel).count = n then setFlag (overflowFlag sel) s' else s'

/-- `rb_pop(r)` (R141), with `rb_empty(r)` (R142) as the case of no byte. -/
def rbPop (sel : RingSel) (s : State) : Option (Byte × State) :=
  match Ring.pop (Config.ringN s.cfg sel) (s.ring sel) with
  | some (b, r) => some (b, s.setRing sel r)
  | none => none

/-- `rb_empty(r)` (R142). -/
def rbEmpty (sel : RingSel) (s : State) : Bool := decide ((s.ring sel).count = 0)

/-- `rb_rewind(r, k)` (R143). -/
def rbRewind (sel : RingSel) (k : Nat) (s : State) : Option State :=
  match Ring.rewind (Config.ringN s.cfg sel) (s.ring sel) k with
  | some r => some (s.setRing sel r)
  | none => none

/-- `RX.BYTE(b)`, the step of `A_RX` (R146). -/
def rxByte (b : Byte) (s : State) : State := rbPush .rx b s

/-- A script line `rx <bytes>` (R122): one `RX.BYTE` step per byte, in order. -/
def rxBytes (bytes : List Byte) (s : State) : State := bytes.foldl (fun st b => rxByte b st) s

/-- `release(l)` (R175): the bytes go to the RSP ring, oldest first. -/
def release (bytes : List Byte) (s : State) : State := bytes.foldl (fun st b => rbPush .rsp b st) s

/-! ### The matcher -/

/-- `sm_feed(P, cur, b)` (R160): the new cursor, and whether the pattern was completed. -/
def smFeed (pat : List Byte) (cur : Nat) (b : Byte) : Nat × Bool :=
  let c :=
    if pat[cur]? = some b then cur + 1
    else if 0 < cur ∧ pat[0]? = some b then 1
    else 0
  if c = pat.length then (0, true) else (c, false)

/-! ### Packet queues -/

/-- `q[c]` (R35). -/
def State.queue (s : State) (c : BitVec 4) : List Packet := s.q[c.toNat]'c.isLt

/-- Replacing `q[c]`. -/
def State.setQueue (s : State) (c : BitVec 4) (l : List Packet) : State :=
  { s with q := s.q.set c.toNat l c.isLt }

/-- Is `q[c]` full (R210)? -/
def State.queueFull (s : State) (c : BitVec 4) : Bool := decide ((s.queue c).length = Config.qcap)

/-- `pq_put(c, P)` (R210): at the tail. The caller has no step while the queue is full. -/
def pqPut (c : BitVec 4) (p : Packet) (s : State) : State := s.setQueue c (s.queue c ++ [p])

/-- `pq_get(c)` (R211): the head packet, nothing where there is none. -/
def pqGet (c : BitVec 4) (s : State) : Option (Packet × State) :=
  match s.queue c with
  | [] => none
  | p :: rest => some (p, s.setQueue c rest)

/-- `pq_put_head(c, P)` (R212). -/
def pqPutHead (c : BitVec 4) (p : Packet) (s : State) : State := s.setQueue c (p :: s.queue c)

/-! ### Ports, timers and completion -/

/-- Port `p`; a port outside `0..NPORT-1` reads as an idle one and is never used. -/
def State.port (s : State) (p : Nat) : Port := s.ports.getD p Port.init

/-- Changing port `p`; nothing changes where there is no such port. -/
def State.modifyPort (s : State) (p : Nat) (f : Port → Port) : State :=
  { s with ports := s.ports.modify p f }

/-- Storing a record in `port[p].op` (R43). -/
def setOp (p : Nat) (op : PortOp) (s : State) : State := s.modifyPort p fun o => { o with op := op }

/-- Loading the ephemeral matcher of port `p`: pattern replaced, cursor 0 (R45). -/
def loadMatcher (p : Nat) (pat : List Byte) (s : State) : State :=
  s.modifyPort p fun o => { o with em := { pat := pat, cur := 0 } }

/-- Feeding the ephemeral matcher of port `p` one byte (R160): the cursor's new value is stored. -/
def feedMatcher (p : Nat) (b : Byte) (s : State) : State :=
  s.modifyPort p fun o => { o with em := { o.em with cur := (smFeed o.em.pat o.em.cur b).1 } }

/-- Would feeding `b` complete the ephemeral pattern of port `p` (R160)? -/
def matcherHit (p : Nat) (b : Byte) (s : State) : Bool :=
  (smFeed (s.port p).em.pat (s.port p).em.cur b).2

/-- Is there a port `p`, and is it IDLE (R100, R190)? -/
def portReady (p : Nat) (s : State) : Bool :=
  decide (p < s.ports.length) && decide ((s.port p).op = .idle)

/-- The value a timer is loaded with (R263). -/
def timerLoad (s : State) : Nat := s.timeout.toNat + 1

/-- `complete(p, st, val, data)` (R11, R100, R102): the response is delivered and the port is IDLE again. -/
def complete (p : Nat) (st : StatusCode) (val : Half) (data : List Byte) (s : State) : State :=
  s.modifyPort p fun o =>
    { o with op := .idle, resps := o.resps ++ [{ res := resultWord st val, data := data }] }

/-- `val` from a number that the rules bound by 65535 (R243). -/
def toVal (n : Nat) : Half := BitVec.ofNat 16 n

/-- The response to a request out of range (R108): RANGE, the sentinel, no data, no other change. -/
def completeRange (p : Nat) (s : State) : State := complete p .range sentinel [] s

/-- The issue step of an operation on the port `cur` (R190): `f` is its effect. On a port that is not IDLE, or does not exist, there
is no such step (R100; log entry 7). -/
def issueOn (s : State) (f : Nat → State) : Host.Outcome State Fault Refusal :=
  if portReady s.cur s then .next (f s.cur) else .refused .portBusy

/-! ### The environment -/

/-- The step the environment chooses next: the first one placed in `script`, else the free choice (R11, R258; log entry 2). -/
def nextAction (s : State) : Action :=
  match s.script with
  | a :: _ => a
  | [] => Config.environment s.clock

/-- The environment's choice is used up. -/
def advance (s : State) : State :=
  match s.script with
  | _ :: rest => { s with script := rest }
  | [] => { s with clock := s.clock + 1 }

end Sys2Proof.Machine
end

