-- ==== Sys2Proof/Machine/Dispatcher.lean ====
section
/-! DEFINITION. The OOB dispatcher and its bulk handler (spec/42_oob_dispatcher.md R171 to R178, spec/44_packet_queue.md R213 to R217). What stands for exception entry and return (spec/60_exceptions.md R260, R261) is `invoke`, `frameAbort` and the return to phase SCAN. -/

namespace Sys2Proof.Machine

/-- Every registered matcher is fed the scanned byte (R165, R174): new cursors and hits, in registration order. -/
def feedAll (reg : List Registration) (curs : List Nat) (b : Byte) : List (Nat × Bool) :=
  List.zipWith (fun r c => smFeed r.pat c b) reg curs

/-- The winning registration: the least index with a hit (R171, R174). -/
def firstHit (fed : List (Nat × Bool)) : Option Nat := fed.findIdx? (fun x => x.2)

/-- The greatest cursor, 0 where there is none (R174). -/
def maxCur (curs : List Nat) : Nat := curs.foldr max 0

/-- Entry of the handler `H_BULK` (R178). -/
def bulkEntry (s : State) : State :=
  { s with disp := { s.disp with fHdr := [], fBuf := [], t := timerLoad s, phase := .hdr } }

/-- `invoke(w)` (R176): the handler of registration `w`, by its tag (R177, R178). -/
def invoke (w : Nat) (s : State) : State :=
  match s.cfg.reg[w]? with
  | none => s
  | some r =>
    match r.handler with
    | .event => setEvent w s
    | .bulk => bulkEntry s

/-- The length of the pattern of registration `w`. -/
def patternLen (s : State) (w : Nat) : Nat :=
  match s.cfg.reg[w]? with
  | none => 0
  | some r => r.pat.length

/-- The scan step where registration `w` wins (R174): the older claimed bytes are released, every cursor is 0, the matched bytes are
consumed, and the handler is invoked. `win` is the window. -/
def scanHit (w : Nat) (win : List Byte) (s : State) : State :=
  let s' := release (win.take (win.length - patternLen s w)) s
  invoke w { s' with mcur := s.mcur.map fun _ => 0, disp := { s'.disp with hold := [] } }

/-- The scan step where no registration hits (R174): the bytes no live partial match covers are released, the rest is held. -/
def scanMiss (curs : List Nat) (win : List Byte) (s : State) : State :=
  let k := win.length - maxCur curs
  let s' := release (win.take k) s
  { s' with mcur := curs, disp := { s'.disp with hold := win.drop k } }

/-- `DISP.SCAN` (R174). -/
def dispScan (s : State) : State :=
  match rbPop .rx s with
  | none => s
  | some (b, s') =>
    let fed := feedAll s.cfg.reg s.mcur b
    let win := s.disp.hold ++ [b]
    match firstHit fed with
    | some w => scanHit w win s'
    | none => scanMiss (fed.map fun x => x.1) win s'

/-- `packet_ready()` (R213): a packet that finds its queue full sets PQ_STALL. -/
def packetReady (s : State) : State :=
  let s' := if s.queueFull s.disp.fCid then setFlag .pqStall s else s
  { s' with disp := { s'.disp with phase := .putWait } }

/-- `frame_abort()` (R216): the short read. -/
def frameAbort (s : State) : State :=
  let s' := setFlag .frameShort s
  { s' with disp := { s'.disp with fHdr := [], fBuf := [], phase := .scan } }

/-- The fifth header byte has been read (R213): the header is judged (R217). -/
def judgeHeader (s : State) : State :=
  match headerRead s.cfg.pktMax s.disp.fHdr with
  | some (cid, len) =>
    let s' := { s with disp := { s.disp with fCid := cid, fLen := len, fBuf := [] } }
    if len = 0 then packetReady s' else { s' with disp := { s'.disp with phase := .payload } }
  | none =>
    let s' := setFlag .frameBad s
    { s' with disp := { s'.disp with phase := .scan } }

/-- `DISP.HDR` (R213): data first (R144). -/
def dispHdr (s : State) : State :=
  match rbPop .rx s with
  | some (b, s') =>
    let hdr := s.disp.fHdr ++ [b]
    let s'' := { s' with disp := { s'.disp with fHdr := hdr, t := timerLoad s } }
    if hdr.length = 5 then judgeHeader s'' else s''
  | none => frameAbort s

/-- `DISP.PAYLOAD` (R214). -/
def dispPayload (s : State) : State :=
  match rbPop .rx s with
  | some (b, s') =>
    let buf := s.disp.fBuf ++ [b]
    let s'' := { s' with disp := { s'.disp with fBuf := buf, t := timerLoad s } }
    if buf.length = s.disp.fLen then packetReady s'' else s''
  | none => frameAbort s

/-- `DISP.PUT` (R215): the packet is constructed and put, and the handler returns. -/
def dispPut (s : State) : State :=
  let s' := pqPut s.disp.fCid { cid := s.disp.fCid, data := s.disp.fBuf, off := 0, len := s.disp.fLen } s
  { s' with disp := { s'.disp with fBuf := [], fHdr := [], phase := .scan } }

/-- Has the dispatcher an enabled step (R172, R174, R213 to R215, R255)? -/
def dispEnabled (s : State) : Bool :=
  match s.disp.phase with
  | .scan => !rbEmpty .rx s
  | .hdr => !rbEmpty .rx s || decide (s.disp.t = 0)
  | .payload => !rbEmpty .rx s || decide (s.disp.t = 0)
  | .putWait => decide ((s.queue s.disp.fCid).length < Config.qcap)

/-- The dispatcher's step, by phase (R29). -/
def dispStep (s : State) : State :=
  match s.disp.phase with
  | .scan => dispScan s
  | .hdr => dispHdr s
  | .payload => dispPayload s
  | .putWait => dispPut s

end Sys2Proof.Machine
end

