-- ==== Sys2Proof/Machine/MatcherOps.lean ====
section
/-! DEFINITION. The client operations on a port's ephemeral matcher (spec/41_sequence_matcher.md R163, R164). -/

namespace Sys2Proof.Machine

/-- Is a pattern, token or delimiter one the block takes (R108): not empty and not over-long? -/
def patternInRange (pat : List Byte) (s : State) : Bool :=
  decide (1 ≤ pat.length) && decide (pat.length ≤ s.cfg.pmax)

/-- `SM.LOAD <bytes>` (R163). -/
def execSmLoad (pat : List Byte) (s : State) : Host.Outcome State Fault Refusal :=
  issueOn s fun p =>
    if patternInRange pat s then complete p .ok (toVal pat.length) [] (loadMatcher p pat s)
    else completeRange p s

/-- `SM.FEED <byte>` (R164): RANGE where nothing is loaded. -/
def execSmFeed (b : Byte) (s : State) : Host.Outcome State Fault Refusal :=
  issueOn s fun p =>
    if (s.port p).em.pat = [] then completeRange p s
    else complete p .ok (if matcherHit p b s then 1 else 0) [] (feedMatcher p b s)

end Sys2Proof.Machine
end

