-- ==== Sys2Proof/Machine/Channel.lean ====
section
/-! DEFINITION. The command/response channel (spec/43_command_channel.md R190 to R197): sending under the TX lock, receiving under one timer for the whole call, and the timeout register. -/

namespace Sys2Proof.Machine

/-- `CH.SEND <bytes>`, the issue step (R191). -/
def execChSend (str : List Byte) (s : State) : Host.Outcome State Fault Refusal :=
  issueOn s fun p => setOp p (.send str 0 .lock false 0) s

/-- `CH.RECV <bytes>`, the issue step (R194). -/
def execChRecv (token : List Byte) (s : State) : Host.Outcome State Fault Refusal :=
  issueOn s fun p =>
    if patternInRange token s then setOp p (.recv (timerLoad s)) (loadMatcher p token s)
    else completeRange p s

/-- `CH.READTILL <limit>, <bytes>`, the issue step (R195): a limit of 0 completes at once. -/
def execChReadtill (limit : Half) (delim : List Byte) (s : State) : Host.Outcome State Fault Refusal :=
  issueOn s fun p =>
    if patternInRange delim s then
      if limit = 0 then complete p .ok 0 [] (loadMatcher p delim s)
      else setOp p (.readtill limit.toNat [] (timerLoad s)) (loadMatcher p delim s)
    else completeRange p s

/-- `CH.SETTO <ms>` (R196). -/
def execChSetto (ms : Half) (s : State) : Host.Outcome State Fault Refusal :=
  issueOn s fun p => complete p .ok ms [] { s with timeout := ms }

/-- The lock step of a send (R191, R193), taken when the lock is free. -/
def stepLock (p : Nat) (str : List Byte) (i : Nat) (bulk : Bool) (n : Nat) (s : State) : State :=
  setOp p (.send str i .emit bulk n) { s with txOwner := some p }

/-- The end of emission (R191, R220): the lock is released; `CH.SEND` completes, `BD.SEND` waits for the data-accepted token. DEDUCED: the
token is loaded at this step, as R45 and R220 say, though R87 leaves it out (log entry 18). -/
def stepSent (p : Nat) (str : List Byte) (bulk : Bool) (n : Nat) (s : State) : State :=
  let s' := { s with txOwner := none }
  if bulk then setOp p (.tokwait n (timerLoad s)) (loadMatcher p dataAcceptedToken s')
  else complete p .ok (toVal str.length) [] s'

/-- A refused byte (R191, R220): the lock is released and the operation fails. -/
def stepRefused (p : Nat) (i : Nat) (bulk : Bool) (s : State) : State :=
  complete p .fail (if bulk then sentinel else toVal i) [] { s with txOwner := none }

/-- The emit step of a send (R191, R192, R220). `accept` is the answer of `A_TXSINK`. -/
def stepEmit (p : Nat) (str : List Byte) (i : Nat) (bulk : Bool) (n : Nat) (accept : Bool) (s : State) : State :=
  match str[i]? with
  | none => stepSent p str bulk n s
  | some b =>
    if accept then setOp p (.send str (i + 1) .emit bulk n) { s with txLog := s.txLog ++ [b] }
    else stepRefused p i bulk s

/-- The guard of `CH.RECV`, `CH.READTILL` and the token wait (R194, R195, R220). -/
def pullReady (t : Nat) (s : State) : Bool := decide (t = 0) || !rbEmpty .rsp s

/-- The progress step of `CH.RECV` (R194): expiry first; `timeoutVal` and `okVal` are the values of the two ends, so that
the token wait of `BD.SEND` is the same step (R220). -/
def stepPull (p : Nat) (t : Nat) (timeoutVal okVal : Half) (s : State) : State :=
  if t = 0 then complete p .timeout timeoutVal [] s
  else
    match rbPop .rsp s with
    | none => s
    | some (b, s') =>
      if matcherHit p b s' then complete p .ok okVal [] (feedMatcher p b s') else feedMatcher p b s'

/-- The progress step of `CH.RECV` (R194). -/
def stepRecv (p : Nat) (t : Nat) (s : State) : State := stepPull p t 0 1 s

/-- The progress step of `CH.READTILL` (R195): expiry first, then the delimiter, then the limit. -/
def stepReadtill (p : Nat) (limit : Nat) (out : List Byte) (t : Nat) (s : State) : State :=
  if t = 0 then complete p .timeout sentinel [] s
  else
    match rbPop .rsp s with
    | none => s
    | some (b, s') =>
      let out' := out ++ [b]
      let s'' := feedMatcher p b s'
      if matcherHit p b s' then
        let v := out'.length - (s'.port p).em.pat.length
        complete p .ok (toVal v) (out'.take v) s''
      else if out'.length = limit then complete p .ok (toVal limit) out' s''
      else setOp p (.readtill limit out' t) s''

end Sys2Proof.Machine
end

