-- ==== Sys2Proof/Machine/PacketOps.lean ====
section
/-! DEFINITION. The client operations on packets (spec/44_packet_queue.md R218, R220, R221). -/

namespace Sys2Proof.Machine

/-- `PQ.RECV <cid>, <amount>`, the issue step (R218). -/
def execPqRecv (cid : BitVec 4) (amount : Half) (s : State) : Host.Outcome State Fault Refusal :=
  issueOn s fun p => setOp p (.pqrecv cid amount.toNat (timerLoad s)) s

/-- `BD.SEND <cid>, <bytes>`, the issue step (R220): RANGE where four digits cannot hold the length (R108). -/
def execBdSend (cid : BitVec 4) (data : List Byte) (s : State) : Host.Outcome State Fault Refusal :=
  issueOn s fun p =>
    if data.length ≤ 9999 then
      setOp p (.send (bulkHeader cid data.length ++ data) 0 .lock true data.length) s
    else completeRange p s

/-- `PQ.FLUSH <cid>` (R221). -/
def execPqFlush (cid : BitVec 4) (s : State) : Host.Outcome State Fault Refusal :=
  issueOn s fun p => complete p .ok (toVal (s.queue cid).length) [] (s.setQueue cid [])

/-- The guard of the progress step of `PQ.RECV` (R218). -/
def pqReady (cid : BitVec 4) (t : Nat) (s : State) : Bool := !(s.queue cid).isEmpty || decide (t = 0)

/-- The progress step of `PQ.RECV` (R218): a packet present is taken, whole or in part; else the wait has timed out. -/
def stepPqRecv (p : Nat) (cid : BitVec 4) (amount : Nat) (s : State) : State :=
  match pqGet cid s with
  | none => complete p .timeout sentinel [] s
  | some (pkt, s') =>
    if pkt.len ≤ amount then complete p .ok (toVal pkt.len) ((pkt.data.drop pkt.off).take pkt.len) s'
    else
      complete p .ok (toVal amount) ((pkt.data.drop pkt.off).take amount)
        (pqPutHead cid { pkt with off := pkt.off + amount, len := pkt.len - amount } s')

/-- The token step of `BD.SEND` (R220). -/
def stepTokwait (p : Nat) (n : Nat) (t : Nat) (s : State) : State := stepPull p t sentinel (toVal n) s

end Sys2Proof.Machine
end

