-- ==== Sys2Proof/Machine/RingOps.lean ====
section
/-! DEFINITION. The client operations on the rings (spec/40_ring_buffer.md R147 to R151). -/

namespace Sys2Proof.Machine

/-- `RB.PUSH sel, byte` (R147). -/
def execRbPush (sel : RingSel) (b : Byte) (s : State) : Host.Outcome State Fault Refusal :=
  issueOn s fun p => complete p .ok 0 [] (rbPush sel b s)

/-- `RB.POP sel` (R148): EMPTY on an empty ring. -/
def execRbPop (sel : RingSel) (s : State) : Host.Outcome State Fault Refusal :=
  issueOn s fun p =>
    match rbPop sel s with
    | none => complete p .empty sentinel [] s
    | some (b, s') => complete p .ok (b.setWidth 16) [] s'

/-- `RB.EMPTY sel` (R149). -/
def execRbEmpty (sel : RingSel) (s : State) : Host.Outcome State Fault Refusal :=
  issueOn s fun p => complete p .ok (if rbEmpty sel s then 1 else 0) [] s

/-- `RB.REWIND sel, k` (R150): RANGE beyond the history. -/
def execRbRewind (sel : RingSel) (k : Half) (s : State) : Host.Outcome State Fault Refusal :=
  issueOn s fun p =>
    match rbRewind sel k.toNat s with
    | none => completeRange p s
    | some s' => complete p .ok k [] s'

/-- `RB.GETC sel`, the issue step (R151). -/
def execRbGetc (sel : RingSel) (s : State) : Host.Outcome State Fault Refusal :=
  issueOn s fun p => setOp p (.getc sel (timerLoad s)) s

/-- The progress step of `RB.GETC` (R144, R151): data first. -/
def stepGetc (p : Nat) (sel : RingSel) (s : State) : State :=
  match rbPop sel s with
  | some (b, s') => complete p .ok (b.setWidth 16) [] s'
  | none => complete p .timeout sentinel [] s

/-- The guard of that step (R144): a byte is there or the timer has run out. -/
def getcReady (sel : RingSel) (t : Nat) (s : State) : Bool := !rbEmpty sel s || decide (t = 0)

end Sys2Proof.Machine
end

