-- ==== Sys2Proof/Machine/Agents.lean ====
section
/-! DEFINITION. The steps of the agents (spec/00_scope.md R14): the clients' issue and progress steps, the dispatcher, the tick, reset; each with its guard. -/

namespace Sys2Proof.Machine

/-- Can the client of port `p` issue the request `(cmd, payload)` now (R100, R190)? The port exists and is IDLE, and the payload has the
length the command word fixes (R105; log entry 9). -/
def issueEnabled (p : Nat) (cmd : Word) (payload : List Byte) (s : State) : Bool :=
  portReady p s && decide (payload.length = payloadLen cmd)

/-- The instruction a chosen step brings in: a legal request that can be issued (R107, R109), or a wire format that arrives
whole (R110, R111). -/
def fetch (a : Action) (s : State) : Option Instr :=
  match a with
  | .issue p cmd payload => if issueEnabled p cmd payload s then decode (.request cmd payload) else none
  | .rx bytes => decode (.wire bytes)
  | .disp => none
  | .cli _ _ => none
  | .tick => none
  | .reset => none

/-- Before a fetched instruction is carried out, `cur` names the port it was issued on (log entry 6). -/
def deliver (a : Action) (s : State) : State :=
  match a with
  | .issue p _ _ => { s with cur := p }
  | .rx _ => s
  | .disp => s
  | .cli _ _ => s
  | .tick => s
  | .reset => s

/-- Has `A_CLI[p]` an enabled progress step (R255)? -/
def cliEnabled (p : Nat) (s : State) : Bool :=
  decide (p < s.ports.length) &&
  match (s.port p).op with
  | .idle => false
  | .getc sel t => getcReady sel t s
  | .send _ _ .lock _ _ => decide (s.txOwner = none)
  | .send _ _ .emit _ _ => true
  | .recv t => pullReady t s
  | .readtill _ _ t => pullReady t s
  | .pqrecv cid _ t => pqReady cid t s
  | .tokwait _ t => pullReady t s

/-- The progress step of `A_CLI[p]`, by the record in `port[p].op` (R43, R190). -/
def cliStep (p : Nat) (accept : Bool) (s : State) : State :=
  match (s.port p).op with
  | .idle => s
  | .getc sel _ => stepGetc p sel s
  | .send str i .lock bulk n => stepLock p str i bulk n s
  | .send str i .emit bulk n => stepEmit p str i bulk n accept s
  | .recv t => stepRecv p t s
  | .readtill limit out t => stepReadtill p limit out t s
  | .pqrecv cid amount _ => stepPqRecv p cid amount s
  | .tokwait n t => stepTokwait p n t s

/-- A tick in the record of one port (R262): its timer goes down by 1 if it is above 0. -/
def tickOp : PortOp → PortOp
  | .idle => .idle
  | .getc sel t => .getc sel (t - 1)
  | .send str i stage bulk n => .send str i stage bulk n
  | .recv t => .recv (t - 1)
  | .readtill limit out t => .readtill limit out (t - 1)
  | .pqrecv cid amount t => .pqrecv cid amount (t - 1)
  | .tokwait n t => .tokwait n (t - 1)

/-- A tick in the dispatcher (R262): the read timer counts in phases HDR and PAYLOAD. -/
def tickDisp (d : Disp) : Disp :=
  match d.phase with
  | .scan => d
  | .hdr => { d with t := d.t - 1 }
  | .payload => { d with t := d.t - 1 }
  | .putWait => d

/-- `TICK` (R262). -/
def tickStep (s : State) : State :=
  { s with disp := tickDisp s.disp, ports := s.ports.map fun o => { o with op := tickOp o.op } }

/-- The step of `A_RESET` (R280): every state element takes its reset value (R50); the parameters stay, and the environment goes on. -/
def resetStep (s : State) : State := State.initial s.cfg s.script s.clock

/-- A step that carries out no instruction. A choice whose agent has no enabled step changes nothing (R11). An issue step arrives
here only with an illegal word, which completes with ILLEGAL (R107). -/
def agentStep (a : Action) (s : State) : State :=
  match a with
  | .issue p cmd payload => if issueEnabled p cmd payload s then complete p .illegal sentinel [] s else s
  | .rx bytes => rxBytes bytes s
  | .disp => if dispEnabled s then dispStep s else s
  | .cli p accept => if cliEnabled p s then cliStep p accept s else s
  | .tick => tickStep s
  | .reset => resetStep s

/-- Is the chosen step one its agent can take (R11, R255)? -/
def actionEnabled (a : Action) (s : State) : Bool :=
  match a with
  | .issue p cmd payload => issueEnabled p cmd payload s
  | .rx _ => true
  | .disp => dispEnabled s
  | .cli p _ => cliEnabled p s
  | .tick => true
  | .reset => true

/-- The step that brings in an opcode-table word as the environment's next choice: a request on port 0, or bytes on the wire (log
entry 3). -/
def actionOf : Encoded → Action
  | .request cmd payload => .issue 0 cmd payload
  | .wire bytes => .rx bytes

/-- Placing an encoded instruction where the next step fetches it: first in `script`, with port 0 IDLE (log entry 3). -/
def placeNext (e : Encoded) (s : State) : State :=
  let s' := { s with script := actionOf e :: s.script }
  match e with
  | .request _ _ => setOp 0 .idle s'
  | .wire _ => s'

end Sys2Proof.Machine
end

