-- ==== Sys2Proof/Machine/SystemOps.lean ====
section
/-! DEFINITION. The status and event operations (spec/45_system_ops.md R240, R241). -/

namespace Sys2Proof.Machine

/-- `SYS.RDSTAT` (R240): the flags stay as they are. -/
def execSysRdstat (s : State) : Host.Outcome State Fault Refusal :=
  issueOn s fun p => complete p .ok s.status [] s

/-- `SYS.RDEVT` (R241): read and clear in one step. -/
def execSysRdevt (s : State) : Host.Outcome State Fault Refusal :=
  issueOn s fun p => complete p .ok s.events [] { s with events := 0 }

end Sys2Proof.Machine
end

