-- ==== Sys2Proof/Machine/WireOps.lean ====
section
/-! DEFINITION. The wire formats on the RX byte port (spec/30_encoding.md R110, R111): the module sends them, and they arrive as one `RX.BYTE` step per byte (R122, R146; log entry 8). The dispatcher parses them afterwards (R213 to R215). -/

namespace Sys2Proof.Machine

/-- `WIRE.BULKFRAME` arrives (R110): marker, header, payload, in transmission order. -/
def execWireBulkFrame (c d3 d2 d1 d0 : Byte) (payload : List Byte) (s : State) : Host.Outcome State Fault Refusal :=
  .next (rxBytes (0x1B :: 0x5A :: c :: d3 :: d2 :: d1 :: d0 :: payload) s)

/-- `WIRE.DATA_ACCEPTED` arrives (R111). -/
def execWireDataAccepted (s : State) : Host.Outcome State Fault Refusal :=
  .next (rxBytes dataAcceptedToken s)

end Sys2Proof.Machine
end

