-- ==== Sys2Proof/Machine/Dispatch.lean ====
section
/-! DEFINITION. One arm per instruction: an operation's issue step on the port `cur`, or the arrival of a wire format. -/

namespace Sys2Proof.Machine

def exec (i : Instr) (s : State) : Host.Outcome State Fault Refusal :=
  match i with
  | .rbPush sel b => Sys2Proof.Machine.execRbPush sel b s
  | .rbPop sel => Sys2Proof.Machine.execRbPop sel s
  | .rbEmpty sel => Sys2Proof.Machine.execRbEmpty sel s
  | .rbRewind sel k => Sys2Proof.Machine.execRbRewind sel k s
  | .rbGetc sel => Sys2Proof.Machine.execRbGetc sel s
  | .smLoad pat => Sys2Proof.Machine.execSmLoad pat s
  | .smFeed b => Sys2Proof.Machine.execSmFeed b s
  | .chSend str => Sys2Proof.Machine.execChSend str s
  | .chRecv token => Sys2Proof.Machine.execChRecv token s
  | .chReadtill limit delim => Sys2Proof.Machine.execChReadtill limit delim s
  | .chSetto ms => Sys2Proof.Machine.execChSetto ms s
  | .pqRecv cid amount => Sys2Proof.Machine.execPqRecv cid amount s
  | .bdSend cid data => Sys2Proof.Machine.execBdSend cid data s
  | .pqFlush cid => Sys2Proof.Machine.execPqFlush cid s
  | .sysRdstat => Sys2Proof.Machine.execSysRdstat s
  | .sysRdevt => Sys2Proof.Machine.execSysRdevt s
  | .wireBulkFrame c d3 d2 d1 d0 payload => Sys2Proof.Machine.execWireBulkFrame c d3 d2 d1 d0 payload s
  | .wireDataAccepted => Sys2Proof.Machine.execWireDataAccepted s

end Sys2Proof.Machine
end

