-- ==== Sys2Proof/Machine/Step.lean ====
section
/-! DEFINITION. One step of the block: one atomic step of the agent the environment chooses (spec/20_memory.md R80). -/

namespace Sys2Proof.Machine

/-- The environment's next choice is taken; if it brings in an instruction, that instruction is carried out, else it is a step of
another agent. -/
def step (s : State) : Host.Outcome State Fault Refusal :=
  let a := nextAction s
  let s' := advance s
  match fetch a s' with
  | some i => exec i (deliver a s')
  | none => .next (agentStep a s')

/-- The state whose next step fetches the instruction with the opcode-table word `w` (log entry 3). -/
def State.withFetchWord (s : State) (nbits w : Nat) : State := placeNext (tableEncoded nbits w) s

end Sys2Proof.Machine
end

