-- ==== Sys2Proof/Machine/Asm.lean ====
section
/-! DEFINITION. The textual form of an operation (spec/30_encoding.md R120): a reader for every form the rule gives, and a printer that writes one of them (log entry 13). Text is a list of characters. -/

namespace Sys2Proof

/-- The lower-case mnemonic of an operation (R120). -/
def Op.text : Op → List Char
  | .rbPush => ['r', 'b', '.', 'p', 'u', 's', 'h']
  | .rbPop => ['r', 'b', '.', 'p', 'o', 'p']
  | .rbEmpty => ['r', 'b', '.', 'e', 'm', 'p', 't', 'y']
  | .rbRewind => ['r', 'b', '.', 'r', 'e', 'w', 'i', 'n', 'd']
  | .rbGetc => ['r', 'b', '.', 'g', 'e', 't', 'c']
  | .smLoad => ['s', 'm', '.', 'l', 'o', 'a', 'd']
  | .smFeed => ['s', 'm', '.', 'f', 'e', 'e', 'd']
  | .chSend => ['c', 'h', '.', 's', 'e', 'n', 'd']
  | .chRecv => ['c', 'h', '.', 'r', 'e', 'c', 'v']
  | .chReadtill => ['c', 'h', '.', 'r', 'e', 'a', 'd', 't', 'i', 'l', 'l']
  | .chSetto => ['c', 'h', '.', 's', 'e', 't', 't', 'o']
  | .pqRecv => ['p', 'q', '.', 'r', 'e', 'c', 'v']
  | .bdSend => ['b', 'd', '.', 's', 'e', 'n', 'd']
  | .pqFlush => ['p', 'q', '.', 'f', 'l', 'u', 's', 'h']
  | .sysRdstat => ['s', 'y', 's', '.', 'r', 'd', 's', 't', 'a', 't']
  | .sysRdevt => ['s', 'y', 's', '.', 'r', 'd', 'e', 'v', 't']

/-- An operand as written (R120). -/
inductive Arg where
  | ring (sel : RingSel)
  | num (n : Nat)
  | bytes (l : List Byte)
deriving DecidableEq, Repr

/-- A decimal digit's value. -/
def decChar (c : Char) : Option Nat :=
  if 48 ≤ c.toNat ∧ c.toNat ≤ 57 then some (c.toNat - 48) else none

/-- A hexadecimal digit's value, either case. -/
def hexChar (c : Char) : Option Nat :=
  if 48 ≤ c.toNat ∧ c.toNat ≤ 57 then some (c.toNat - 48)
  else if 65 ≤ c.toNat ∧ c.toNat ≤ 70 then some (c.toNat - 55)
  else if 97 ≤ c.toNat ∧ c.toNat ≤ 102 then some (c.toNat - 87)
  else none

/-- The digits at the front of a text, read in a base into `acc`. -/
def readDigits (digit : Char → Option Nat) (base : Nat) : List Char → Nat → Nat × List Char
  | [], acc => (acc, [])
  | c :: rest, acc =>
    match digit c with
    | some d => readDigits digit base rest (acc * base + d)
    | none => (acc, c :: rest)

/-- A number with at least one digit. -/
def readNumberIn (digit : Char → Option Nat) (base : Nat) (text : List Char) : Option (Nat × List Char) :=
  match text with
  | [] => none
  | c :: _ =>
    match digit c with
    | some _ => some (readDigits digit base text 0)
    | none => none

/-- A number, decimal or `0x` hexadecimal (R120). -/
def readNumber : List Char → Option (Nat × List Char)
  | '0' :: 'x' :: rest => readNumberIn hexChar 16 rest
  | text => readNumberIn decChar 10 text

/-- A byte written as two hexadecimal digits. -/
def hexByte (h l : Char) : Option Byte :=
  match hexChar h, hexChar l with
  | some x, some y => some (BitVec.ofNat 8 (16 * x + y))
  | _, _ => none

/-- A byte in front of what the rest of a literal reads as. -/
def consByte (b : Byte) : Option (List Byte × List Char) → Option (List Byte × List Char)
  | some (l, rest) => some (b :: l, rest)
  | none => none

/-- The rest of a string literal after its opening quote, with the escapes of R120. -/
def readString : List Char → Option (List Byte × List Char)
  | '"' :: rest => some ([], rest)
  | '\\' :: 'n' :: rest => consByte 0x0A (readString rest)
  | '\\' :: 'r' :: rest => consByte 0x0D (readString rest)
  | '\\' :: 'e' :: rest => consByte 0x1B (readString rest)
  | '\\' :: 'x' :: h :: l :: rest =>
    match hexByte h l with
    | some b => consByte b (readString rest)
    | none => none
  | c :: rest =>
    if c.toNat < 128 ∧ c ≠ '\\' then consByte (BitVec.ofNat 8 c.toNat) (readString rest) else none
  | [] => none

/-- The braces around a list of hex bytes. -/
def openBrace : Char := Char.ofNat 123

/-- The closing brace. -/
def closeBrace : Char := Char.ofNat 125

/-- The rest of a brace list of hex bytes after its opening brace (R120). -/
def readBraces : List Char → Option (List Byte × List Char)
  | c :: rest =>
    if c = closeBrace then some ([], rest)
    else if c = ' ' then readBraces rest
    else
      match rest with
      | l :: rest' =>
        match hexByte c l with
        | some b => consByte b (readBraces rest')
        | none => none
      | [] => none
  | [] => none

/-- One operand (R120). -/
def readArg : List Char → Option (Arg × List Char)
  | 'r' :: 'x' :: rest => some (.ring .rx, rest)
  | 'r' :: 's' :: 'p' :: rest => some (.ring .rsp, rest)
  | '"' :: rest => (readString rest).map fun x => (.bytes x.1, x.2)
  | text =>
    match text with
    | c :: rest =>
      if c = openBrace then (readBraces rest).map fun x => (.bytes x.1, x.2)
      else (readNumber text).map fun x => (.num x.1, x.2)
    | [] => none

/-- A text without the spaces in front. -/
def skipSpaces (text : List Char) : List Char := text.dropWhile fun c => c = ' '

/-- The operands, separated by commas; `fuel` bounds their number. -/
def readArgs : Nat → List Char → Option (List Arg)
  | 0, _ => none
  | fuel + 1, text =>
    match readArg (skipSpaces text) with
    | none => none
    | some (arg, rest) =>
      match skipSpaces rest with
      | [] => some [arg]
      | ',' :: rest' => (readArgs fuel rest').map fun l => arg :: l
      | _ :: _ => none

/-- The operation of a mnemonic and its operands; the length of a byte list supplies the field `len` or `n` (R120). -/
def Op.fromArgs : Op → List Arg → Option Instr
  | .rbPush, [.ring sel, .num n] => if n < 256 then some (.rbPush sel (BitVec.ofNat 8 n)) else none
  | .rbPop, [.ring sel] => some (.rbPop sel)
  | .rbEmpty, [.ring sel] => some (.rbEmpty sel)
  | .rbRewind, [.ring sel, .num k] => if k < 65536 then some (.rbRewind sel (BitVec.ofNat 16 k)) else none
  | .rbGetc, [.ring sel] => some (.rbGetc sel)
  | .smLoad, [.bytes l] => if l.length ≤ 255 then some (.smLoad l) else none
  | .smFeed, [.num n] => if n < 256 then some (.smFeed (BitVec.ofNat 8 n)) else none
  | .chSend, [.bytes l] => if l.length ≤ 65535 then some (.chSend l) else none
  | .chRecv, [.bytes l] => if l.length ≤ 255 then some (.chRecv l) else none
  | .chReadtill, [.num n, .bytes l] =>
    if n < 65536 ∧ l.length ≤ 255 then some (.chReadtill (BitVec.ofNat 16 n) l) else none
  | .chSetto, [.num n] => if n < 65536 then some (.chSetto (BitVec.ofNat 16 n)) else none
  | .pqRecv, [.num c, .num n] =>
    if c < 16 ∧ n < 65536 then some (.pqRecv (BitVec.ofNat 4 c) (BitVec.ofNat 16 n)) else none
  | .bdSend, [.num c, .bytes l] =>
    if c < 16 ∧ l.length ≤ 65535 then some (.bdSend (BitVec.ofNat 4 c) l) else none
  | .pqFlush, [.num c] => if c < 16 then some (.pqFlush (BitVec.ofNat 4 c)) else none
  | .sysRdstat, [] => some .sysRdstat
  | .sysRdevt, [] => some .sysRdevt
  | _, _ => none

/-- An operation without its port. -/
def readOperation (text : List Char) : Option Instr :=
  let mnemonic := text.takeWhile fun c => c ≠ ' '
  let rest := skipSpaces (text.dropWhile fun c => c ≠ ' ')
  match Op.all.find? (fun o => o.text = mnemonic) with
  | none => none
  | some o =>
    match rest with
    | [] => o.fromArgs []
    | _ :: _ =>
      match readArgs rest.length rest with
      | none => none
      | some args => o.fromArgs args

/-- A line: an operation, with the port in front as `p<number>:` (default `p0:`) (R120). -/
def readLine (text : List Char) : Option (Nat × Instr) :=
  match text with
  | 'p' :: rest =>
    match readNumberIn decChar 10 rest with
    | some (p, ':' :: rest') => (readOperation (skipSpaces rest')).map fun i => (p, i)
    | some (_, _) => none
    | none => (readOperation text).map fun i => (0, i)
  | _ => (readOperation text).map fun i => (0, i)

/-- A hexadecimal digit, lower case. -/
def printDigit (v : Nat) : Char := Char.ofNat (if v < 10 then 48 + v else 87 + v)

/-- A 16-bit number as `0x` and four digits. -/
def printNumber (n : Nat) : List Char :=
  ['0', 'x', printDigit (n / 4096 % 16), printDigit (n / 256 % 16), printDigit (n / 16 % 16), printDigit (n % 16)]

/-- A byte as the escape `\xHH`. -/
def printByte (b : Byte) : List Char := ['\\', 'x', printDigit (b.toNat / 16), printDigit (b.toNat % 16)]

/-- A byte list as a string literal. -/
def printBytes (l : List Byte) : List Char := '"' :: (l.flatMap printByte ++ ['"'])

/-- A ring's name. -/
def printRing : RingSel → List Char
  | .rx => ['r', 'x']
  | .rsp => ['r', 's', 'p']

/-- An operation as text (R120); a wire format has no textual form. -/
def printOperation : Instr → Option (List Char)
  | .rbPush sel b => some (Op.rbPush.text ++ [' '] ++ printRing sel ++ [',', ' '] ++ printNumber b.toNat)
  | .rbPop sel => some (Op.rbPop.text ++ [' '] ++ printRing sel)
  | .rbEmpty sel => some (Op.rbEmpty.text ++ [' '] ++ printRing sel)
  | .rbRewind sel k => some (Op.rbRewind.text ++ [' '] ++ printRing sel ++ [',', ' '] ++ printNumber k.toNat)
  | .rbGetc sel => some (Op.rbGetc.text ++ [' '] ++ printRing sel)
  | .smLoad pat => some (Op.smLoad.text ++ [' '] ++ printBytes pat)
  | .smFeed b => some (Op.smFeed.text ++ [' '] ++ printNumber b.toNat)
  | .chSend str => some (Op.chSend.text ++ [' '] ++ printBytes str)
  | .chRecv token => some (Op.chRecv.text ++ [' '] ++ printBytes token)
  | .chReadtill limit delim => some (Op.chReadtill.text ++ [' '] ++ printNumber limit.toNat ++ [',', ' '] ++ printBytes delim)
  | .chSetto ms => some (Op.chSetto.text ++ [' '] ++ printNumber ms.toNat)
  | .pqRecv cid amount => some (Op.pqRecv.text ++ [' '] ++ printNumber cid.toNat ++ [',', ' '] ++ printNumber amount.toNat)
  | .bdSend cid data => some (Op.bdSend.text ++ [' '] ++ printNumber cid.toNat ++ [',', ' '] ++ printBytes data)
  | .pqFlush cid => some (Op.pqFlush.text ++ [' '] ++ printNumber cid.toNat)
  | .sysRdstat => some Op.sysRdstat.text
  | .sysRdevt => some Op.sysRdevt.text
  | .wireBulkFrame _ _ _ _ _ _ => none
  | .wireDataAccepted => none

end Sys2Proof
end

