-- ==== Sys2Proof/Machine/Client.lean ====
section
/-! DEFINITION. What the clients do with the responses: the pseudo-instructions of spec/30_encoding.md R121 and the chains of spec/43_command_channel.md R198. The block keeps no chain state; these are functions of the responses delivered (log entry 11). -/

namespace Sys2Proof.Machine

/-- The field `st` of a result word (R102). -/
def Response.st (r : Response) : BitVec 4 := r.res.extractLsb' 28 4

/-- The field `val` of a result word (R102). -/
def Response.val (r : Response) : Half := r.res.extractLsb' 0 16

/-- Did the operation answer OK (R102)? -/
def Response.isOk (r : Response) : Bool := decide (r.st = statusNumber .ok)

/-- The pseudo-instructions of R121. -/
inductive Pseudo where
  /-- `at <bytes>, <token>`. -/
  | atCommand (bytes token : List Byte)
  /-- `recv.ok`. -/
  | recvOk
  /-- `chain`, with its operations in order. -/
  | chain (ops : List Instr)
deriving DecidableEq, Repr

/-- The operations a pseudo-instruction stands for, to be issued in order as long as each answers OK (R121). -/
def Pseudo.expand : Pseudo → List Instr
  | .atCommand bytes token => [.chSend bytes, .chRecv token]
  | .recvOk => [.chRecv [0x4F, 0x4B]]
  | .chain ops => ops

/-- The operation a chain issues next, given the responses its earlier ones got: the first failing step ends the chain (R121, R198). -/
def chainNext : List Instr → List Response → Option Instr
  | [], _ => none
  | i :: _, [] => some i
  | _ :: ops, r :: rs => if r.isOk then chainNext ops rs else none

/-- The result of a chain: OK iff every operation was issued and answered OK (R121). -/
def chainOk : List Instr → List Response → Bool
  | [], _ => true
  | _ :: _, [] => false
  | _ :: ops, r :: rs => r.isOk && chainOk ops rs

/-- The step by which the client of port `p` goes on with a chain begun when the port had delivered `start` responses: each operation is
issued after the one before it completed (R121). -/
def chainAction (p start : Nat) (ops : List Instr) (s : State) : Option Action :=
  if portReady p s then
    match chainNext ops ((s.port p).resps.drop start) with
    | none => none
    | some i =>
      match encode i with
      | .request cmd payload => some (.issue p cmd payload)
      | .wire _ => none
  else none

end Sys2Proof.Machine
end

