-- ==== Sys2Proof/Machine/Script.lean ====
section
/-! DEFINITION. Event scripts (spec/30_encoding.md R122): the lines that write the environment's part of an execution, each run by steps of the machine. -/

namespace Sys2Proof.Machine

/-- The lines of R122, with the issue of an operation on a port. -/
inductive ScriptLine where
  | issue (port : Nat) (i : Instr)
  /-- `rx <bytes>`. -/
  | rx (bytes : List Byte)
  /-- `tick <n>`. -/
  | tick (n : Nat)
  /-- `disp <n>`. -/
  | disp (n : Nat)
  /-- `disp*`: dispatcher steps until none is enabled. -/
  | dispAll
  /-- `step p<number>`. -/
  | step (port : Nat)
  /-- `run p<number>`: progress steps until the operation completes or is blocked. -/
  | run (port : Nat)
  /-- `txsink accept` and `txsink refuse`. -/
  | txsink (accept : Bool)
  | reset
deriving DecidableEq, Repr

/-- One step chosen by the script, taken by the machine. -/
def perform (a : Action) (s : State) : State :=
  match step { s with script := a :: s.script } with
  | .next s' => s'
  | .fault _ => s
  | .refused _ => s

/-- The same step again and again, at most `fuel` times, while its agent has one. -/
def performWhile : Nat → Action → State → State
  | 0, _, s => s
  | fuel + 1, a, s => if actionEnabled a s then performWhile fuel a (perform a s) else s

/-- `n` times the same step. -/
def performTimes : Nat → Action → State → State
  | 0, _, s => s
  | n + 1, a, s => performTimes n a (perform a s)

/-- More dispatcher steps than can follow each other without an RX byte arriving: each takes an RX byte, or ends a frame. -/
def dispFuel (s : State) : Nat := 2 * s.rx.count + 2

/-- More progress steps than can follow each other on port `p`: each emits a byte, takes an RSP byte, or changes the record. -/
def runFuel (p : Nat) (s : State) : Nat :=
  s.rsp.count + 4 +
  match (s.port p).op with
  | .send str _ _ _ _ => str.length
  | .idle => 0
  | .getc _ _ => 0
  | .recv _ => 0
  | .readtill _ _ _ => 0
  | .pqrecv _ _ _ => 0
  | .tokwait _ _ => 0

/-- A script line run on a state; the Bool is what `A_TXSINK` answers from then on. -/
def runLine (l : ScriptLine) (x : Bool × State) : Bool × State :=
  match l with
  | .issue p i =>
    match encode i with
    | .request cmd payload => (x.1, perform (.issue p cmd payload) x.2)
    | .wire bytes => (x.1, perform (.rx bytes) x.2)
  | .rx bytes => (x.1, perform (.rx bytes) x.2)
  | .tick n => (x.1, performTimes n .tick x.2)
  | .disp n => (x.1, performTimes n .disp x.2)
  | .dispAll => (x.1, performWhile (dispFuel x.2) .disp x.2)
  | .step p => (x.1, perform (.cli p x.1) x.2)
  | .run p => (x.1, performWhile (runFuel p x.2) (.cli p x.1) x.2)
  | .txsink accept => (accept, x.2)
  | .reset => (x.1, perform .reset x.2)

/-- A script from a state, the sink accepting (R122). -/
def runScript (lines : List ScriptLine) (s : State) : State :=
  (lines.foldl (fun x l => runLine l x) (true, s)).2

end Sys2Proof.Machine
end

