-- ==== Sys2Proof/Safety.lean ====
section
/-! DEFINITION. The terms claims use: the invariants of the spec (spec/10_state.md R22 to R47), executions and fairness (spec/70_reset_and_hazards.md R303), losslessness (spec/60_exceptions.md R253), and names for the parts of a state an operation changes. -/

namespace Sys2Proof.Machine

/-- The ring invariants I1 to I3 with the index ranges (R22, R23), and the canonical form of the store. -/
structure RingInv (n : Nat) (r : Ring) : Prop where
  head_lt : r.head < n
  tail_lt : r.tail < n
  head_eq : r.head = (r.tail + r.count) % n
  room : r.count + r.hist ≤ n
  canonical : Memory.wf r.store = true
  slots : ∀ c ∈ r.store, c.1 < n

/-- The dispatcher's invariants: the cursors' range (R26), J1 and J2 in phase SCAN and cleared cursors and window elsewhere (R33), and the frame
registers' ranges (R29 to R32, R214). -/
structure DispInv (s : State) : Prop where
  cursors : s.mcur.length = s.cfg.reg.length
  cursor_lt : ∀ (i c : Nat) (r : Registration), s.cfg.reg[i]? = some r → s.mcur[i]? = some c → c < r.pat.length
  held : s.disp.phase = .scan → s.disp.hold.length = s.mcur.foldr max 0
  claimed : s.disp.phase = .scan → ∀ (i c : Nat) (r : Registration), s.cfg.reg[i]? = some r → s.mcur[i]? = some c →
    s.disp.hold.drop (s.disp.hold.length - c) = r.pat.take c
  cleared : s.disp.phase ≠ .scan → s.disp.hold = [] ∧ ∀ c ∈ s.mcur, c = 0
  header_le : s.disp.fHdr.length ≤ 5
  header_lt : s.disp.phase = .hdr → s.disp.fHdr.length < 5
  length_le : s.disp.fLen ≤ s.cfg.pktMax
  buffer_le : s.disp.fBuf.length ≤ s.cfg.pktMax
  payload_lt : s.disp.phase = .payload → s.disp.fBuf.length < s.disp.fLen
  complete_eq : s.disp.phase = .putWait → s.disp.fBuf.length = s.disp.fLen
  timer_le : s.disp.t ≤ 65536

/-- The packet invariant `off + len = len(data)` with the ranges of R34, for a packet of queue `c` (R35). -/
structure PacketInv (pktMax : Nat) (c : BitVec 4) (p : Packet) : Prop where
  cid_eq : p.cid = c
  split : p.off + p.len = p.data.length
  data_le : p.data.length ≤ pktMax

/-- The queue invariants (R35, R36): K3, and K2, only the head packet is partly consumed. -/
structure QueueInv (s : State) : Prop where
  bounded : ∀ c, (s.queue c).length ≤ Config.qcap
  packets : ∀ c, ∀ p ∈ s.queue c, PacketInv s.cfg.pktMax c p
  head_only : ∀ c, ∀ p ∈ (s.queue c).tail, p.off = 0

/-- The ranges of the fields of a port's record (R43), and what the record in progress needs of the ephemeral matcher (R45). -/
def OpInv (em : Matcher) : PortOp → Prop
  | .idle => True
  | .getc _ t => t ≤ 65536
  | .send str i stage bulk n => i ≤ str.length ∧ (stage = .lock → i = 0) ∧ str.length ≤ 65535 ∧ n ≤ 9999 ∧ (bulk = false → n = 0)
  | .recv t => t ≤ 65536 ∧ em.pat ≠ []
  | .readtill limit out t => t ≤ 65536 ∧ em.pat ≠ [] ∧ out.length < limit ∧ limit ≤ 65535 ∧ em.cur ≤ out.length
  | .pqrecv _ amount t => amount ≤ 65535 ∧ t ≤ 65536
  | .tokwait n t => n ≤ 9999 ∧ t ≤ 65536 ∧ em.pat = dataAcceptedToken

/-- What every delivered response looks like (R102): bits 27:16 zero, a status code of at most 5, and data bytes only with status OK, then `val`
of them. -/
structure ResponseInv (r : Response) : Prop where
  reserved : r.res.extractLsb' 16 12 = 0
  status_le : (r.res.extractLsb' 28 4).toNat ≤ 5
  data_eq : r.data = [] ∨ (r.res.extractLsb' 28 4 = statusNumber .ok ∧ r.data.length = (r.res.extractLsb' 0 16).toNat)

/-- A port's invariants (R43, R45, R102). The token of `BD.SEND` has two bytes, also where `PMAX` is 1 (log entry 12). -/
structure PortInv (pmax : Nat) (o : Port) : Prop where
  pattern_le : o.em.pat.length ≤ max pmax 2
  cursor_le : o.em.cur ≤ o.em.pat.length - 1
  record : OpInv o.em o.op
  responses : ∀ r ∈ o.resps, ResponseInv r

/-- Is a record one that holds the TX lock (R43, R193)? -/
def emitting : PortOp → Bool
  | .send _ _ .emit _ _ => true
  | .send _ _ .lock _ _ => false
  | .idle => false
  | .getc _ _ => false
  | .recv _ => false
  | .readtill _ _ _ => false
  | .pqrecv _ _ _ => false
  | .tokwait _ _ => false

/-- The TX lock is held by exactly the ports that emit (R41, R86, R193), so at most one does. -/
def LockInv (s : State) : Prop :=
  (∀ p, s.txOwner = some p → p < s.ports.length) ∧
  ∀ p, p < s.ports.length → (emitting (s.port p).op = true ↔ s.txOwner = some p)

/-- The bits of the flag registers that are never set (R46, R47). -/
structure FlagInv (s : State) : Prop where
  status_reserved : ∀ i, 5 ≤ i → s.status.getLsbD i = false
  events_reserved : ∀ i, s.events.getLsbD i = true → ∃ r, s.cfg.reg[i]? = some r ∧ r.handler = .event

/-- All the invariants of the spec's state. -/
structure Inv (s : State) : Prop where
  config : s.cfg.wf = true
  rx : RingInv s.cfg.rxN s.rx
  rsp : RingInv s.cfg.rspN s.rsp
  disp : DispInv s
  queues : QueueInv s
  portCount : s.ports.length = s.cfg.nport
  ports : ∀ o ∈ s.ports, PortInv s.cfg.pmax o
  lock : LockInv s
  flags : FlagInv s

/-- The state after a list of chosen steps, taken in order (R80). -/
def performAll (acts : List Action) (s : State) : State := acts.foldl (fun st a => perform a st) s

/-- An infinite execution of the block under a schedule `acts` (R80), weakly fair to the dispatcher and to every client, with infinitely
many ticks (R303). DESIGN CHOICE: R14 counts the issue step among the steps of `A_CLI[p]` and R303 does not say whether fairness covers it;
here it covers the progress steps only, so a port may stay IDLE for ever in a fair execution. Safe: as a premise this asks less of an
execution (log entry 19). -/
structure FairRun (acts : Nat → Action) (run : Nat → State) : Prop where
  steps : ∀ n, run (n + 1) = perform (acts n) (run n)
  disp : ∀ n, (∀ m, n ≤ m → dispEnabled (run m) = true) → ∃ m, n ≤ m ∧ acts m = .disp
  cli : ∀ p n, (∀ m, n ≤ m → cliEnabled p (run m) = true) → ∃ m, n ≤ m ∧ ∃ accept, acts m = .cli p accept
  tick : ∀ n, ∃ m, n ≤ m ∧ acts m = .tick

/-- What an issue step leaves in `port[p].op` (R44, R190): IDLE, or a record as its operation stores it, with the timer loaded. -/
def IssuedOp (load : Nat) : PortOp → Prop
  | .idle => True
  | .getc _ t => t = load
  | .send _ i stage _ _ => i = 0 ∧ stage = .lock
  | .recv t => t = load
  | .readtill _ out t => out = [] ∧ t = load
  | .pqrecv _ _ t => t = load
  | .tokwait _ _ => False

/-- The arrows of R44 that a progress step takes, from a record to what stands in `port[p].op` after it, with the steps that go on in the
same record: emitting a byte (R191), pulling one (R194, R195, R220). -/
def ProgressArrow (load : Nat) : PortOp → PortOp → Prop
  | .idle, _ => False
  | .getc _ _, op => op = .idle
  | .send str i .lock bulk n, op => op = .send str i .emit bulk n
  | .send str i .emit bulk n, op =>
    i < str.length ∧ (op = .idle ∨ op = .send str (i + 1) .emit bulk n) ∨
    str.length ≤ i ∧ op = (if bulk then .tokwait n load else .idle)
  | .recv t, op => op = .idle ∨ op = .recv t
  | .readtill limit out t, op => op = .idle ∨ ∃ b, op = .readtill limit (out ++ [b]) t
  | .pqrecv _ _ _, op => op = .idle
  | .tokwait n t, op => op = .idle ∨ op = .tokwait n t

/-- Is a record one of an operation that waits under a timer (R262)? -/
def timed : PortOp → Bool
  | .idle => false
  | .getc _ _ => true
  | .send _ _ _ _ _ => false
  | .recv _ => true
  | .readtill _ _ _ => true
  | .pqrecv _ _ _ => true
  | .tokwait _ _ => true

/-- The port list after the operation on port `p` has completed with a result word and data bytes (R11, R100). -/
def delivered (s : State) (p : Nat) (res : Word) (data : List Byte) : List Port :=
  s.ports.modify p fun o => { o with op := .idle, resps := o.resps ++ [{ res := res, data := data }] }

/-- The port list after a record has been stored in `port[p].op` (R190). -/
def recorded (s : State) (p : Nat) (op : PortOp) : List Port := s.ports.modify p fun o => { o with op := op }

/-- The port `cur` exists and is IDLE, so that an operation can be issued on it (R100, R190). -/
def Ready (s : State) : Prop := s.cur < s.ports.length ∧ (s.port s.cur).op = .idle

/-- The bytes a ring still gives when it is popped until it is empty (R145), at most `fuel` of them. -/
def popAll (n : Nat) : Nat → Ring → List Byte
  | 0, _ => []
  | fuel + 1, r =>
    match Ring.pop n r with
    | none => []
    | some (b, r') => b :: popAll n fuel r'

/-- The cursor of a matcher that has been fed a list of bytes, from a cursor on (R160). -/
def feedFrom (pat : List Byte) (cur : Nat) (bytes : List Byte) : Nat :=
  bytes.foldl (fun c b => (smFeed pat c b).1) cur

/-- No byte has been lost and no frame dropped since reset (R253, spec/90_conflicts.md C11): the four loss flags are clear. -/
def lossless (s : State) : Bool := decide (s.status &&& 0x000F = 0)

/-- The bytes still to be received from a queue, in order (R219). -/
def queueBytes (l : List Packet) : List Byte := l.flatMap fun p => (p.data.drop p.off).take p.len

end Sys2Proof.Machine
end

