-- ==== Sys2Proof/Certificates/Slice0/Obligations.lean ====
section
/-! DEFINITION. The statements for the provers. Each docstring says which rule of the spec the statement formalises, or that it is the model's choice. -/

open Sys2Proof Sys2Proof.Machine

/-! ### Encoding -/

/-- Every well-formed instruction is read back from its encoding (R101 to R106, R110, R111): no bit of an operand is dropped. -/
def Obligations.DecodeOfEncodeGivesInstruction : Prop :=
  ∀ i : Instr, i.wellFormed = true → decode (encode i) = some i

/-- Whatever decodes is the encoding of what it decodes to: a word has one meaning, and every reserved bit of a word that decodes is zero
(R103, R107). -/
def Obligations.EncodeOfDecodeGivesWord : Prop :=
  ∀ (e : Encoded) (i : Instr), decode e = some i → encode i = e ∧ i.wellFormed = true

/-- A command word selects a row iff `w & mask = match` (R104): the formats with their reserved bits are the table's masks. -/
def Obligations.RowSelectedIffMaskMatches : Prop :=
  ∀ (w : Word) (o : Op), decodeOp w = some o ↔ w &&& (Op.matchMask o).2 = (Op.matchMask o).1

/-- The payload length is a function of `opc` alone, also for a word that is illegal (R105). -/
def Obligations.PayloadLengthByOpcode : Prop :=
  ∀ w : Word, payloadLen w =
    if w.toNat / 0x1000000 ∈ [0x10, 0x21, 0x22] then w.toNat / 0x10000 % 0x100
    else if w.toNat / 0x1000000 ∈ [0x20, 0x31] then w.toNat % 0x10000
    else 0

/-- Words of spec/95_test_vectors.md section 2.1, one of each family, and the two wire formats. -/
def Obligations.WrittenWordsDecode : Prop :=
  decode (.request 0x01010041 []) = some (.rbPush .rsp 0x41) ∧
  decode (.request 0x10020000 [0x41, 0x42]) = some (.smLoad [0x41, 0x42]) ∧
  decode (.request 0x22020010 [0x0D, 0x0A]) = some (.chReadtill 16 [0x0D, 0x0A]) ∧
  decode (.request 0x31030002 [0x68, 0x69]) = some (.bdSend 3 [0x68, 0x69]) ∧
  decode (.request 0x40000000 []) = some .sysRdstat ∧
  decode (.wire [0x1B, 0x4F]) = some .wireDataAccepted ∧
  decode (.wire [0x1B, 0x5A, 0x33, 0x30, 0x30, 0x30, 0x31, 0x61]) =
    some (.wireBulkFrame 0x33 0x30 0x30 0x30 0x31 [0x61]) ∧
  decode (.request 0x01010141 []) = none

/-- `header_ok` and the reading of a header (R217), with the digit ranges and values of R12 in numbers: a header is valid iff it is one
hexadecimal digit, of either case (R112), and four decimal digits whose value is at most PKT_MAX. And the header `BD.SEND` produces,
given in numbers too, passes that validation and decodes to the id and the length exactly (R114). -/
def Obligations.BulkHeaderRoundTrip : Prop :=
  ∀ pktMax : Nat,
    (∀ c d3 d2 d1 d0 : Byte,
      let hex : Prop := 0x30 ≤ c.toNat ∧ c.toNat ≤ 0x39 ∨ 0x41 ≤ c.toNat ∧ c.toNat ≤ 0x46 ∨ 0x61 ≤ c.toNat ∧ c.toNat ≤ 0x66
      let dec : Prop := ∀ d ∈ [d3, d2, d1, d0], 0x30 ≤ d.toNat ∧ d.toNat ≤ 0x39
      let len := 1000 * (d3.toNat - 0x30) + 100 * (d2.toNat - 0x30) + 10 * (d1.toNat - 0x30) + (d0.toNat - 0x30)
      (hex ∧ dec ∧ len ≤ pktMax → headerRead pktMax [c, d3, d2, d1, d0] = some (BitVec.ofNat 4
        (if c.toNat ≤ 0x39 then c.toNat - 0x30 else if c.toNat ≤ 0x46 then c.toNat - 0x37 else c.toNat - 0x57), len)) ∧
      (¬ (hex ∧ dec ∧ len ≤ pktMax) → headerRead pktMax [c, d3, d2, d1, d0] = none)) ∧
    ∀ (n : Nat) (cid : BitVec 4), n ≤ min 9999 pktMax →
      [hexdigit cid.toNat] ++ dec4 n =
        [BitVec.ofNat 8 (if cid.toNat ≤ 9 then 0x30 + cid.toNat else 0x57 + cid.toNat), BitVec.ofNat 8 (0x30 + n / 1000),
          BitVec.ofNat 8 (0x30 + n / 100 % 10), BitVec.ofNat 8 (0x30 + n / 10 % 10), BitVec.ofNat 8 (0x30 + n % 10)] ∧
      headerRead pktMax ([hexdigit cid.toNat] ++ dec4 n) = some (cid, n)

/-- The printed text of an operation reads back as that operation on port 0 (R120). The text chosen is the model's (log entry 13). -/
def Obligations.PrintedOperationReadsBack : Prop :=
  ∀ (i : Instr) (text : List Char), i.wellFormed = true → printOperation i = some text → readLine text = some (0, i)

/-! ### Steps and requests -/

/-- A step whose chosen request decodes, on a port that is IDLE, is `exec` of that instruction on that port (R100, R190). The model's
own: that the environment's choice stands in `script` and is used up (log entry 2), that `cur` names the port for `exec` (log entry 6), and
that one step may take a wire format whole, as the uninterrupted sequence of its `RX.BYTE` steps (log entry 8), which is then `exec` of
that format. -/
def Obligations.StepRunsTheDecodedInstruction : Prop :=
  (∀ (s : State) (p : Nat) (cmd : Word) (payload : List Byte) (rest : List Action) (i : Instr),
    s.script = .issue p cmd payload :: rest → p < s.ports.length → (s.port p).op = .idle →
    decode (.request cmd payload) = some i →
    step s = exec i { s with script := rest, cur := p }) ∧
  ∀ (s : State) (bytes : List Byte) (rest : List Action) (i : Instr),
    s.script = .rx bytes :: rest → decode (.wire bytes) = some i → step s = exec i { s with script := rest }

/-- No step stops the block (R250): every step from every state answers a next state. -/
def Obligations.EveryStepAnswersNext : Prop := ∀ s : State, ∃ t, step s = .next t

/-- An illegal command word completes at once with ILLEGAL and changes nothing but the response; its payload is consumed (R107). The
undefined `opc` values and the words with a reserved bit set are the words that select no row; the all-zero word is one. -/
def Obligations.IllegalRequestAnswersIllegal : Prop :=
  (∀ o : Op, 0x00000000#32 &&& (Op.matchMask o).2 ≠ (Op.matchMask o).1) ∧
  ∀ (s : State) (p : Nat) (cmd : Word) (payload : List Byte) (rest : List Action),
    s.script = .issue p cmd payload :: rest → p < s.ports.length → (s.port p).op = .idle →
    payload.length = payloadLen cmd → (∀ o : Op, cmd &&& (Op.matchMask o).2 ≠ (Op.matchMask o).1) →
    step s = .next { s with script := rest, ports := delivered s p 0x5000FFFF [] }

/-- A request presented on a port that is not IDLE is not accepted: nothing changes (R100; that the environment's choice is then
used up is the model's, log entry 2). Carried out by `exec` all the same, which the spec says cannot occur (E9), an operation is refused
by the name `portBusy`, the model's choice (log entry 7). -/
def Obligations.BusyPortAcceptsNoRequest : Prop :=
  (∀ (s : State) (p : Nat) (cmd : Word) (payload : List Byte) (rest : List Action),
    s.script = .issue p cmd payload :: rest → (s.port p).op ≠ .idle → step s = .next { s with script := rest }) ∧
  ∀ (s : State) (i : Instr) (cmd : Word) (payload : List Byte), encode i = .request cmd payload →
    (s.ports.length ≤ s.cur ∨ (s.port s.cur).op ≠ .idle) → exec i s = .refused .portBusy

/-- The operands out of range of R108. -/
def Obligations.OutOfRangeRequestAnswersRange : Prop :=
  ∀ (i : Instr) (s : State), Ready s →
    let outOfRange : Prop :=
      match i with
      | .smLoad l => l.length = 0 ∨ s.cfg.pmax < l.length
      | .chRecv l => l.length = 0 ∨ s.cfg.pmax < l.length
      | .chReadtill _ l => l.length = 0 ∨ s.cfg.pmax < l.length
      | .smFeed _ => (s.port s.cur).em.pat = []
      | .rbRewind sel k => (s.ring sel).hist < k.toNat
      | .bdSend _ l => 9999 < l.length
      | _ => False
    (outOfRange → exec i s = .next { s with ports := delivered s s.cur 0x4000FFFF [] }) ∧
    (¬ outOfRange → ∃ t, exec i s = .next t ∧
      ∀ r ∈ (t.port s.cur).resps.drop (s.port s.cur).resps.length, r.res.extractLsb' 28 4 ≠ 4)

/-! ### Rings -/

/-- `rb_push` (R140) in list form and in index form, with the byte written to slot `head`, every other slot as before, the ring's overflow flag set exactly
when the ring was full, and nothing else changed. -/
def Obligations.RingPushKeepsNewestBytes : Prop :=
  ∀ (sel : RingSel) (b : Byte) (s : State), RingInv (Config.ringN s.cfg sel) (s.ring sel) →
    let n := Config.ringN s.cfg sel
    let r := s.ring sel
    let t := rbPush sel b s
    let r' := t.ring sel
    (r.count < n → r'.live n = r.live n ++ [b] ∧
      r'.past n = if n < r.count + 1 + r.hist then (r.past n).tail else r.past n) ∧
    (r.count = n → r'.live n = (r.live n).tail ++ [b] ∧ r'.past n = []) ∧
    memRead r'.store r.head = b ∧ (∀ a, a ≠ r.head → memRead r'.store a = memRead r.store a) ∧
    r'.head = (r.head + 1) % n ∧ r'.tail = (if r.count = n then (r.tail + 1) % n else r.tail) ∧
    r'.count = (if r.count = n then r.count else r.count + 1) ∧ r'.hist = min r.hist (n - r'.count) ∧
    t.status = (if r.count = n then s.status ||| (match sel with | .rx => 1 | .rsp => 2) else s.status) ∧
    t = { s with
      rx := match sel with | .rx => t.rx | .rsp => s.rx
      rsp := match sel with | .rx => s.rsp | .rsp => t.rsp
      status := t.status }

/-- `rb_pop` (R141) in list form and in index form: it has a byte exactly when the ring is not empty, the byte is the oldest unread one, it
goes to the history, and no slot changes. -/
def Obligations.RingPopTakesOldestByte : Prop :=
  ∀ (n : Nat) (r : Ring), RingInv n r →
    (r.count = 0 ↔ Ring.pop n r = none) ∧
    ∀ (b : Byte) (r' : Ring), Ring.pop n r = some (b, r') →
      r.live n = b :: r'.live n ∧ r'.past n = r.past n ++ [b] ∧ r'.store = r.store ∧ r'.head = r.head ∧
      r'.count + r'.hist = r.count + r.hist ∧ b = memRead r.store r.tail ∧
      r'.tail = (r.tail + 1) % n ∧ r'.count + 1 = r.count ∧ r'.hist = r.hist + 1

/-- `rb_rewind` (R143) in list form and in index form: it is refused exactly beyond the history, and else the `k` bytes most recently popped are unread
again, in their order. -/
def Obligations.RingRewindRestoresBytes : Prop :=
  ∀ (n k : Nat) (r : Ring), RingInv n r →
    (r.hist < k ↔ Ring.rewind n r k = none) ∧
    ∀ r' : Ring, Ring.rewind n r k = some r' →
      r'.live n = (r.past n).drop (r.hist - k) ++ r.live n ∧ r'.past n = (r.past n).take (r.hist - k) ∧
      r'.store = r.store ∧ r'.head = r.head ∧ (r'.tail + k) % n = r.tail ∧ r'.tail < n ∧
      r'.count = r.count + k ∧ r'.hist + k = r.hist ∧ (k = 0 → r' = r)

/-- The ring invariants I1 to I4 hold of an empty ring and are kept by push, pop and rewind (R23). The canonical form
of the store, kept with them, is the model's own (log entry 4). -/
def Obligations.RingOperationsKeepRingInvariant : Prop :=
  ∀ n : Nat, 1 ≤ n →
    RingInv n Ring.init ∧
    ∀ r : Ring, RingInv n r →
      (r.count = 0 → r.head = r.tail) ∧
      (∀ b, RingInv n (Ring.push n r b)) ∧
      (∀ b r', Ring.pop n r = some (b, r') → RingInv n r') ∧
      ∀ k r', Ring.rewind n r k = some r' → RingInv n r'

/-- The overrun law R145: after `M` pushes onto an empty ring the last `min(M, N)` bytes are there, and popping gives exactly them. In
general a push onto a full ring loses exactly the oldest unread byte. -/
def Obligations.OverrunKeepsLastBytes : Prop :=
  (∀ (n : Nat) (r : Ring) (b : Byte), RingInv n r → r.count = n → (Ring.push n r b).live n = (r.live n).drop 1 ++ [b]) ∧
  ∀ (n : Nat) (r : Ring) (bytes : List Byte), RingInv n r → r.count = 0 →
    let r' := bytes.foldl (fun x b => Ring.push n x b) r
    r'.live n = bytes.drop (bytes.length - n) ∧
    popAll n r'.count r' = bytes.drop (bytes.length - n)

/-! ### The matcher -/

/-- `sm_feed` by cases (R160): the next byte of the pattern moves the cursor on, or completes the match and resets it; any other byte
is compared once with the first byte of the pattern, and with nothing else. And its properties (R161), for bytes fed from the cursor 0 on:
the cursor's range, what a live cursor means, no false match, the cursor after a match, and patterns of length 1. -/
def Obligations.MatcherReportsNoFalseMatch : Prop :=
  (∀ (pat : List Byte) (cur : Nat) (b : Byte), cur < pat.length →
    (pat[cur]? = some b → cur + 1 = pat.length → smFeed pat cur b = (0, true)) ∧
    (pat[cur]? = some b → cur + 1 ≠ pat.length → smFeed pat cur b = (cur + 1, false)) ∧
    (pat[cur]? ≠ some b → 0 < cur → pat[0]? = some b → smFeed pat cur b = (1, false)) ∧
    (pat[cur]? ≠ some b → cur = 0 ∨ pat[0]? ≠ some b → smFeed pat cur b = (0, false))) ∧
  ∀ (pat bytes : List Byte) (b : Byte), pat ≠ [] →
    let c := feedFrom pat 0 bytes
    c < pat.length ∧
    bytes.drop (bytes.length - c) = pat.take c ∧ c ≤ bytes.length ∧
    ((smFeed pat c b).2 = true → pat <:+ bytes ++ [b] ∧ (smFeed pat c b).1 = 0) ∧
    (pat.length = 1 → c = 0 ∧ ((smFeed pat c b).2 = true ↔ pat[0]? = some b))

/-- No match is missed for a pattern whose first byte occurs nowhere else in it, and the misses of the others are kept: `AAB` fed `AAAB`
and `ABAC` fed `ABABAC` do not match (R162). -/
def Obligations.MatcherMissesNothingOfDistinctStart : Prop :=
  (smFeed [0x41, 0x41, 0x42] (feedFrom [0x41, 0x41, 0x42] 0 [0x41, 0x41, 0x41]) 0x42).2 = false ∧
  (smFeed [0x41, 0x42, 0x41, 0x43] (feedFrom [0x41, 0x42, 0x41, 0x43] 0 [0x41, 0x42, 0x41, 0x42, 0x41]) 0x43).2 = false ∧
  ∀ (x : Byte) (pat bytes : List Byte) (b : Byte), x ∉ pat →
    ((smFeed (x :: pat) (feedFrom (x :: pat) 0 bytes) b).2 = true ↔ (x :: pat) <:+ bytes ++ [b])

/-! ### Client operations: issue and completion -/

/-- `RB.PUSH` (R147) stores the byte at the head of the ring it names, sets the ring's flag if it was full, and answers OK with 0. -/
def Obligations.RbPushStoresByteAndAnswersOk : Prop :=
  decode (.request 0x01010041 []) = some (.rbPush .rsp 0x41) ∧
  ∀ (sel : RingSel) (b : Byte) (s : State), Ready s → Memory.wf (s.ring sel).store = true →
    ∃ t, exec (.rbPush sel b) s = .next t ∧ t.ports = delivered s s.cur 0x00000000 [] ∧
      memRead (t.ring sel).store (s.ring sel).head = b ∧
      (∀ a, a ≠ (s.ring sel).head → memRead (t.ring sel).store a = memRead (s.ring sel).store a) ∧
      (t.ring sel).head = ((s.ring sel).head + 1) % Config.ringN s.cfg sel ∧
      (t.ring sel).tail = (if (s.ring sel).count = Config.ringN s.cfg sel
        then ((s.ring sel).tail + 1) % Config.ringN s.cfg sel else (s.ring sel).tail) ∧
      (t.ring sel).count = (if (s.ring sel).count = Config.ringN s.cfg sel
        then (s.ring sel).count else (s.ring sel).count + 1) ∧
      (t.ring sel).hist = min (s.ring sel).hist (Config.ringN s.cfg sel - (t.ring sel).count) ∧
      t = { s with
        rx := match sel with | .rx => t.rx | .rsp => s.rx
        rsp := match sel with | .rx => s.rsp | .rsp => t.rsp
        status := if (s.ring sel).count = Config.ringN s.cfg sel
          then s.status ||| (match sel with | .rx => 1 | .rsp => 2) else s.status
        ports := t.ports }

/-- `RB.POP` (R148): EMPTY with the sentinel and no other change on an empty ring, else OK with the byte at `tail`; no slot changes. -/
def Obligations.RbPopAnswersByteOrEmpty : Prop :=
  decode (.request 0x02010000 []) = some (.rbPop .rsp) ∧
  ∀ (sel : RingSel) (s : State), Ready s →
    ((s.ring sel).count = 0 → exec (.rbPop sel) s = .next { s with ports := delivered s s.cur 0x3000FFFF [] }) ∧
    ((s.ring sel).count ≠ 0 → exec (.rbPop sel) s = .next { (s.setRing sel { (s.ring sel) with
        tail := ((s.ring sel).tail + 1) % Config.ringN s.cfg sel
        count := (s.ring sel).count - 1
        hist := (s.ring sel).hist + 1 }) with
      ports := delivered s s.cur ((memRead (s.ring sel).store (s.ring sel).tail).setWidth 32) [] })

/-- `RB.EMPTY` (R149) answers 1 exactly when the ring holds no byte, and changes no state. -/
def Obligations.RbEmptyAnswersCountIsZero : Prop :=
  decode (.request 0x03000000 []) = some (.rbEmpty .rx) ∧
  ∀ (sel : RingSel) (s : State), Ready s →
    exec (.rbEmpty sel) s =
      .next { s with ports := delivered s s.cur (if (s.ring sel).count = 0 then 0x00000001 else 0x00000000) [] }

/-- `RB.REWIND` (R150): within the history it moves `tail` back by `k` modulo the capacity and answers OK with `k`; beyond it RANGE. -/
def Obligations.RbRewindMovesTailBack : Prop :=
  decode (.request 0x04010002 []) = some (.rbRewind .rsp 2) ∧
  ∀ (sel : RingSel) (k : Half) (s : State), Ready s → RingInv (Config.ringN s.cfg sel) (s.ring sel) →
    ((s.ring sel).hist < k.toNat →
      exec (.rbRewind sel k) s = .next { s with ports := delivered s s.cur 0x4000FFFF [] }) ∧
    (k.toNat ≤ (s.ring sel).hist → exec (.rbRewind sel k) s = .next { (s.setRing sel { (s.ring sel) with
        tail := if k.toNat ≤ (s.ring sel).tail then (s.ring sel).tail - k.toNat
          else (s.ring sel).tail + Config.ringN s.cfg sel - k.toNat
        count := (s.ring sel).count + k.toNat
        hist := (s.ring sel).hist - k.toNat }) with
      ports := delivered s s.cur (k.setWidth 32) [] })

/-- The operations that wait are issued by storing their record, the timer loaded with TIMEOUT + 1 (R151, R218, R263). -/
def Obligations.RbGetcAndPqRecvRecordTheirWait : Prop :=
  ∀ s : State, Ready s →
    (∀ sel : RingSel, exec (.rbGetc sel) s =
      .next { s with ports := recorded s s.cur (.getc sel (s.timeout.toNat + 1)) }) ∧
    ∀ (cid : BitVec 4) (amount : Half), exec (.pqRecv cid amount) s =
      .next { s with ports := recorded s s.cur (.pqrecv cid amount.toNat (s.timeout.toNat + 1)) }

/-- `SM.LOAD` (R163) of a pattern in range replaces the port's pattern, sets its cursor to 0 and answers OK with the length; an empty or
over-long pattern answers RANGE and changes nothing else. -/
def Obligations.SmLoadReplacesPattern : Prop :=
  decode (.request 0x10020000 [0x41, 0x42]) = some (.smLoad [0x41, 0x42]) ∧
  ∀ (pat : List Byte) (s : State), Ready s →
    (1 ≤ pat.length → pat.length ≤ s.cfg.pmax →
      exec (.smLoad pat) s = .next { s with ports := s.ports.modify s.cur fun o =>
        { op := .idle, em := { pat := pat, cur := 0 },
          resps := o.resps ++ [{ res := 0x0000#16 ++ BitVec.ofNat 16 pat.length, data := [] }] } }) ∧
    (pat.length = 0 ∨ s.cfg.pmax < pat.length →
      exec (.smLoad pat) s = .next { s with ports := delivered s s.cur 0x4000FFFF [] })

/-- `SM.FEED` (R164) with a pattern loaded stores the new cursor of `sm_feed` and answers 1 on a match, else 0; with none it answers RANGE; rings
are not touched. -/
def Obligations.SmFeedStoresCursorAndAnswersMatch : Prop :=
  decode (.request 0x11000041 []) = some (.smFeed 0x41) ∧
  ∀ (b : Byte) (s : State), Ready s →
    ((s.port s.cur).em.pat ≠ [] →
      exec (.smFeed b) s = .next { s with ports := s.ports.modify s.cur fun o =>
        { op := .idle,
          em := { pat := (s.port s.cur).em.pat, cur := (smFeed (s.port s.cur).em.pat (s.port s.cur).em.cur b).1 },
          resps := o.resps ++ [{ res := (if (smFeed (s.port s.cur).em.pat (s.port s.cur).em.cur b).2 then 1 else 0), data := [] }] } }) ∧
    ((s.port s.cur).em.pat = [] → exec (.smFeed b) s = .next { s with ports := delivered s s.cur 0x4000FFFF [] })

/-- `CH.SEND` and `BD.SEND` are issued by storing the string to emit, waiting for the lock (R191, R220); the frame of `BD.SEND` is the
marker, the id's digit, four decimal digits and the payload (R110, R112, R113). -/
def Obligations.SendsRecordStringAwaitingLock : Prop :=
  ∀ s : State, Ready s →
    (∀ str : List Byte, exec (.chSend str) s = .next { s with ports := recorded s s.cur (.send str 0 .lock false 0) }) ∧
    ∀ (cid : BitVec 4) (data : List Byte), data.length ≤ 9999 →
      exec (.bdSend cid data) s = .next { s with
        ports := recorded s s.cur (.send ([0x1B, 0x5A,
            BitVec.ofNat 8 (if cid.toNat ≤ 9 then 0x30 + cid.toNat else 0x61 + cid.toNat - 10),
            BitVec.ofNat 8 (0x30 + data.length / 1000), BitVec.ofNat 8 (0x30 + data.length / 100 % 10),
            BitVec.ofNat 8 (0x30 + data.length / 10 % 10), BitVec.ofNat 8 (0x30 + data.length % 10)] ++ data)
          0 .lock true data.length) }

/-- `CH.RECV` and `CH.READTILL` of a pattern in range load the port's matcher and store their record with the timer TIMEOUT + 1; `CH.READTILL`
with limit 0 completes at once with OK and no data (R194, R195). -/
def Obligations.ReceivesLoadMatcherAndTimer : Prop :=
  ∀ (s : State) (pat : List Byte), Ready s → 1 ≤ pat.length → pat.length ≤ s.cfg.pmax →
    exec (.chRecv pat) s = .next { s with ports := s.ports.modify s.cur fun o =>
      { op := .recv (s.timeout.toNat + 1), em := { pat := pat, cur := 0 }, resps := o.resps } } ∧
    exec (.chReadtill 0 pat) s = .next { s with ports := s.ports.modify s.cur fun o =>
      { op := .idle, em := { pat := pat, cur := 0 }, resps := o.resps ++ [{ res := 0, data := [] }] } } ∧
    ∀ limit : Half, limit ≠ 0 →
      exec (.chReadtill limit pat) s = .next { s with ports := s.ports.modify s.cur fun o =>
        { op := .readtill limit.toNat [] (s.timeout.toNat + 1), em := { pat := pat, cur := 0 }, resps := o.resps } }

/-- `CH.SETTO` (R196): TIMEOUT takes any 16-bit value, the answer is OK with it, timers already loaded stay, and nothing else changes. -/
def Obligations.ChSettoWritesTimeout : Prop :=
  decode (.request 0x23001388 []) = some (.chSetto 5000) ∧
  ∀ (ms : Half) (s : State), Ready s →
    exec (.chSetto ms) s = .next { s with timeout := ms, ports := delivered s s.cur (ms.setWidth 32) [] }

/-- `PQ.FLUSH` (R221) empties the one queue, answers OK with the number of packets it held, and leaves every other queue and a frame in
assembly as they were. -/
def Obligations.PqFlushEmptiesOneQueue : Prop :=
  decode (.request 0x32050000 []) = some (.pqFlush 5) ∧
  ∀ (cid : BitVec 4) (s : State), Ready s →
    ∃ t, exec (.pqFlush cid) s = .next t ∧ t.queue cid = [] ∧ (∀ c, c ≠ cid → t.queue c = s.queue c) ∧
      t = { s with q := t.q, ports := delivered s s.cur (0x0000#16 ++ BitVec.ofNat 16 (s.queue cid).length) [] }

/-- `SYS.RDSTAT` (R240) answers OK with STATUS and clears nothing; `SYS.RDEVT` (R241) answers OK with EVENTS and clears it in the same
step, so that a second one answers 0. -/
def Obligations.StatusAndEventReads : Prop :=
  decode (.request 0x40000000 []) = some .sysRdstat ∧ decode (.request 0x41000000 []) = some .sysRdevt ∧
  ∀ s : State, Ready s →
    exec .sysRdstat s = .next { s with ports := delivered s s.cur (s.status.setWidth 32) [] } ∧
    exec .sysRdevt s = .next { s with events := 0, ports := delivered s s.cur (s.events.setWidth 32) [] } ∧
    ∀ t, exec .sysRdevt s = .next t → ∃ u, exec .sysRdevt t = .next u ∧ u.ports = delivered t s.cur 0 []

/-- A wire format that arrives is pushed onto the RX ring byte by byte, in order (R110, R111, R122, R146): RX_OVF is set iff one of
these pushes finds the ring full, with room for all nothing is lost, and nothing but the RX ring and its flag ever changes. That its bytes arrive without another step between them is the
model's choice (log entry 8). -/
def Obligations.WireFormatsArriveInOrder : Prop :=
  ∀ (s : State) (i : Instr) (bytes : List Byte),
    (i = .wireDataAccepted ∧ bytes = [0x1B, 0x4F] ∨
      ∃ c d3 d2 d1 d0 payload, i = .wireBulkFrame c d3 d2 d1 d0 payload ∧
        bytes = [0x1B, 0x5A, c, d3, d2, d1, d0] ++ payload) →
    ∃ t, exec i s = .next t ∧ t = { s with rx := t.rx, status := t.status } ∧
      t.rx = bytes.foldl (fun r b => Ring.push s.cfg.rxN r b) s.rx ∧
      ((∃ k, k < bytes.length ∧ ((bytes.take k).foldl (fun r b => Ring.push s.cfg.rxN r b) s.rx).count = s.cfg.rxN) →
        t.status = s.status ||| 1) ∧
      ((∀ k, k < bytes.length → ((bytes.take k).foldl (fun r b => Ring.push s.cfg.rxN r b) s.rx).count ≠ s.cfg.rxN) →
        t.status = s.status) ∧
      (RingInv s.cfg.rxN s.rx → s.rx.count + bytes.length ≤ s.cfg.rxN →
        t.rx.live s.cfg.rxN = s.rx.live s.cfg.rxN ++ bytes ∧ t.status = s.status)

/-! ### Client operations: progress -/

/-- The progress step of `RB.GETC` (R144, R151): a byte present is returned even if the timer has run out, an empty ring with timer 0
times out, and else the port is blocked. -/
def Obligations.GetcPrefersDataToTimeout : Prop :=
  ∀ (s : State) (p : Nat) (accept : Bool) (rest : List Action) (sel : RingSel) (t : Nat),
    s.script = .cli p accept :: rest → (s.port p).op = .getc sel t →
    ((s.ring sel).count ≠ 0 → step s = .next { (s.setRing sel { (s.ring sel) with
        tail := ((s.ring sel).tail + 1) % Config.ringN s.cfg sel
        count := (s.ring sel).count - 1
        hist := (s.ring sel).hist + 1 }) with
      script := rest
      ports := delivered s p ((memRead (s.ring sel).store (s.ring sel).tail).setWidth 32) [] }) ∧
    ((s.ring sel).count = 0 → t = 0 → step s = .next { s with script := rest, ports := delivered s p 0x1000FFFF [] }) ∧
    ((s.ring sel).count = 0 → t ≠ 0 → step s = .next { s with script := rest })

/-- The lock step (R193): it needs a free lock and takes it; while another port holds the lock the port is blocked. -/
def Obligations.LockStepNeedsFreeLock : Prop :=
  ∀ (s : State) (p : Nat) (accept : Bool) (rest : List Action) (str : List Byte) (i : Nat) (bulk : Bool) (n : Nat),
    s.script = .cli p accept :: rest → (s.port p).op = .send str i .lock bulk n →
    (s.txOwner = none → step s = .next { s with
      script := rest, txOwner := some p, ports := recorded s p (.send str i .emit bulk n) }) ∧
    (s.txOwner ≠ none → step s = .next { s with script := rest })

/-- The emit step (R191, R192, R220): an accepted byte is appended to the log, a refused one ends the operation with FAIL, and after the
last byte the lock is released and `CH.SEND` answers OK with the length, while `BD.SEND` goes on to wait for `1B 4F`. -/
def Obligations.EmitStepSendsOneByte : Prop :=
  ∀ (s : State) (p : Nat) (accept : Bool) (rest : List Action) (str : List Byte) (i : Nat) (bulk : Bool) (n : Nat),
    s.script = .cli p accept :: rest → (s.port p).op = .send str i .emit bulk n →
    (∀ b, str[i]? = some b → accept = true → step s = .next { s with
      script := rest, txLog := s.txLog ++ [b], ports := recorded s p (.send str (i + 1) .emit bulk n) }) ∧
    (i < str.length → accept = false → step s = .next { s with
      script := rest, txOwner := none
      ports := delivered s p (0x2000#16 ++ (if bulk then 0xFFFF else BitVec.ofNat 16 i)) [] }) ∧
    (i = str.length → bulk = false → step s = .next { s with
      script := rest, txOwner := none, ports := delivered s p (0x0000#16 ++ BitVec.ofNat 16 str.length) [] }) ∧
    (i = str.length → bulk = true → step s = .next { s with
      script := rest, txOwner := none
      ports := s.ports.modify p fun o =>
        { op := .tokwait n (s.timeout.toNat + 1), em := { pat := [0x1B, 0x4F], cur := 0 }, resps := o.resps } })

/-- A `CH.SEND` whose bytes are all accepted (R191, R310): the issue step, the lock step, one step per byte and the closing step put its
bytes on the log in order and answer OK with their number, the lock free again. -/
def Obligations.ChSendEmitsWholeString : Prop :=
  ∀ (s : State) (str : List Byte), Ready s → s.txOwner = none →
    ∃ t, exec (.chSend str) s = .next t ∧
      performAll (List.replicate (str.length + 2) (.cli s.cur true)) t =
        { s with txLog := s.txLog ++ str, ports := delivered s s.cur (0x0000#16 ++ BitVec.ofNat 16 str.length) [] }

/-- The progress steps of `CH.RECV` and of the token wait of `BD.SEND` (R194, R197, R220): an expired timer wins over data; else one byte is
pulled and fed to the port's matcher, and a match completes the operation. -/
def Obligations.RecvPullsOneByteUntilMatch : Prop :=
  ∀ (s : State) (p : Nat) (accept : Bool) (rest : List Action) (t : Nat) (onTimeout onMatch : Word),
    s.script = .cli p accept :: rest →
    ((s.port p).op = .recv t ∧ onTimeout = 0x10000000 ∧ onMatch = 0x00000001 ∨
      ∃ n, (s.port p).op = .tokwait n t ∧ onTimeout = 0x1000FFFF ∧ onMatch = 0x0000#16 ++ BitVec.ofNat 16 n) →
    (t = 0 → step s = .next { s with script := rest, ports := delivered s p onTimeout [] }) ∧
    (t ≠ 0 → s.rsp.count = 0 → step s = .next { s with script := rest }) ∧
    (t ≠ 0 → s.rsp.count ≠ 0 →
      let b := memRead s.rsp.store s.rsp.tail
      let fed := smFeed (s.port p).em.pat (s.port p).em.cur b
      step s = .next { s with
        script := rest
        rsp := { s.rsp with tail := (s.rsp.tail + 1) % s.cfg.rspN, count := s.rsp.count - 1, hist := s.rsp.hist + 1 }
        ports := s.ports.modify p fun o =>
          { op := if fed.2 then .idle else o.op
            em := { o.em with cur := fed.1 }
            resps := if fed.2 then o.resps ++ [{ res := onMatch, data := [] }] else o.resps } })

/-- The progress step of `CH.READTILL` (R195): expiry, then the delimiter, which is trimmed, then the limit. -/
def Obligations.ReadtillTrimsDelimiterBeforeLimit : Prop :=
  ∀ (s : State) (p : Nat) (accept : Bool) (rest : List Action) (limit : Nat) (out : List Byte) (t : Nat),
    s.script = .cli p accept :: rest → (s.port p).op = .readtill limit out t →
    (t = 0 → step s = .next { s with script := rest, ports := delivered s p 0x1000FFFF [] }) ∧
    (t ≠ 0 → s.rsp.count = 0 → step s = .next { s with script := rest }) ∧
    (t ≠ 0 → s.rsp.count ≠ 0 →
      let b := memRead s.rsp.store s.rsp.tail
      let fed := smFeed (s.port p).em.pat (s.port p).em.cur b
      let v := out.length + 1 - (s.port p).em.pat.length
      step s = .next { s with
        script := rest
        rsp := { s.rsp with tail := (s.rsp.tail + 1) % s.cfg.rspN, count := s.rsp.count - 1, hist := s.rsp.hist + 1 }
        ports := s.ports.modify p fun o =>
          if fed.2 then
            { op := .idle, em := { o.em with cur := fed.1 },
              resps := o.resps ++ [{ res := 0x0000#16 ++ BitVec.ofNat 16 v, data := (out ++ [b]).take v }] }
          else if out.length + 1 = limit then
            { op := .idle, em := { o.em with cur := fed.1 },
              resps := o.resps ++ [{ res := 0x0000#16 ++ BitVec.ofNat 16 limit, data := out ++ [b] }] }
          else
            { op := .readtill limit (out ++ [b]) t, em := { o.em with cur := fed.1 }, resps := o.resps } })

/-- The progress step of `PQ.RECV` (R218): a packet present is taken before the timer is looked at; a packet that fits is destroyed, a longer one
is shortened and stays at the head of its queue. -/
def Obligations.PqRecvConsumesHeadPacket : Prop :=
  ∀ (s : State) (p : Nat) (accept : Bool) (rest : List Action) (cid : BitVec 4) (amount t : Nat),
    s.script = .cli p accept :: rest → (s.port p).op = .pqrecv cid amount t →
    (s.queue cid = [] → t = 0 → step s = .next { s with script := rest, ports := delivered s p 0x1000FFFF [] }) ∧
    (s.queue cid = [] → t ≠ 0 → step s = .next { s with script := rest }) ∧
    ∀ (pkt : Packet) (tail : List Packet), s.queue cid = pkt :: tail →
      ∃ u, step s = .next u ∧ (∀ c, c ≠ cid → u.queue c = s.queue c) ∧
        u.queue cid = (if pkt.len ≤ amount then tail
          else { pkt with off := pkt.off + amount, len := pkt.len - amount } :: tail) ∧
        u = { s with
          script := rest
          q := u.q
          ports := delivered s p (0x0000#16 ++ BitVec.ofNat 16 (min pkt.len amount))
            ((pkt.data.drop pkt.off).take (min pkt.len amount)) }

/-- The law of partial consumption R219 (a), per step: what a `PQ.RECV` returns followed by what is left in the queue is what was in the queue,
and a put adds its payload at the end; so no byte is duplicated, skipped or reordered. -/
def Obligations.PqRecvLosesNoByte : Prop :=
  ∀ s : State, QueueInv s →
    (∀ (p : Nat) (accept : Bool) (rest : List Action) (cid : BitVec 4) (amount t : Nat),
      s.script = .cli p accept :: rest → (s.port p).op = .pqrecv cid amount t → s.queue cid ≠ [] →
      ∃ u r, step s = .next u ∧ (u.port p).resps = (s.port p).resps ++ [r] ∧
        r.data ++ queueBytes (u.queue cid) = queueBytes (s.queue cid) ∧ r.data.length ≤ amount) ∧
    ∀ rest : List Action, s.script = .disp :: rest → s.disp.phase = .putWait → s.disp.fBuf.length = s.disp.fLen →
      (s.queue s.disp.fCid).length < 5 →
      ∃ u, step s = .next u ∧ queueBytes (u.queue s.disp.fCid) = queueBytes (s.queue s.disp.fCid) ++ s.disp.fBuf

/-! ### The dispatcher -/

/-- `DISP.SCAN` (R171, R174 to R178): the held bytes and the scanned byte split into bytes released to RSP, oldest first, and bytes kept. If some
pattern completes, the least such index wins, the kept bytes are exactly its pattern and are consumed, every cursor is 0, and its
handler alone is invoked; else the kept bytes, as many as the greatest cursor, are held. RSP_OVF is set iff a release finds RSP full. -/
def Obligations.ScanRoutesEveryByte : Prop :=
  ∀ (s : State) (rest : List Action), Inv s → s.script = .disp :: rest → s.disp.phase = .scan → s.rx.count ≠ 0 →
    let b := memRead s.rx.store s.rx.tail
    let fed := fun (j : Nat) => smFeed ((s.cfg.reg[j]?.map Registration.pat).getD []) ((s.mcur[j]?).getD 0) b
    ∃ (u : State) (rel kept : List Byte), step s = .next u ∧ s.disp.hold ++ [b] = rel ++ kept ∧
      u.rsp = rel.foldl (fun r x => Ring.push s.cfg.rspN r x) s.rsp ∧
      u.rx = { s.rx with tail := (s.rx.tail + 1) % s.cfg.rxN, count := s.rx.count - 1, hist := s.rx.hist + 1 } ∧
      u = { s with script := rest, rx := u.rx, rsp := u.rsp, mcur := u.mcur, disp := u.disp, events := u.events, status := u.status } ∧
      ((∃ k, k < rel.length ∧ ((rel.take k).foldl (fun r x => Ring.push s.cfg.rspN r x) s.rsp).count = s.cfg.rspN) →
        u.status = s.status ||| 2) ∧
      ((∀ k, k < rel.length → ((rel.take k).foldl (fun r x => Ring.push s.cfg.rspN r x) s.rsp).count ≠ s.cfg.rspN) →
        u.status = s.status) ∧
      ((∃ (w : Nat) (r : Registration), s.cfg.reg[w]? = some r ∧ (fed w).2 = true ∧
          (∀ j, j < w → (fed j).2 = false) ∧ kept = r.pat ∧ u.mcur = List.replicate s.cfg.reg.length 0 ∧
          (r.handler = .event → u.disp = { s.disp with hold := [] } ∧ u.events = s.events ||| BitVec.twoPow 16 w) ∧
          (r.handler = .bulk → u.events = s.events ∧ u.disp = { s.disp with
            hold := [], fHdr := [], fBuf := [], t := s.timeout.toNat + 1, phase := .hdr })) ∨
        ((∀ j, j < s.cfg.reg.length → (fed j).2 = false) ∧ u.mcur = (List.range s.cfg.reg.length).map (fun j => (fed j).1) ∧
          kept.length = u.mcur.foldr max 0 ∧ u.events = s.events ∧ u.disp = { s.disp with hold := kept }))

/-- The dispatcher asleep (R172, R215): with no byte in RX it has no step in phase SCAN, and in phase PUT_WAIT it has none while the queue is
full, whatever arrives. -/
def Obligations.BlockedDispatcherTakesNoStep : Prop :=
  ∀ (s : State) (rest : List Action), s.script = .disp :: rest →
    (s.disp.phase = .scan ∧ s.rx.count = 0 ∨
      s.disp.phase = .putWait ∧ (s.queue s.disp.fCid).length = 5 ∨
      (s.disp.phase = .hdr ∨ s.disp.phase = .payload) ∧ s.rx.count = 0 ∧ s.disp.t ≠ 0) →
    step s = .next { s with script := rest }

/-- `DISP.HDR` with a byte in RX (R213, R217): it is appended and the timer reloaded; the fifth byte is judged with the other four. A header is
valid iff it is one hexadecimal digit, of either case, and four decimal digits whose value is at most PKT_MAX; the digits' ranges and
values (R12) stand in numbers. -/
def Obligations.HeaderBytesAreReadThenJudged : Prop :=
  ∀ (s : State) (rest : List Action), s.script = .disp :: rest → s.disp.phase = .hdr → s.rx.count ≠ 0 →
    let hdr := s.disp.fHdr ++ [memRead s.rx.store s.rx.tail]
    let d : Disp := { s.disp with fHdr := hdr, t := s.timeout.toNat + 1 }
    let popped : State := { s with
      script := rest
      rx := { s.rx with tail := (s.rx.tail + 1) % s.cfg.rxN, count := s.rx.count - 1, hist := s.rx.hist + 1 } }
    (hdr.length < 5 → step s = .next { popped with disp := d }) ∧
    ∀ c d3 d2 d1 d0 : Byte, hdr = [c, d3, d2, d1, d0] →
      let hex : Prop := 0x30 ≤ c.toNat ∧ c.toNat ≤ 0x39 ∨ 0x41 ≤ c.toNat ∧ c.toNat ≤ 0x46 ∨ 0x61 ≤ c.toNat ∧ c.toNat ≤ 0x66
      let dec : Prop := ∀ x ∈ [d3, d2, d1, d0], 0x30 ≤ x.toNat ∧ x.toNat ≤ 0x39
      let len := 1000 * (d3.toNat - 0x30) + 100 * (d2.toNat - 0x30) + 10 * (d1.toNat - 0x30) + (d0.toNat - 0x30)
      let cid : BitVec 4 := BitVec.ofNat 4
        (if c.toNat ≤ 0x39 then c.toNat - 0x30 else if c.toNat ≤ 0x46 then c.toNat - 0x37 else c.toNat - 0x57)
      let d' : Disp := { d with fCid := cid, fLen := len, fBuf := [] }
      (hex ∧ dec ∧ len ≤ s.cfg.pktMax →
        (len ≠ 0 → step s = .next { popped with disp := { d' with phase := .payload } }) ∧
        (len = 0 → step s = .next { popped with
          disp := { d' with phase := .putWait }
          status := if (s.queue cid).length = 5 then s.status ||| 16 else s.status })) ∧
      (¬ (hex ∧ dec ∧ len ≤ s.cfg.pktMax) →
        step s = .next { popped with disp := { d with phase := .scan }, status := s.status ||| 4 })

/-- `DISP.PAYLOAD` with a byte in RX (R214): it is appended and the timer reloaded; with the last byte the packet waits to be put, PQ_STALL set if its
queue is full. -/
def Obligations.PayloadBytesAreCollected : Prop :=
  ∀ (s : State) (rest : List Action), s.script = .disp :: rest → s.disp.phase = .payload → s.rx.count ≠ 0 →
    let buf := s.disp.fBuf ++ [memRead s.rx.store s.rx.tail]
    let d : Disp := { s.disp with fBuf := buf, t := s.timeout.toNat + 1 }
    let popped : State := { s with
      script := rest
      rx := { s.rx with tail := (s.rx.tail + 1) % s.cfg.rxN, count := s.rx.count - 1, hist := s.rx.hist + 1 } }
    (buf.length ≠ s.disp.fLen → step s = .next { popped with disp := d }) ∧
    (buf.length = s.disp.fLen → step s = .next { popped with
      disp := { d with phase := .putWait }
      status := if (s.queue s.disp.fCid).length = 5 then s.status ||| 16 else s.status })

/-- `frame_abort()` (R216): a header or payload read whose timer has run out with RX empty sets FRAME_SHORT, clears the frame's bytes and goes back to
phase SCAN; nothing is enqueued. -/
def Obligations.ShortReadAbandonsFrame : Prop :=
  ∀ (s : State) (rest : List Action), s.script = .disp :: rest → (s.disp.phase = .hdr ∨ s.disp.phase = .payload) →
    s.rx.count = 0 → s.disp.t = 0 →
    step s = .next { s with
      script := rest, status := s.status ||| 8
      disp := { s.disp with fHdr := [], fBuf := [], phase := .scan } }

/-- `DISP.PUT` (R215): with room in its queue the packet is put at the tail, complete and unread, and the handler returns; while the queue is
full the dispatcher has no step. -/
def Obligations.PutAppendsUnreadPacket : Prop :=
  ∀ (s : State) (rest : List Action), s.script = .disp :: rest → s.disp.phase = .putWait →
    ((s.queue s.disp.fCid).length = 5 → step s = .next { s with script := rest }) ∧
    ((s.queue s.disp.fCid).length < 5 → ∃ u, step s = .next u ∧
      u.queue s.disp.fCid = s.queue s.disp.fCid ++
        [{ cid := s.disp.fCid, data := s.disp.fBuf, off := 0, len := s.disp.fLen }] ∧
      (∀ c, c ≠ s.disp.fCid → u.queue c = s.queue c) ∧
      u = { s with script := rest, q := u.q, disp := { s.disp with fHdr := [], fBuf := [], phase := .scan } })

/-- End to end (R223): a valid frame delivered to a dispatcher that is scanning with an empty hold window and an empty RX ring, under the
reference registration and with room in the RX ring and in the queue, is a packet on its connection's queue after two scan steps, five
header steps, one step per payload byte and one put. The dispatcher is scanning again with an empty window, RX is empty, and nothing
but the RX ring, the dispatcher's registers and that queue has changed. That the frame arrives before the dispatcher steps is this
statement's case, not the rule's. -/
def Obligations.FrameBecomesPacketEndToEnd : Prop :=
  ∀ (s : State) (c d3 d2 d1 d0 : Byte) (payload : List Byte) (cid : BitVec 4),
    Inv s → s.cfg.reg = [{ pat := [0x1B, 0x5A], handler := .bulk }] → s.disp.phase = .scan → s.disp.hold = [] →
    s.rx.count = 0 → payload.length + 7 ≤ s.cfg.rxN →
    headerRead s.cfg.pktMax [c, d3, d2, d1, d0] = some (cid, payload.length) → (s.queue cid).length < 5 →
    let t := performAll (.rx ([0x1B, 0x5A, c, d3, d2, d1, d0] ++ payload) :: List.replicate (payload.length + 8) .disp) s
    t.queue cid = s.queue cid ++ [{ cid := cid, data := payload, off := 0, len := payload.length }] ∧
    (∀ c', c' ≠ cid → t.queue c' = s.queue c') ∧
    t.disp.phase = .scan ∧ t.disp.hold = [] ∧ t.rx.count = 0 ∧
    t = { s with rx := t.rx, disp := t.disp, q := t.q }

/-! ### Ticks, timers, reset -/

/-- `TICK` (R262): every active timer above 0 goes down by 1 and nothing else changes; the read timer counts in phases HDR and PAYLOAD only. -/
def Obligations.TickCountsActiveTimersDown : Prop :=
  ∀ (s : State) (rest : List Action), s.script = .tick :: rest →
    ∃ u, step s = .next u ∧ u = { s with script := rest, disp := { s.disp with t := u.disp.t }, ports := u.ports } ∧
      u.disp.t = (if (s.disp.phase = .hdr ∨ s.disp.phase = .payload) ∧ 0 < s.disp.t then s.disp.t - 1 else s.disp.t) ∧
      u.ports.length = s.ports.length ∧
      ∀ p, (u.port p).em = (s.port p).em ∧ (u.port p).resps = (s.port p).resps ∧
        (u.port p).op = (match (s.port p).op with
          | .getc sel t => .getc sel (if 0 < t then t - 1 else t)
          | .recv t => .recv (if 0 < t then t - 1 else t)
          | .readtill limit out t => .readtill limit out (if 0 < t then t - 1 else t)
          | .pqrecv cid amount t => .pqrecv cid amount (if 0 < t then t - 1 else t)
          | .tokwait n t => .tokwait n (if 0 < t then t - 1 else t)
          | op => op)

/-- A timer measures ticks (R263): while a `CH.RECV` stays in progress its timer is its first value less the number of ticks, so it is 0, and
the operation can time out, only after as many ticks as it was loaded with. -/
def Obligations.RecvTimerCountsEveryTick : Prop :=
  ∀ (acts : List Action) (s : State) (p t : Nat), (s.port p).op = .recv t →
    (∀ k, k ≤ acts.length → ∃ t', ((performAll (acts.take k) s).port p).op = .recv t') →
    ((performAll acts s).port p).op = .recv (t - (acts.filter fun a => a = .tick).length)

/-- Reset (R280, R50) from any state: the rings are empty with no history, every cursor is 0, the dispatcher scans with an empty window, the sixteen queues are
empty, TIMEOUT is 100, the flags are 0, the lock is free, the log is empty, every port is IDLE with an empty matcher, and the
parameters stay. -/
def Obligations.ResetRestoresEveryElement : Prop :=
  ∀ (s : State) (rest : List Action), s.script = .reset :: rest →
    ∃ u, step s = .next u ∧ u.cfg = s.cfg ∧
      (∀ sel, (u.ring sel).head = 0 ∧ (u.ring sel).tail = 0 ∧ (u.ring sel).count = 0 ∧ (u.ring sel).hist = 0) ∧
      u.mcur.length = s.cfg.reg.length ∧ (∀ c ∈ u.mcur, c = 0) ∧
      u.disp = { phase := .scan, hold := [], fHdr := [], fCid := 0, fLen := 0, fBuf := [], t := 0 } ∧
      (∀ c, u.queue c = []) ∧ u.timeout = 100 ∧ u.status = 0 ∧ u.events = 0 ∧ u.txOwner = none ∧ u.txLog = [] ∧
      u.ports.length = s.cfg.nport ∧ (∀ o ∈ u.ports, o.op = .idle ∧ o.em = { pat := [], cur := 0 })

/-! ### The whole machine -/

/-- The state after reset meets every invariant of `EveryStepKeepsInvariant`, the model's own among them (log entries 4, 5, 12). -/
def Obligations.ResetMeetsInvariant : Prop :=
  Inv State.reset ∧ ∀ cfg : Config, cfg.wf = true → ∀ (script : List Action) (clock : Nat), Inv (State.initial cfg script clock)

/-- Every step keeps every invariant of the spec's state: the rings (R23), the dispatcher (R26, R29 to R33), the packets and queues (R34 to R36), the ports (R43,
R45, R102), the TX lock (R41, R86, R193), and the bits that are never set (R46, R47). Three parts are the model's own: the canonical form
of the ring stores (log entry 4), the form of the responses a port has delivered, which it keeps in `resps` (log entry 5), and the bound max(PMAX, 2) on a
port's pattern, where R45 says PMAX (log entry 12). -/
def Obligations.EveryStepKeepsInvariant : Prop :=
  ∀ s t : State, Inv s → step s = .next t → Inv t

/-- The storage of both rings keeps its canonical form through every step, whatever else the state is. The form, slots rising and no entry
equal to the byte 0 that an unlisted slot reads as, is the model's own (log entry 4); the spec has arrays whose unwritten slots are never
read (R89). -/
def Obligations.EveryStepKeepsStoresCanonical : Prop :=
  ∀ s t : State, Memory.wf s.rx.store = true → Memory.wf s.rsp.store = true → step s = .next t →
    Memory.wf t.rx.store = true ∧ Memory.wf t.rsp.store = true

/-- The complete transition relation of `disp.phase` (R244). -/
def Obligations.PhaseTransitionsAreComplete : Prop :=
  ∀ s t : State, step s = .next t → t.disp.phase = s.disp.phase ∨ nextAction s = .reset ∧ t.disp.phase = .scan ∨
    nextAction s = .disp ∧
      (s.disp.phase = .scan ∧ t.disp.phase = .hdr ∨ s.disp.phase = .hdr ∧ t.disp.phase = .payload ∨
       s.disp.phase = .hdr ∧ t.disp.phase = .putWait ∨ s.disp.phase = .hdr ∧ t.disp.phase = .scan ∨
       s.disp.phase = .payload ∧ t.disp.phase = .putWait ∨ s.disp.phase = .payload ∧ t.disp.phase = .scan ∨
       s.disp.phase = .putWait ∧ t.disp.phase = .scan)

/-- The transitions of `port[p].op` (R44, R262), and no cancellation (R190): a port changes only by its own issue step, from IDLE to a
record just issued; by its own progress step, along an arrow of R44; by a tick, and then in its timer alone; or by reset, to IDLE. Any
other step leaves it alone (R265). The pattern of its matcher changes only at an issue, at BD.SEND's entry to TOKWAIT (R45, R220; that R87
does not name this one is log entry 18), and at reset. -/
def Obligations.PortsAreChangedOnlyByTheirOwnSteps : Prop :=
  ∀ (s t : State) (p : Nat), step s = .next t → t.port p = s.port p ∨
    (∃ cmd payload, nextAction s = .issue p cmd payload ∧ (s.port p).op = .idle ∧ IssuedOp (s.timeout.toNat + 1) (t.port p).op) ∨
    (∃ accept, nextAction s = .cli p accept ∧ ProgressArrow (s.timeout.toNat + 1) (s.port p).op (t.port p).op ∧
      ((t.port p).em.pat = (s.port p).em.pat ∨
        ∃ str i n timer, (s.port p).op = .send str i .emit true n ∧ (t.port p).op = .tokwait n timer)) ∨
    (nextAction s = .tick ∧ t.port p = { s.port p with op := tickOp (s.port p).op }) ∨
    (nextAction s = .reset ∧ (t.port p).op = .idle ∧ (t.port p).em = { pat := [], cur := 0 })

/-- The TX log grows only by a byte that the port holding the lock emits and the sink accepts (R42, R193): so the bytes of one string are
contiguous. -/
def Obligations.OnlyTheLockHolderEmits : Prop :=
  ∀ s t : State, LockInv s → step s = .next t → t.txLog = s.txLog ∨ nextAction s = .reset ∧ t.txLog = [] ∨
    ∃ (p : Nat) (b : Byte), nextAction s = .cli p true ∧ s.txOwner = some p ∧ t.txOwner = some p ∧ t.txLog = s.txLog ++ [b]

/-- The parameters never change (R51), and a STATUS flag once set stays set until reset (R47). -/
def Obligations.FlagsAreStickyAndParametersFixed : Prop :=
  ∀ s t : State, step s = .next t → t.cfg = s.cfg ∧
    (nextAction s ≠ .reset → ∀ i, s.status.getLsbD i = true → t.status.getLsbD i = true)

/-- The access rights R265 on the dispatcher's state: only its own steps and reset write the cursors, the hold window, the phase and the frame
registers, bits 2 to 4 of STATUS and set EVENTS bits; a tick counts its timer, and `SYS.RDEVT` on an IDLE port, and no other step, clears them. -/
def Obligations.OnlyTheDispatcherWritesItsState : Prop :=
  ∀ s t : State, step s = .next t → nextAction s ≠ .disp → nextAction s ≠ .reset →
    t.mcur = s.mcur ∧ t.disp = { s.disp with t := t.disp.t } ∧ (t.disp.t ≠ s.disp.t → nextAction s = .tick) ∧
    (∀ i, 2 ≤ i → t.status.getLsbD i = s.status.getLsbD i) ∧
    (t.events = s.events ∨ t.events = 0 ∧ ∃ p, nextAction s = .issue p 0x41000000 [] ∧ (s.port p).op = .idle)

/-- Every operation that waits under a timer ends (R306): in every weakly fair execution with infinitely many ticks, a port whose operation is
timed stays so up to some step, and that step either completes the operation, the port IDLE with one more response delivered, or is a
reset, which drops it (R280). Fairness is asked of the progress steps only (R303; log entry 19), the responses delivered stand in `resps`
(log entry 5). -/
def Obligations.TimedOperationsComplete : Prop :=
  ∀ (acts : Nat → Action) (run : Nat → State) (p n : Nat), FairRun acts run → timed ((run n).port p).op = true →
    ∃ m, n ≤ m ∧ (∀ k, n ≤ k → k ≤ m → timed ((run k).port p).op = true) ∧ ((run (m + 1)).port p).op = .idle ∧
      (acts m = .reset ∨
        ∃ r accept, acts m = .cli p accept ∧ ((run (m + 1)).port p).resps = ((run m).port p).resps ++ [r])

/-- A chain (R121, R198) is OK iff every operation of it was issued and answered OK, and an operation that did not answer OK is the last one issued. -/
def Obligations.ChainStopsAtFirstFailure : Prop :=
  ∀ (ops : List Instr) (rs : List Response),
    (chainOk ops rs = true ↔ ops.length ≤ rs.length ∧ ∀ r ∈ rs.take ops.length, r.isOk = true) ∧
    ((∃ r ∈ rs.take ops.length, r.isOk = false) → chainNext ops rs = none) ∧
    ∀ i, chainNext ops rs = some i ↔ ops[rs.length]? = some i ∧ ∀ r ∈ rs, r.isOk = true
end

