-- ==== Sys2Proof/Laws/Memory.lean ====
section
/-! SUPPORT. The laws of a storage array: a write is read back at its slot and nowhere else, and every operation keeps the canonical form. -/

namespace Sys2Proof.Machine

theorem wfFrom_mono {lo lo' : Nat} {m : Memory} (h : lo' ≤ lo) (hw : Memory.wfFrom lo m = true) :
    Memory.wfFrom lo' m = true := by
  cases m with
  | nil => rfl
  | cons x m =>
    obtain ⟨a, v⟩ := x
    simp only [Memory.wfFrom, Bool.and_eq_true, decide_eq_true_eq] at hw ⊢
    exact ⟨⟨by omega, hw.1.2⟩, hw.2⟩

/-- Below its first slot a canonical array lists nothing. -/
theorem memRead_below {lo : Nat} {m : Memory} (hw : Memory.wfFrom lo m = true) {i : Nat} (h : i < lo) :
    memRead m i = unlistedByte := by
  induction m generalizing lo with
  | nil => rfl
  | cons x m ih =>
    obtain ⟨a, v⟩ := x
    simp only [Memory.wfFrom, Bool.and_eq_true, decide_eq_true_eq] at hw
    have hne : a ≠ i := by omega
    simp only [memRead, hne, if_false]
    exact ih hw.2 (by omega)

/-- A write keeps the canonical form. -/
theorem memWrite_wfFrom {lo : Nat} {m : Memory} (hw : Memory.wfFrom lo m = true) {i : Nat} (h : lo ≤ i) (v : Byte) :
    Memory.wfFrom lo (memWrite m i v) = true := by
  induction m generalizing lo with
  | nil =>
    unfold memWrite
    split <;> simp_all [Memory.wfFrom]
  | cons x m ih =>
    obtain ⟨a, u⟩ := x
    simp only [Memory.wfFrom, Bool.and_eq_true, decide_eq_true_eq] at hw
    obtain ⟨⟨hlo, hu⟩, hm⟩ := hw
    unfold memWrite
    split
    · split
      · simp_all [Memory.wfFrom]
      · rename_i hia hv
        simp only [Memory.wfFrom, Bool.and_eq_true, decide_eq_true_eq]
        exact ⟨⟨h, hv⟩, ⟨by omega, hu⟩, hm⟩
    · split
      · rename_i hia heq
        subst heq
        split
        · exact wfFrom_mono (by omega) hm
        · rename_i hv
          simp only [Memory.wfFrom, Bool.and_eq_true, decide_eq_true_eq]
          exact ⟨⟨h, hv⟩, hm⟩
      · simp only [Memory.wfFrom, Bool.and_eq_true, decide_eq_true_eq]
        exact ⟨⟨hlo, hu⟩, ih hm (by omega)⟩

/-- A write keeps the canonical form of a whole array. -/
theorem memWrite_wf {m : Memory} (hw : Memory.wf m = true) (i : Nat) (v : Byte) : Memory.wf (memWrite m i v) = true :=
  memWrite_wfFrom hw (Nat.zero_le i) v

/-- What is written is read back. -/
theorem memRead_memWrite_self {lo : Nat} {m : Memory} (hw : Memory.wfFrom lo m = true) (i : Nat) (v : Byte) :
    memRead (memWrite m i v) i = v := by
  induction m generalizing lo with
  | nil =>
    unfold memWrite
    split <;> simp_all [memRead]
  | cons x m ih =>
    obtain ⟨a, u⟩ := x
    simp only [Memory.wfFrom, Bool.and_eq_true, decide_eq_true_eq] at hw
    unfold memWrite
    split
    · rename_i hia
      split
      · rename_i hv
        have hne : a ≠ i := by omega
        simp only [memRead, hne, if_false, hv]
        exact memRead_below hw.2 (by omega)
      · simp [memRead]
    · split
      · rename_i hia heq
        split
        · rename_i hv
          rw [hv]
          exact memRead_below hw.2 (by omega)
        · simp [memRead]
      · rename_i hia hne
        have hne' : a ≠ i := fun e => hne e.symm
        simp only [memRead, hne', if_false]
        exact ih hw.2

/-- Every other slot reads as before. -/
theorem memRead_memWrite_other (m : Memory) (i j : Nat) (v : Byte) (h : j ≠ i) :
    memRead (memWrite m i v) j = memRead m j := by
  have h' : i ≠ j := fun e => h e.symm
  induction m with
  | nil =>
    unfold memWrite
    split <;> simp [memRead, h']
  | cons x m ih =>
    obtain ⟨a, u⟩ := x
    unfold memWrite
    split
    · split
      · rfl
      · simp [memRead, h']
    · split
      · rename_i heq
        subst heq
        split <;> simp [memRead, h']
      · simp only [memRead, ih]

/-- A write lists no slot but its own. -/
theorem mem_memWrite {m : Memory} {i : Nat} {v : Byte} {c : Host.Cell} (h : c ∈ memWrite m i v) :
    c ∈ m ∨ c.1 = i := by
  induction m with
  | nil =>
    unfold memWrite at h
    split at h <;> simp_all
  | cons x m ih =>
    obtain ⟨a, u⟩ := x
    unfold memWrite at h
    split at h
    · split at h
      · exact Or.inl h
      · rcases List.mem_cons.mp h with rfl | h
        · exact Or.inr rfl
        · exact Or.inl h
    · split at h
      · split at h
        · exact Or.inl (List.mem_cons_of_mem _ h)
        · rcases List.mem_cons.mp h with rfl | h
          · exact Or.inr rfl
          · exact Or.inl (List.mem_cons_of_mem _ h)
      · rcases List.mem_cons.mp h with rfl | h
        · exact Or.inl List.mem_cons_self
        · rcases ih h with h | h
          · exact Or.inl (List.mem_cons_of_mem _ h)
          · exact Or.inr h

/-- The stores after reset are canonical. -/
theorem initial_stores_wf (cfg : Config) (script : List Action) (clock : Nat) :
    Memory.wf (State.initial cfg script clock).rx.store = true ∧
      Memory.wf (State.initial cfg script clock).rsp.store = true := ⟨rfl, rfl⟩

end Sys2Proof.Machine
end

