-- ==== Sys2Proof/Laws/State.lean ====
section
/-! SUPPORT. One lemma per field of State and per update: what each shared update leaves alone, and what it writes. -/

namespace Sys2Proof.Machine

/-! ### Flags -/

@[simp] theorem setFlag_cfg (f : StatusFlag) (s : State) : (setFlag f s).cfg = s.cfg := rfl
@[simp] theorem setFlag_rx (f : StatusFlag) (s : State) : (setFlag f s).rx = s.rx := rfl
@[simp] theorem setFlag_rsp (f : StatusFlag) (s : State) : (setFlag f s).rsp = s.rsp := rfl
@[simp] theorem setFlag_mcur (f : StatusFlag) (s : State) : (setFlag f s).mcur = s.mcur := rfl
@[simp] theorem setFlag_disp (f : StatusFlag) (s : State) : (setFlag f s).disp = s.disp := rfl
@[simp] theorem setFlag_q (f : StatusFlag) (s : State) : (setFlag f s).q = s.q := rfl
@[simp] theorem setFlag_timeout (f : StatusFlag) (s : State) : (setFlag f s).timeout = s.timeout := rfl
@[simp] theorem setFlag_events (f : StatusFlag) (s : State) : (setFlag f s).events = s.events := rfl
@[simp] theorem setFlag_txOwner (f : StatusFlag) (s : State) : (setFlag f s).txOwner = s.txOwner := rfl
@[simp] theorem setFlag_txLog (f : StatusFlag) (s : State) : (setFlag f s).txLog = s.txLog := rfl
@[simp] theorem setFlag_ports (f : StatusFlag) (s : State) : (setFlag f s).ports = s.ports := rfl
@[simp] theorem setFlag_cur (f : StatusFlag) (s : State) : (setFlag f s).cur = s.cur := rfl
@[simp] theorem setFlag_script (f : StatusFlag) (s : State) : (setFlag f s).script = s.script := rfl
@[simp] theorem setFlag_clock (f : StatusFlag) (s : State) : (setFlag f s).clock = s.clock := rfl

@[simp] theorem setFlag_status (f : StatusFlag) (s : State) :
    (setFlag f s).status = s.status ||| BitVec.twoPow 16 (flagBit f) := rfl

@[simp] theorem setEvent_cfg (w : Nat) (s : State) : (setEvent w s).cfg = s.cfg := rfl
@[simp] theorem setEvent_rx (w : Nat) (s : State) : (setEvent w s).rx = s.rx := rfl
@[simp] theorem setEvent_rsp (w : Nat) (s : State) : (setEvent w s).rsp = s.rsp := rfl
@[simp] theorem setEvent_mcur (w : Nat) (s : State) : (setEvent w s).mcur = s.mcur := rfl
@[simp] theorem setEvent_disp (w : Nat) (s : State) : (setEvent w s).disp = s.disp := rfl
@[simp] theorem setEvent_q (w : Nat) (s : State) : (setEvent w s).q = s.q := rfl
@[simp] theorem setEvent_timeout (w : Nat) (s : State) : (setEvent w s).timeout = s.timeout := rfl
@[simp] theorem setEvent_status (w : Nat) (s : State) : (setEvent w s).status = s.status := rfl
@[simp] theorem setEvent_txOwner (w : Nat) (s : State) : (setEvent w s).txOwner = s.txOwner := rfl
@[simp] theorem setEvent_txLog (w : Nat) (s : State) : (setEvent w s).txLog = s.txLog := rfl
@[simp] theorem setEvent_ports (w : Nat) (s : State) : (setEvent w s).ports = s.ports := rfl
@[simp] theorem setEvent_cur (w : Nat) (s : State) : (setEvent w s).cur = s.cur := rfl
@[simp] theorem setEvent_script (w : Nat) (s : State) : (setEvent w s).script = s.script := rfl
@[simp] theorem setEvent_clock (w : Nat) (s : State) : (setEvent w s).clock = s.clock := rfl

@[simp] theorem setEvent_events (w : Nat) (s : State) :
    (setEvent w s).events = s.events ||| BitVec.twoPow 16 w := rfl

/-! ### Rings -/

@[simp] theorem setRing_cfg (sel : RingSel) (r : Ring) (s : State) : (s.setRing sel r).cfg = s.cfg := by cases sel <;> rfl
@[simp] theorem setRing_mcur (sel : RingSel) (r : Ring) (s : State) : (s.setRing sel r).mcur = s.mcur := by cases sel <;> rfl
@[simp] theorem setRing_disp (sel : RingSel) (r : Ring) (s : State) : (s.setRing sel r).disp = s.disp := by cases sel <;> rfl
@[simp] theorem setRing_q (sel : RingSel) (r : Ring) (s : State) : (s.setRing sel r).q = s.q := by cases sel <;> rfl
@[simp] theorem setRing_timeout (sel : RingSel) (r : Ring) (s : State) : (s.setRing sel r).timeout = s.timeout := by cases sel <;> rfl
@[simp] theorem setRing_status (sel : RingSel) (r : Ring) (s : State) : (s.setRing sel r).status = s.status := by cases sel <;> rfl
@[simp] theorem setRing_events (sel : RingSel) (r : Ring) (s : State) : (s.setRing sel r).events = s.events := by cases sel <;> rfl
@[simp] theorem setRing_txOwner (sel : RingSel) (r : Ring) (s : State) : (s.setRing sel r).txOwner = s.txOwner := by cases sel <;> rfl
@[simp] theorem setRing_txLog (sel : RingSel) (r : Ring) (s : State) : (s.setRing sel r).txLog = s.txLog := by cases sel <;> rfl
@[simp] theorem setRing_ports (sel : RingSel) (r : Ring) (s : State) : (s.setRing sel r).ports = s.ports := by cases sel <;> rfl
@[simp] theorem setRing_cur (sel : RingSel) (r : Ring) (s : State) : (s.setRing sel r).cur = s.cur := by cases sel <;> rfl
@[simp] theorem setRing_script (sel : RingSel) (r : Ring) (s : State) : (s.setRing sel r).script = s.script := by cases sel <;> rfl
@[simp] theorem setRing_clock (sel : RingSel) (r : Ring) (s : State) : (s.setRing sel r).clock = s.clock := by cases sel <;> rfl

@[simp] theorem setRing_ring_self (sel : RingSel) (r : Ring) (s : State) : (s.setRing sel r).ring sel = r := by
  cases sel <;> rfl

@[simp] theorem ring_rx (s : State) : s.ring .rx = s.rx := rfl
@[simp] theorem ring_rsp (s : State) : s.ring .rsp = s.rsp := rfl
@[simp] theorem setRing_rx (r : Ring) (s : State) : s.setRing .rx r = { s with rx := r } := rfl
@[simp] theorem setRing_rsp (r : Ring) (s : State) : s.setRing .rsp r = { s with rsp := r } := rfl

/-! ### Queues -/

@[simp] theorem setQueue_cfg (c : BitVec 4) (l : List Packet) (s : State) : (s.setQueue c l).cfg = s.cfg := rfl
@[simp] theorem setQueue_rx (c : BitVec 4) (l : List Packet) (s : State) : (s.setQueue c l).rx = s.rx := rfl
@[simp] theorem setQueue_rsp (c : BitVec 4) (l : List Packet) (s : State) : (s.setQueue c l).rsp = s.rsp := rfl
@[simp] theorem setQueue_mcur (c : BitVec 4) (l : List Packet) (s : State) : (s.setQueue c l).mcur = s.mcur := rfl
@[simp] theorem setQueue_disp (c : BitVec 4) (l : List Packet) (s : State) : (s.setQueue c l).disp = s.disp := rfl
@[simp] theorem setQueue_timeout (c : BitVec 4) (l : List Packet) (s : State) : (s.setQueue c l).timeout = s.timeout := rfl
@[simp] theorem setQueue_status (c : BitVec 4) (l : List Packet) (s : State) : (s.setQueue c l).status = s.status := rfl
@[simp] theorem setQueue_events (c : BitVec 4) (l : List Packet) (s : State) : (s.setQueue c l).events = s.events := rfl
@[simp] theorem setQueue_txOwner (c : BitVec 4) (l : List Packet) (s : State) : (s.setQueue c l).txOwner = s.txOwner := rfl
@[simp] theorem setQueue_txLog (c : BitVec 4) (l : List Packet) (s : State) : (s.setQueue c l).txLog = s.txLog := rfl
@[simp] theorem setQueue_ports (c : BitVec 4) (l : List Packet) (s : State) : (s.setQueue c l).ports = s.ports := rfl
@[simp] theorem setQueue_cur (c : BitVec 4) (l : List Packet) (s : State) : (s.setQueue c l).cur = s.cur := rfl
@[simp] theorem setQueue_script (c : BitVec 4) (l : List Packet) (s : State) : (s.setQueue c l).script = s.script := rfl
@[simp] theorem setQueue_clock (c : BitVec 4) (l : List Packet) (s : State) : (s.setQueue c l).clock = s.clock := rfl

@[simp] theorem pqPut_cfg (c : BitVec 4) (p : Packet) (s : State) : (pqPut c p s).cfg = s.cfg := rfl
@[simp] theorem pqPut_rx (c : BitVec 4) (p : Packet) (s : State) : (pqPut c p s).rx = s.rx := rfl
@[simp] theorem pqPut_rsp (c : BitVec 4) (p : Packet) (s : State) : (pqPut c p s).rsp = s.rsp := rfl
@[simp] theorem pqPut_mcur (c : BitVec 4) (p : Packet) (s : State) : (pqPut c p s).mcur = s.mcur := rfl
@[simp] theorem pqPut_disp (c : BitVec 4) (p : Packet) (s : State) : (pqPut c p s).disp = s.disp := rfl
@[simp] theorem pqPut_timeout (c : BitVec 4) (p : Packet) (s : State) : (pqPut c p s).timeout = s.timeout := rfl
@[simp] theorem pqPut_status (c : BitVec 4) (p : Packet) (s : State) : (pqPut c p s).status = s.status := rfl
@[simp] theorem pqPut_events (c : BitVec 4) (p : Packet) (s : State) : (pqPut c p s).events = s.events := rfl
@[simp] theorem pqPut_txOwner (c : BitVec 4) (p : Packet) (s : State) : (pqPut c p s).txOwner = s.txOwner := rfl
@[simp] theorem pqPut_txLog (c : BitVec 4) (p : Packet) (s : State) : (pqPut c p s).txLog = s.txLog := rfl
@[simp] theorem pqPut_ports (c : BitVec 4) (p : Packet) (s : State) : (pqPut c p s).ports = s.ports := rfl
@[simp] theorem pqPut_cur (c : BitVec 4) (p : Packet) (s : State) : (pqPut c p s).cur = s.cur := rfl
@[simp] theorem pqPut_script (c : BitVec 4) (p : Packet) (s : State) : (pqPut c p s).script = s.script := rfl
@[simp] theorem pqPut_clock (c : BitVec 4) (p : Packet) (s : State) : (pqPut c p s).clock = s.clock := rfl

@[simp] theorem pqPutHead_cfg (c : BitVec 4) (p : Packet) (s : State) : (pqPutHead c p s).cfg = s.cfg := rfl
@[simp] theorem pqPutHead_rx (c : BitVec 4) (p : Packet) (s : State) : (pqPutHead c p s).rx = s.rx := rfl
@[simp] theorem pqPutHead_rsp (c : BitVec 4) (p : Packet) (s : State) : (pqPutHead c p s).rsp = s.rsp := rfl
@[simp] theorem pqPutHead_mcur (c : BitVec 4) (p : Packet) (s : State) : (pqPutHead c p s).mcur = s.mcur := rfl
@[simp] theorem pqPutHead_disp (c : BitVec 4) (p : Packet) (s : State) : (pqPutHead c p s).disp = s.disp := rfl
@[simp] theorem pqPutHead_timeout (c : BitVec 4) (p : Packet) (s : State) : (pqPutHead c p s).timeout = s.timeout := rfl
@[simp] theorem pqPutHead_status (c : BitVec 4) (p : Packet) (s : State) : (pqPutHead c p s).status = s.status := rfl
@[simp] theorem pqPutHead_events (c : BitVec 4) (p : Packet) (s : State) : (pqPutHead c p s).events = s.events := rfl
@[simp] theorem pqPutHead_txOwner (c : BitVec 4) (p : Packet) (s : State) : (pqPutHead c p s).txOwner = s.txOwner := rfl
@[simp] theorem pqPutHead_txLog (c : BitVec 4) (p : Packet) (s : State) : (pqPutHead c p s).txLog = s.txLog := rfl
@[simp] theorem pqPutHead_ports (c : BitVec 4) (p : Packet) (s : State) : (pqPutHead c p s).ports = s.ports := rfl
@[simp] theorem pqPutHead_cur (c : BitVec 4) (p : Packet) (s : State) : (pqPutHead c p s).cur = s.cur := rfl
@[simp] theorem pqPutHead_script (c : BitVec 4) (p : Packet) (s : State) : (pqPutHead c p s).script = s.script := rfl
@[simp] theorem pqPutHead_clock (c : BitVec 4) (p : Packet) (s : State) : (pqPutHead c p s).clock = s.clock := rfl

@[simp] theorem setQueue_queue_self (c : BitVec 4) (l : List Packet) (s : State) : (s.setQueue c l).queue c = l := by
  simp [State.setQueue, State.queue]

theorem setQueue_queue_other (c c' : BitVec 4) (l : List Packet) (s : State) (h : c' ≠ c) :
    (s.setQueue c l).queue c' = s.queue c' := by
  have : c.toNat ≠ c'.toNat := fun e => h (BitVec.eq_of_toNat_eq e.symm)
  simp [State.setQueue, State.queue, this]

/-! ### Ports -/

@[simp] theorem modifyPort_cfg (p : Nat) (f : Port → Port) (s : State) : (s.modifyPort p f).cfg = s.cfg := rfl
@[simp] theorem modifyPort_rx (p : Nat) (f : Port → Port) (s : State) : (s.modifyPort p f).rx = s.rx := rfl
@[simp] theorem modifyPort_rsp (p : Nat) (f : Port → Port) (s : State) : (s.modifyPort p f).rsp = s.rsp := rfl
@[simp] theorem modifyPort_mcur (p : Nat) (f : Port → Port) (s : State) : (s.modifyPort p f).mcur = s.mcur := rfl
@[simp] theorem modifyPort_disp (p : Nat) (f : Port → Port) (s : State) : (s.modifyPort p f).disp = s.disp := rfl
@[simp] theorem modifyPort_q (p : Nat) (f : Port → Port) (s : State) : (s.modifyPort p f).q = s.q := rfl
@[simp] theorem modifyPort_timeout (p : Nat) (f : Port → Port) (s : State) : (s.modifyPort p f).timeout = s.timeout := rfl
@[simp] theorem modifyPort_status (p : Nat) (f : Port → Port) (s : State) : (s.modifyPort p f).status = s.status := rfl
@[simp] theorem modifyPort_events (p : Nat) (f : Port → Port) (s : State) : (s.modifyPort p f).events = s.events := rfl
@[simp] theorem modifyPort_txOwner (p : Nat) (f : Port → Port) (s : State) : (s.modifyPort p f).txOwner = s.txOwner := rfl
@[simp] theorem modifyPort_txLog (p : Nat) (f : Port → Port) (s : State) : (s.modifyPort p f).txLog = s.txLog := rfl
@[simp] theorem modifyPort_cur (p : Nat) (f : Port → Port) (s : State) : (s.modifyPort p f).cur = s.cur := rfl
@[simp] theorem modifyPort_script (p : Nat) (f : Port → Port) (s : State) : (s.modifyPort p f).script = s.script := rfl
@[simp] theorem modifyPort_clock (p : Nat) (f : Port → Port) (s : State) : (s.modifyPort p f).clock = s.clock := rfl

@[simp] theorem modifyPort_ports (p : Nat) (f : Port → Port) (s : State) : (s.modifyPort p f).ports = s.ports.modify p f := rfl

@[simp] theorem setOp_cfg (p : Nat) (op : PortOp) (s : State) : (setOp p op s).cfg = s.cfg := rfl
@[simp] theorem setOp_rx (p : Nat) (op : PortOp) (s : State) : (setOp p op s).rx = s.rx := rfl
@[simp] theorem setOp_rsp (p : Nat) (op : PortOp) (s : State) : (setOp p op s).rsp = s.rsp := rfl
@[simp] theorem setOp_mcur (p : Nat) (op : PortOp) (s : State) : (setOp p op s).mcur = s.mcur := rfl
@[simp] theorem setOp_disp (p : Nat) (op : PortOp) (s : State) : (setOp p op s).disp = s.disp := rfl
@[simp] theorem setOp_q (p : Nat) (op : PortOp) (s : State) : (setOp p op s).q = s.q := rfl
@[simp] theorem setOp_timeout (p : Nat) (op : PortOp) (s : State) : (setOp p op s).timeout = s.timeout := rfl
@[simp] theorem setOp_status (p : Nat) (op : PortOp) (s : State) : (setOp p op s).status = s.status := rfl
@[simp] theorem setOp_events (p : Nat) (op : PortOp) (s : State) : (setOp p op s).events = s.events := rfl
@[simp] theorem setOp_txOwner (p : Nat) (op : PortOp) (s : State) : (setOp p op s).txOwner = s.txOwner := rfl
@[simp] theorem setOp_txLog (p : Nat) (op : PortOp) (s : State) : (setOp p op s).txLog = s.txLog := rfl
@[simp] theorem setOp_cur (p : Nat) (op : PortOp) (s : State) : (setOp p op s).cur = s.cur := rfl
@[simp] theorem setOp_script (p : Nat) (op : PortOp) (s : State) : (setOp p op s).script = s.script := rfl
@[simp] theorem setOp_clock (p : Nat) (op : PortOp) (s : State) : (setOp p op s).clock = s.clock := rfl

@[simp] theorem loadMatcher_cfg (p : Nat) (pat : List Byte) (s : State) : (loadMatcher p pat s).cfg = s.cfg := rfl
@[simp] theorem loadMatcher_rx (p : Nat) (pat : List Byte) (s : State) : (loadMatcher p pat s).rx = s.rx := rfl
@[simp] theorem loadMatcher_rsp (p : Nat) (pat : List Byte) (s : State) : (loadMatcher p pat s).rsp = s.rsp := rfl
@[simp] theorem loadMatcher_mcur (p : Nat) (pat : List Byte) (s : State) : (loadMatcher p pat s).mcur = s.mcur := rfl
@[simp] theorem loadMatcher_disp (p : Nat) (pat : List Byte) (s : State) : (loadMatcher p pat s).disp = s.disp := rfl
@[simp] theorem loadMatcher_q (p : Nat) (pat : List Byte) (s : State) : (loadMatcher p pat s).q = s.q := rfl
@[simp] theorem loadMatcher_timeout (p : Nat) (pat : List Byte) (s : State) : (loadMatcher p pat s).timeout = s.timeout := rfl
@[simp] theorem loadMatcher_status (p : Nat) (pat : List Byte) (s : State) : (loadMatcher p pat s).status = s.status := rfl
@[simp] theorem loadMatcher_events (p : Nat) (pat : List Byte) (s : State) : (loadMatcher p pat s).events = s.events := rfl
@[simp] theorem loadMatcher_txOwner (p : Nat) (pat : List Byte) (s : State) : (loadMatcher p pat s).txOwner = s.txOwner := rfl
@[simp] theorem loadMatcher_txLog (p : Nat) (pat : List Byte) (s : State) : (loadMatcher p pat s).txLog = s.txLog := rfl
@[simp] theorem loadMatcher_cur (p : Nat) (pat : List Byte) (s : State) : (loadMatcher p pat s).cur = s.cur := rfl
@[simp] theorem loadMatcher_script (p : Nat) (pat : List Byte) (s : State) : (loadMatcher p pat s).script = s.script := rfl
@[simp] theorem loadMatcher_clock (p : Nat) (pat : List Byte) (s : State) : (loadMatcher p pat s).clock = s.clock := rfl

@[simp] theorem feedMatcher_cfg (p : Nat) (b : Byte) (s : State) : (feedMatcher p b s).cfg = s.cfg := rfl
@[simp] theorem feedMatcher_rx (p : Nat) (b : Byte) (s : State) : (feedMatcher p b s).rx = s.rx := rfl
@[simp] theorem feedMatcher_rsp (p : Nat) (b : Byte) (s : State) : (feedMatcher p b s).rsp = s.rsp := rfl
@[simp] theorem feedMatcher_mcur (p : Nat) (b : Byte) (s : State) : (feedMatcher p b s).mcur = s.mcur := rfl
@[simp] theorem feedMatcher_disp (p : Nat) (b : Byte) (s : State) : (feedMatcher p b s).disp = s.disp := rfl
@[simp] theorem feedMatcher_q (p : Nat) (b : Byte) (s : State) : (feedMatcher p b s).q = s.q := rfl
@[simp] theorem feedMatcher_timeout (p : Nat) (b : Byte) (s : State) : (feedMatcher p b s).timeout = s.timeout := rfl
@[simp] theorem feedMatcher_status (p : Nat) (b : Byte) (s : State) : (feedMatcher p b s).status = s.status := rfl
@[simp] theorem feedMatcher_events (p : Nat) (b : Byte) (s : State) : (feedMatcher p b s).events = s.events := rfl
@[simp] theorem feedMatcher_txOwner (p : Nat) (b : Byte) (s : State) : (feedMatcher p b s).txOwner = s.txOwner := rfl
@[simp] theorem feedMatcher_txLog (p : Nat) (b : Byte) (s : State) : (feedMatcher p b s).txLog = s.txLog := rfl
@[simp] theorem feedMatcher_cur (p : Nat) (b : Byte) (s : State) : (feedMatcher p b s).cur = s.cur := rfl
@[simp] theorem feedMatcher_script (p : Nat) (b : Byte) (s : State) : (feedMatcher p b s).script = s.script := rfl
@[simp] theorem feedMatcher_clock (p : Nat) (b : Byte) (s : State) : (feedMatcher p b s).clock = s.clock := rfl

@[simp] theorem complete_cfg (p : Nat) (st : StatusCode) (val : Half) (data : List Byte) (s : State) : (complete p st val data s).cfg = s.cfg := rfl
@[simp] theorem complete_rx (p : Nat) (st : StatusCode) (val : Half) (data : List Byte) (s : State) : (complete p st val data s).rx = s.rx := rfl
@[simp] theorem complete_rsp (p : Nat) (st : StatusCode) (val : Half) (data : List Byte) (s : State) : (complete p st val data s).rsp = s.rsp := rfl
@[simp] theorem complete_mcur (p : Nat) (st : StatusCode) (val : Half) (data : List Byte) (s : State) : (complete p st val data s).mcur = s.mcur := rfl
@[simp] theorem complete_disp (p : Nat) (st : StatusCode) (val : Half) (data : List Byte) (s : State) : (complete p st val data s).disp = s.disp := rfl
@[simp] theorem complete_q (p : Nat) (st : StatusCode) (val : Half) (data : List Byte) (s : State) : (complete p st val data s).q = s.q := rfl
@[simp] theorem complete_timeout (p : Nat) (st : StatusCode) (val : Half) (data : List Byte) (s : State) : (complete p st val data s).timeout = s.timeout := rfl
@[simp] theorem complete_status (p : Nat) (st : StatusCode) (val : Half) (data : List Byte) (s : State) : (complete p st val data s).status = s.status := rfl
@[simp] theorem complete_events (p : Nat) (st : StatusCode) (val : Half) (data : List Byte) (s : State) : (complete p st val data s).events = s.events := rfl
@[simp] theorem complete_txOwner (p : Nat) (st : StatusCode) (val : Half) (data : List Byte) (s : State) : (complete p st val data s).txOwner = s.txOwner := rfl
@[simp] theorem complete_txLog (p : Nat) (st : StatusCode) (val : Half) (data : List Byte) (s : State) : (complete p st val data s).txLog = s.txLog := rfl
@[simp] theorem complete_cur (p : Nat) (st : StatusCode) (val : Half) (data : List Byte) (s : State) : (complete p st val data s).cur = s.cur := rfl
@[simp] theorem complete_script (p : Nat) (st : StatusCode) (val : Half) (data : List Byte) (s : State) : (complete p st val data s).script = s.script := rfl
@[simp] theorem complete_clock (p : Nat) (st : StatusCode) (val : Half) (data : List Byte) (s : State) : (complete p st val data s).clock = s.clock := rfl

@[simp] theorem completeRange_cfg (p : Nat) (s : State) : (completeRange p s).cfg = s.cfg := rfl
@[simp] theorem completeRange_rx (p : Nat) (s : State) : (completeRange p s).rx = s.rx := rfl
@[simp] theorem completeRange_rsp (p : Nat) (s : State) : (completeRange p s).rsp = s.rsp := rfl
@[simp] theorem completeRange_mcur (p : Nat) (s : State) : (completeRange p s).mcur = s.mcur := rfl
@[simp] theorem completeRange_disp (p : Nat) (s : State) : (completeRange p s).disp = s.disp := rfl
@[simp] theorem completeRange_q (p : Nat) (s : State) : (completeRange p s).q = s.q := rfl
@[simp] theorem completeRange_timeout (p : Nat) (s : State) : (completeRange p s).timeout = s.timeout := rfl
@[simp] theorem completeRange_status (p : Nat) (s : State) : (completeRange p s).status = s.status := rfl
@[simp] theorem completeRange_events (p : Nat) (s : State) : (completeRange p s).events = s.events := rfl
@[simp] theorem completeRange_txOwner (p : Nat) (s : State) : (completeRange p s).txOwner = s.txOwner := rfl
@[simp] theorem completeRange_txLog (p : Nat) (s : State) : (completeRange p s).txLog = s.txLog := rfl
@[simp] theorem completeRange_cur (p : Nat) (s : State) : (completeRange p s).cur = s.cur := rfl
@[simp] theorem completeRange_script (p : Nat) (s : State) : (completeRange p s).script = s.script := rfl
@[simp] theorem completeRange_clock (p : Nat) (s : State) : (completeRange p s).clock = s.clock := rfl

@[simp] theorem setOp_ports (p : Nat) (op : PortOp) (s : State) :
    (setOp p op s).ports = s.ports.modify p fun o => { o with op := op } := rfl

@[simp] theorem loadMatcher_ports (p : Nat) (pat : List Byte) (s : State) :
    (loadMatcher p pat s).ports = s.ports.modify p fun o => { o with em := { pat := pat, cur := 0 } } := rfl

@[simp] theorem feedMatcher_ports (p : Nat) (b : Byte) (s : State) :
    (feedMatcher p b s).ports =
      s.ports.modify p fun o => { o with em := { o.em with cur := (smFeed o.em.pat o.em.cur b).1 } } := rfl

@[simp] theorem complete_ports (p : Nat) (st : StatusCode) (val : Half) (data : List Byte) (s : State) :
    (complete p st val data s).ports = s.ports.modify p fun o =>
      { o with op := .idle, resps := o.resps ++ [{ res := resultWord st val, data := data }] } := rfl

@[simp] theorem completeRange_ports (p : Nat) (s : State) :
    (completeRange p s).ports = s.ports.modify p fun o =>
      { o with op := .idle, resps := o.resps ++ [{ res := resultWord .range sentinel, data := [] }] } := rfl

/-- The port that is modified. -/
theorem modifyPort_port_self (p : Nat) (f : Port → Port) (s : State) (h : p < s.ports.length) :
    (s.modifyPort p f).port p = f (s.port p) := by
  simp [State.port, State.modifyPort, List.getD_eq_getElem?_getD, h]

/-- Every other port. -/
theorem modifyPort_port_other (p p' : Nat) (f : Port → Port) (s : State) (h : p ≠ p') :
    (s.modifyPort p f).port p' = s.port p' := by
  simp [State.port, State.modifyPort, List.getD_eq_getElem?_getD, h]

/-- A port outside the list reads as an idle one. -/
theorem port_of_length_le (p : Nat) (s : State) (h : s.ports.length ≤ p) : s.port p = Port.init := by
  simp [State.port, List.getD_eq_getElem?_getD, h]

/-! ### The environment -/

@[simp] theorem advance_cfg (s : State) : (advance s).cfg = s.cfg := by unfold advance; split <;> rfl
@[simp] theorem advance_rx (s : State) : (advance s).rx = s.rx := by unfold advance; split <;> rfl
@[simp] theorem advance_rsp (s : State) : (advance s).rsp = s.rsp := by unfold advance; split <;> rfl
@[simp] theorem advance_mcur (s : State) : (advance s).mcur = s.mcur := by unfold advance; split <;> rfl
@[simp] theorem advance_disp (s : State) : (advance s).disp = s.disp := by unfold advance; split <;> rfl
@[simp] theorem advance_q (s : State) : (advance s).q = s.q := by unfold advance; split <;> rfl
@[simp] theorem advance_timeout (s : State) : (advance s).timeout = s.timeout := by unfold advance; split <;> rfl
@[simp] theorem advance_status (s : State) : (advance s).status = s.status := by unfold advance; split <;> rfl
@[simp] theorem advance_events (s : State) : (advance s).events = s.events := by unfold advance; split <;> rfl
@[simp] theorem advance_txOwner (s : State) : (advance s).txOwner = s.txOwner := by unfold advance; split <;> rfl
@[simp] theorem advance_txLog (s : State) : (advance s).txLog = s.txLog := by unfold advance; split <;> rfl
@[simp] theorem advance_ports (s : State) : (advance s).ports = s.ports := by unfold advance; split <;> rfl
@[simp] theorem advance_cur (s : State) : (advance s).cur = s.cur := by unfold advance; split <;> rfl

@[simp] theorem advance_of_script (s : State) (a : Action) (rest : List Action) (h : s.script = a :: rest) :
    advance s = { s with script := rest } := by simp [advance, h]

theorem nextAction_of_script (s : State) (a : Action) (rest : List Action) (h : s.script = a :: rest) :
    nextAction s = a := by simp [nextAction, h]

end Sys2Proof.Machine
end

