-- ==== Sys2Proof/Laws/Ops.lean ====
section
/-! SUPPORT. For each shared operation, one lemma that says everything it can do; later proofs cite these and do not unfold the operation. -/

namespace Sys2Proof.Machine

/-! ### Issue -/

theorem portReady_iff (p : Nat) (s : State) :
    portReady p s = true ↔ p < s.ports.length ∧ (s.port p).op = .idle := by
  simp [portReady]

/-- On a ready port the issue step is its effect. -/
theorem issueOn_of_ready {s : State} (h : Ready s) (f : Nat → State) : issueOn s f = .next (f s.cur) := by
  have : portReady s.cur s = true := (portReady_iff _ _).2 h
  simp [issueOn, this]

/-- An issue step that answers a next state was on a ready port and had its effect. -/
theorem issueOn_next {s t : State} {f : Nat → State} (h : issueOn s f = .next t) : Ready s ∧ t = f s.cur := by
  unfold issueOn at h
  split at h
  · rename_i hr
    exact ⟨(portReady_iff _ _).1 hr, by cases h; rfl⟩
  · cases h

/-! ### Rings -/

/-- `Ring.pop` has a byte exactly when the ring is not empty, and says what it does. -/
theorem ringPop_eq_some {n : Nat} {r r' : Ring} {b : Byte} :
    Ring.pop n r = some (b, r') ↔ r.count ≠ 0 ∧ b = memRead r.store r.tail ∧
      r' = { r with tail := (r.tail + 1) % n, count := r.count - 1, hist := r.hist + 1 } := by
  unfold Ring.pop
  split
  · simp_all
  · rename_i h
    constructor
    · intro e
      cases e
      exact ⟨h, rfl, rfl⟩
    · rintro ⟨-, rfl, rfl⟩
      rfl

theorem ringPop_eq_none {n : Nat} {r : Ring} : Ring.pop n r = none ↔ r.count = 0 := by
  unfold Ring.pop
  split <;> simp_all

/-- The shared pop, where there is a byte. -/
theorem rbPop_of_count {sel : RingSel} {s : State} (h : (s.ring sel).count ≠ 0) :
    rbPop sel s = some (memRead (s.ring sel).store (s.ring sel).tail,
      s.setRing sel { (s.ring sel) with
        tail := ((s.ring sel).tail + 1) % Config.ringN s.cfg sel
        count := (s.ring sel).count - 1
        hist := (s.ring sel).hist + 1 }) := by
  have := (ringPop_eq_some (n := Config.ringN s.cfg sel) (r := s.ring sel)).2 ⟨h, rfl, rfl⟩
  simp [rbPop, this]

/-- The shared pop of an empty ring. -/
theorem rbPop_of_empty {sel : RingSel} {s : State} (h : (s.ring sel).count = 0) : rbPop sel s = none := by
  have := (ringPop_eq_none (n := Config.ringN s.cfg sel) (r := s.ring sel)).2 h
  simp [rbPop, this]

/-- What a successful shared pop was. -/
theorem rbPop_eq_some {sel : RingSel} {s t : State} {b : Byte} (h : rbPop sel s = some (b, t)) :
    (s.ring sel).count ≠ 0 ∧ b = memRead (s.ring sel).store (s.ring sel).tail ∧
      t = s.setRing sel { (s.ring sel) with
        tail := ((s.ring sel).tail + 1) % Config.ringN s.cfg sel
        count := (s.ring sel).count - 1
        hist := (s.ring sel).hist + 1 } := by
  by_cases hc : (s.ring sel).count = 0
  · rw [rbPop_of_empty hc] at h
    cases h
  · rw [rbPop_of_count hc] at h
    cases h
    exact ⟨hc, rfl, rfl⟩

/-- What a successful rewind was. -/
theorem ringRewind_eq_some {n k : Nat} {r r' : Ring} :
    Ring.rewind n r k = some r' ↔ k ≤ r.hist ∧
      r' = { r with tail := (r.tail + n - k) % n, count := r.count + k, hist := r.hist - k } := by
  unfold Ring.rewind
  split
  · rename_i h
    constructor
    · intro e
      cases e
      exact ⟨h, rfl⟩
    · rintro ⟨-, rfl⟩
      rfl
  · simp_all

/-- The shared push on RX: the ring is pushed, and the flag RX_OVF is set exactly when the ring was full. -/
theorem rbPush_rx (b : Byte) (s : State) :
    rbPush .rx b s = { s with
      rx := Ring.push s.cfg.rxN s.rx b
      status := if s.rx.count = s.cfg.rxN then s.status ||| 1 else s.status } := by
  unfold rbPush
  by_cases h : s.rx.count = s.cfg.rxN <;>
    simp [h, Config.ringN, State.ring, State.setRing, setFlag, overflowFlag, flagBit]
  rfl

/-- The shared push on RSP. -/
theorem rbPush_rsp (b : Byte) (s : State) :
    rbPush .rsp b s = { s with
      rsp := Ring.push s.cfg.rspN s.rsp b
      status := if s.rsp.count = s.cfg.rspN then s.status ||| 2 else s.status } := by
  unfold rbPush
  by_cases h : s.rsp.count = s.cfg.rspN <;>
    simp [h, Config.ringN, State.ring, State.setRing, setFlag, overflowFlag, flagBit]
  rfl

/-- Setting one flag again changes nothing. -/
theorem or_or_self (x y : Half) : (x ||| y) ||| y = x ||| y := by
  rw [BitVec.or_assoc, BitVec.or_self]

/-- The ring a list of pushes starts from is full, or the ring after the first push meets the same question. -/
theorem pushes_full_cons {n : Nat} {r : Ring} {b : Byte} {bytes : List Byte}
    (h : ∃ k, k < bytes.length ∧ ((bytes.take k).foldl (Ring.push n) (Ring.push n r b)).count = n) :
    ∃ k, k < (b :: bytes).length ∧ (((b :: bytes).take k).foldl (Ring.push n) r).count = n := by
  obtain ⟨k, hk, hc⟩ := h
  exact ⟨k + 1, by simpa using hk, by simpa using hc⟩

/-- No push of a list finds the ring full if the first does not and none of the rest does. -/
theorem pushes_room_cons {n : Nat} {r : Ring} {b : Byte} {bytes : List Byte} (h0 : r.count ≠ n)
    (h : ∀ k, k < bytes.length → ((bytes.take k).foldl (Ring.push n) (Ring.push n r b)).count ≠ n) :
    ∀ k, k < (b :: bytes).length → (((b :: bytes).take k).foldl (Ring.push n) r).count ≠ n := by
  intro k hk
  cases k with
  | zero => exact h0
  | succ k => simpa using h k (by simpa using hk)

/-- Bytes that arrive one after the other: the RX ring is pushed with each, RX_OVF is set exactly when some push finds it full, and
nothing else changes. -/
theorem rxBytes_eq (bytes : List Byte) (s : State) :
    ∃ st, rxBytes bytes s = { s with rx := bytes.foldl (Ring.push s.cfg.rxN) s.rx, status := st } ∧
      ((st = s.status ∧ ∀ k, k < bytes.length → ((bytes.take k).foldl (Ring.push s.cfg.rxN) s.rx).count ≠ s.cfg.rxN) ∨
        (st = s.status ||| 1 ∧ ∃ k, k < bytes.length ∧ ((bytes.take k).foldl (Ring.push s.cfg.rxN) s.rx).count = s.cfg.rxN)) := by
  induction bytes generalizing s with
  | nil => exact ⟨s.status, rfl, Or.inl ⟨rfl, fun k hk => absurd hk (Nat.not_lt_zero k)⟩⟩
  | cons b bytes ih =>
    obtain ⟨st, h, hst⟩ := ih (rxByte b s)
    simp only [rxByte, rbPush_rx] at hst
    refine ⟨st, ?_, ?_⟩
    · show rxBytes bytes (rxByte b s) = _
      rw [h]
      simp [rxByte, rbPush_rx]
    · by_cases hf : s.rx.count = s.cfg.rxN
      · refine Or.inr ⟨?_, 0, by simp, by simpa using hf⟩
        rcases hst with h | h
        · rw [h.1, if_pos hf]
        · rw [h.1, if_pos hf, or_or_self]
      · rcases hst with h | h
        · exact Or.inl ⟨by rw [h.1, if_neg hf], pushes_room_cons hf h.2⟩
        · exact Or.inr ⟨by rw [h.1, if_neg hf], pushes_full_cons h.2⟩

/-- Bytes released one after the other: the RSP ring is pushed with each, RSP_OVF is set exactly when some push finds it full, and
nothing else changes. -/
theorem release_eq (bytes : List Byte) (s : State) :
    ∃ st, release bytes s = { s with rsp := bytes.foldl (Ring.push s.cfg.rspN) s.rsp, status := st } ∧
      ((st = s.status ∧ ∀ k, k < bytes.length → ((bytes.take k).foldl (Ring.push s.cfg.rspN) s.rsp).count ≠ s.cfg.rspN) ∨
        (st = s.status ||| 2 ∧ ∃ k, k < bytes.length ∧ ((bytes.take k).foldl (Ring.push s.cfg.rspN) s.rsp).count = s.cfg.rspN)) := by
  induction bytes generalizing s with
  | nil => exact ⟨s.status, rfl, Or.inl ⟨rfl, fun k hk => absurd hk (Nat.not_lt_zero k)⟩⟩
  | cons b bytes ih =>
    obtain ⟨st, h, hst⟩ := ih (rbPush .rsp b s)
    simp only [rbPush_rsp] at hst
    refine ⟨st, ?_, ?_⟩
    · show release bytes (rbPush .rsp b s) = _
      rw [h]
      simp [rbPush_rsp]
    · by_cases hf : s.rsp.count = s.cfg.rspN
      · refine Or.inr ⟨?_, 0, by simp, by simpa using hf⟩
        rcases hst with h | h
        · rw [h.1, if_pos hf]
        · rw [h.1, if_pos hf, or_or_self]
      · rcases hst with h | h
        · exact Or.inl ⟨by rw [h.1, if_neg hf], pushes_room_cons hf h.2⟩
        · exact Or.inr ⟨by rw [h.1, if_neg hf], pushes_full_cons h.2⟩

/-! ### The matcher -/

/-- One feed, case by case: the pattern is completed, or the cursor goes on, or it restarts at 1 or 0. -/
theorem smFeed_cases (pat : List Byte) (cur : Nat) (b : Byte) (hc : cur < pat.length) :
    (pat[cur]? = some b ∧ cur + 1 = pat.length ∧ smFeed pat cur b = (0, true)) ∨
    (pat[cur]? = some b ∧ cur + 1 < pat.length ∧ smFeed pat cur b = (cur + 1, false)) ∨
    (pat[cur]? ≠ some b ∧ 0 < cur ∧ pat[0]? = some b ∧ smFeed pat cur b = (1, false)) ∨
    (pat[cur]? ≠ some b ∧ pat[0]? ≠ some b ∧ smFeed pat cur b = (0, false)) := by
  by_cases h : pat[cur]? = some b
  · by_cases hl : cur + 1 = pat.length
    · exact Or.inl ⟨h, hl, by simp [smFeed, h, hl]⟩
    · exact Or.inr (Or.inl ⟨h, by omega, by simp [smFeed, h, hl]⟩)
  · by_cases h0 : 0 < cur ∧ pat[0]? = some b
    · have : pat.length ≠ 1 := by omega
      exact Or.inr (Or.inr (Or.inl ⟨h, h0.1, h0.2, by simp [smFeed, h, h0, Ne.symm this]⟩))
    · have hp : ¬ 0 = pat.length := by omega
      refine Or.inr (Or.inr (Or.inr ⟨h, fun e => ?_, by simp [smFeed, h, h0, hp]⟩))
      rcases Nat.eq_zero_or_pos cur with rfl | hpos
      · exact h e
      · exact h0 ⟨hpos, e⟩

/-- The cursor stays below the pattern's length. -/
theorem smFeed_cursor_lt (pat : List Byte) (cur : Nat) (b : Byte) (hc : cur < pat.length) :
    (smFeed pat cur b).1 < pat.length := by
  rcases smFeed_cases pat cur b hc with ⟨_, _, h⟩ | ⟨_, _, h⟩ | ⟨_, _, _, h⟩ | ⟨_, _, h⟩ <;> simp [h] <;> omega

/-- A feed raises the cursor by at most 1. -/
theorem smFeed_cursor_le (pat : List Byte) (cur : Nat) (b : Byte) : (smFeed pat cur b).1 ≤ cur + 1 := by
  have h : ∀ c, (if c = pat.length then (0, true) else (c, false) : Nat × Bool).1 ≤ c := by
    intro c
    split
    · exact Nat.zero_le _
    · exact Nat.le_refl _
  refine Nat.le_trans (h _) ?_
  split
  · exact Nat.le_refl _
  · split <;> omega

/-! ### Queues -/

/-- What a successful get was. -/
theorem pqGet_eq_some {c : BitVec 4} {s t : State} {p : Packet} (h : pqGet c s = some (p, t)) :
    ∃ rest, s.queue c = p :: rest ∧ t = s.setQueue c rest := by
  unfold pqGet at h
  split at h
  · cases h
  · rename_i q rest e
    cases h
    exact ⟨rest, e, rfl⟩

/-- A get from an empty queue has no packet. -/
theorem pqGet_eq_none {c : BitVec 4} {s : State} : pqGet c s = none ↔ s.queue c = [] := by
  unfold pqGet
  split <;> simp_all

/-- A put appends to its queue. -/
theorem pqPut_queue_self (c : BitVec 4) (p : Packet) (s : State) : (pqPut c p s).queue c = s.queue c ++ [p] := by
  simp [pqPut]

/-- A put at the head prepends to its queue. -/
theorem pqPutHead_queue_self (c : BitVec 4) (p : Packet) (s : State) : (pqPutHead c p s).queue c = p :: s.queue c := by
  simp [pqPutHead]

/-! ### Completion and progress -/

/-- A completion, as the ports' new list. -/
theorem complete_eq (p : Nat) (st : StatusCode) (val : Half) (data : List Byte) (s : State) :
    complete p st val data s = { s with ports := delivered s p (resultWord st val) data } := rfl

/-- Storing a record, as the ports' new list. -/
theorem setOp_eq (p : Nat) (op : PortOp) (s : State) : setOp p op s = { s with ports := recorded s p op } := rfl

/-- A chosen step other than a fetched instruction. -/
theorem step_of_fetch_none {s : State} (h : fetch (nextAction s) (advance s) = none) :
    step s = .next (agentStep (nextAction s) (advance s)) := by
  simp [step, h]

/-- A fetched instruction is carried out. -/
theorem step_of_fetch_some {s : State} {i : Instr} (h : fetch (nextAction s) (advance s) = some i) :
    step s = exec i (deliver (nextAction s) (advance s)) := by
  simp [step, h]

end Sys2Proof.Machine
end

