-- ==== Sys2Proof/Laws/PerInstr.lean ====
section
/-! SUPPORT. Statements about every instruction, one lemma per constructor. -/

namespace Sys2Proof.Laws

open Sys2Proof

/-- A command word as a number (R101). -/
theorem mkCommand_toNat (o a : BitVec 8) (imm : Half) :
    (mkCommand o a imm).toNat = o.toNat * 2 ^ 24 + (a.toNat * 2 ^ 16 + imm.toNat) := by
  have e : (mkCommand o a imm).toNat = (o ++ (a ++ imm)).toNat := rfl
  have h : (a ++ imm).toNat = a.toNat * 2 ^ 16 + imm.toNat := by
    rw [BitVec.toNat_append, ← Nat.shiftLeft_add_eq_or_of_lt imm.isLt, Nat.shiftLeft_eq]
  rw [e, BitVec.toNat_append, ← Nat.shiftLeft_add_eq_or_of_lt (a ++ imm).isLt, Nat.shiftLeft_eq, h]

@[simp] theorem mkCommand_opc (o a : BitVec 8) (imm : Half) : Word.opc (mkCommand o a imm) = o := by
  apply BitVec.eq_of_toNat_eq
  simp only [Word.opc, BitVec.extractLsb'_toNat, mkCommand_toNat, Nat.shiftRight_eq_div_pow]
  omega

@[simp] theorem mkCommand_a (o a : BitVec 8) (imm : Half) : Word.a (mkCommand o a imm) = a := by
  apply BitVec.eq_of_toNat_eq
  simp only [Word.a, BitVec.extractLsb'_toNat, mkCommand_toNat, Nat.shiftRight_eq_div_pow]
  omega

@[simp] theorem mkCommand_imm (o a : BitVec 8) (imm : Half) : Word.imm (mkCommand o a imm) = imm := by
  apply BitVec.eq_of_toNat_eq
  simp only [Word.imm, BitVec.extractLsb'_toNat, mkCommand_toNat, Nat.shiftRight_eq_div_pow]
  omega

theorem payloadLen_of_a (o a : BitVec 8) (imm : Half) (h : o = 0x10 ∨ o = 0x21 ∨ o = 0x22) :
    payloadLen (mkCommand o a imm) = a.toNat := by
  unfold payloadLen
  rw [mkCommand_opc, mkCommand_a, if_pos h]

theorem payloadLen_of_imm (o a : BitVec 8) (imm : Half) (h : o = 0x20 ∨ o = 0x31) :
    payloadLen (mkCommand o a imm) = imm.toNat := by
  unfold payloadLen
  rw [mkCommand_opc, mkCommand_imm]
  rcases h with rfl | rfl <;> simp

theorem payloadLen_zero (o a : BitVec 8) (imm : Half) (h : o ∉ [0x10#8, 0x21, 0x22, 0x20, 0x31]) :
    payloadLen (mkCommand o a imm) = 0 := by
  unfold payloadLen
  rw [mkCommand_opc]
  simp only [List.mem_cons, List.not_mem_nil, or_false, not_or] at h
  rw [if_neg (by tauto), if_neg (by tauto)]

/-- A well-formed instruction's request carries exactly the payload bytes its command word announces (R105), and a wire format has its
two marker bytes (R110, R111). -/
def PayloadLength.Statement (i : Instr) : Prop :=
  match encode i with
  | .request cmd payload => i.wellFormed = true → payload.length = payloadLen cmd
  | .wire bytes => bytes[0]? = some 0x1B ∧ 2 ≤ bytes.length

theorem PayloadLength.rbPush (sel : RingSel) (b : Byte) : PayloadLength.Statement (.rbPush sel b) :=
  fun _ => (payloadLen_zero _ _ _ (by decide)).symm

theorem PayloadLength.rbPop (sel : RingSel) : PayloadLength.Statement (.rbPop sel) :=
  fun _ => (payloadLen_zero _ _ _ (by decide)).symm

theorem PayloadLength.rbEmpty (sel : RingSel) : PayloadLength.Statement (.rbEmpty sel) :=
  fun _ => (payloadLen_zero _ _ _ (by decide)).symm

theorem PayloadLength.rbRewind (sel : RingSel) (k : Half) : PayloadLength.Statement (.rbRewind sel k) :=
  fun _ => (payloadLen_zero _ _ _ (by decide)).symm

theorem PayloadLength.rbGetc (sel : RingSel) : PayloadLength.Statement (.rbGetc sel) :=
  fun _ => (payloadLen_zero _ _ _ (by decide)).symm

theorem PayloadLength.smLoad (pat : List Byte) : PayloadLength.Statement (.smLoad pat) := by
  intro h
  have h' : pat.length ≤ 255 := by simpa [Instr.wellFormed] using h
  rw [payloadLen_of_a _ _ _ (by decide), BitVec.toNat_ofNat]
  omega

theorem PayloadLength.smFeed (b : Byte) : PayloadLength.Statement (.smFeed b) :=
  fun _ => (payloadLen_zero _ _ _ (by decide)).symm

theorem PayloadLength.chSend (str : List Byte) : PayloadLength.Statement (.chSend str) := by
  intro h
  have h' : str.length ≤ 65535 := by simpa [Instr.wellFormed] using h
  rw [payloadLen_of_imm _ _ _ (by decide), BitVec.toNat_ofNat]
  omega

theorem PayloadLength.chRecv (token : List Byte) : PayloadLength.Statement (.chRecv token) := by
  intro h
  have h' : token.length ≤ 255 := by simpa [Instr.wellFormed] using h
  rw [payloadLen_of_a _ _ _ (by decide), BitVec.toNat_ofNat]
  omega

theorem PayloadLength.chReadtill (limit : Half) (delim : List Byte) : PayloadLength.Statement (.chReadtill limit delim) := by
  intro h
  have h' : delim.length ≤ 255 := by simpa [Instr.wellFormed] using h
  rw [payloadLen_of_a _ _ _ (by decide), BitVec.toNat_ofNat]
  omega

theorem PayloadLength.chSetto (ms : Half) : PayloadLength.Statement (.chSetto ms) :=
  fun _ => (payloadLen_zero _ _ _ (by decide)).symm

theorem PayloadLength.pqRecv (cid : BitVec 4) (amount : Half) : PayloadLength.Statement (.pqRecv cid amount) :=
  fun _ => (payloadLen_zero _ _ _ (by decide)).symm

theorem PayloadLength.bdSend (cid : BitVec 4) (data : List Byte) : PayloadLength.Statement (.bdSend cid data) := by
  intro h
  have h' : data.length ≤ 65535 := by simpa [Instr.wellFormed] using h
  rw [payloadLen_of_imm _ _ _ (by decide), BitVec.toNat_ofNat]
  omega

theorem PayloadLength.pqFlush (cid : BitVec 4) : PayloadLength.Statement (.pqFlush cid) :=
  fun _ => (payloadLen_zero _ _ _ (by decide)).symm

theorem PayloadLength.sysRdstat : PayloadLength.Statement .sysRdstat :=
  fun _ => (payloadLen_zero _ _ _ (by decide)).symm

theorem PayloadLength.sysRdevt : PayloadLength.Statement .sysRdevt :=
  fun _ => (payloadLen_zero _ _ _ (by decide)).symm

theorem PayloadLength.wireBulkFrame (c d3 d2 d1 d0 : Byte) (payload : List Byte) :
    PayloadLength.Statement (.wireBulkFrame c d3 d2 d1 d0 payload) :=
  ⟨rfl, by simp⟩

theorem PayloadLength.wireDataAccepted : PayloadLength.Statement .wireDataAccepted :=
  ⟨rfl, by simp⟩

end Sys2Proof.Laws
end

