-- ==== Sys2Proof/Tests/Slice0.lean ====
section
/-! SUPPORT. Tests: what each check refuses, written-out words, one step of each instruction, and a witness for every statement that has hypotheses. Expected words and answers are taken from spec/95_test_vectors.md or worked by hand from the rule named. -/

namespace Sys2Proof.Tests

open Sys2Proof Sys2Proof.Machine

/-! ### WellFormed refuses -/

theorem test_wf_refuses_long_pattern : (Instr.smLoad (List.replicate 256 0x41)).wellFormed = false := by
  simp only [Instr.wellFormed, List.length_replicate]
  decide

theorem test_wf_refuses_long_string : (Instr.chSend (List.replicate 65536 0x41)).wellFormed = false := by
  simp only [Instr.wellFormed, List.length_replicate]
  decide

theorem test_wf_refuses_long_token : (Instr.chRecv (List.replicate 256 0x41)).wellFormed = false := by
  simp only [Instr.wellFormed, List.length_replicate]
  decide

theorem test_wf_refuses_long_delimiter : (Instr.chReadtill 1 (List.replicate 256 0x41)).wellFormed = false := by
  simp only [Instr.wellFormed, List.length_replicate]
  decide

theorem test_wf_refuses_long_payload : (Instr.bdSend 0 (List.replicate 65536 0x41)).wellFormed = false := by
  simp only [Instr.wellFormed, List.length_replicate]
  decide

theorem test_wf_refuses_short_frame : (Instr.wireBulkFrame 0x33 0x30 0x30 0x30 0x32 [0x61]).wellFormed = false := by decide

theorem test_config_refuses_empty_pattern :
    Config.wf { Config.reference with reg := [{ pat := [], handler := .event }] } = false := by decide

/-! ### Written-out words (95_test_vectors.md section 2.1) -/

theorem test_decode_rbPush : decodeTableWord 32 0x01010041 = some (.rbPush .rsp 0x41) := by decide

theorem test_decode_rbPop : decodeTableWord 32 0x02010000 = some (.rbPop .rsp) := by decide

theorem test_decode_rbEmpty : decodeTableWord 32 0x03000000 = some (.rbEmpty .rx) := by decide

theorem test_decode_rbRewind : decodeTableWord 32 0x04010002 = some (.rbRewind .rsp 2) := by decide

theorem test_decode_rbGetc : decodeTableWord 32 0x05010000 = some (.rbGetc .rsp) := by decide

theorem test_decode_smLoad : decode (.request 0x10020000 [0x41, 0x42]) = some (.smLoad [0x41, 0x42]) := by decide

theorem test_decode_smFeed : decodeTableWord 32 0x11000041 = some (.smFeed 0x41) := by decide

theorem test_decode_chSend :
    decode (.request 0x20000003 [0x41, 0x54, 0x0A]) = some (.chSend [0x41, 0x54, 0x0A]) := by decide

theorem test_decode_chRecv : decode (.request 0x21020000 [0x4F, 0x4B]) = some (.chRecv [0x4F, 0x4B]) := by decide

theorem test_decode_chReadtill :
    decode (.request 0x22020010 [0x0D, 0x0A]) = some (.chReadtill 16 [0x0D, 0x0A]) := by decide

theorem test_decode_chSetto : decodeTableWord 32 0x23001388 = some (.chSetto 5000) := by decide

theorem test_decode_pqRecv : decodeTableWord 32 0x300F0001 = some (.pqRecv 15 1) := by decide

theorem test_decode_bdSend : decode (.request 0x31030002 [0x68, 0x69]) = some (.bdSend 3 [0x68, 0x69]) := by decide

theorem test_decode_pqFlush : decodeTableWord 32 0x32050000 = some (.pqFlush 5) := by decide

theorem test_decode_sysRdstat : decodeTableWord 32 0x40000000 = some .sysRdstat := by decide

theorem test_decode_sysRdevt : decodeTableWord 32 0x41000000 = some .sysRdevt := by decide

/-- The frame of R110 for connection 3 with no payload byte: `1B 5A 33 30 30 30 30`. -/
theorem test_decode_wireBulkFrame :
    decodeTableWord 56 0x1B5A3330303030 = some (.wireBulkFrame 0x33 0x30 0x30 0x30 0x30 []) := by decide

theorem test_decode_wireDataAccepted : decodeTableWord 16 0x1B4F = some .wireDataAccepted := by decide

/-- Reserved bits and undefined `opc` values select no row (R107). -/
theorem test_decode_refuses_reserved :
    decodeTableWord 32 0x01010141 = none ∧ decodeTableWord 32 0x20010000 = none ∧ decodeTableWord 32 0x30130002 = none ∧
      decodeTableWord 32 0x00000000 = none ∧ decodeTableWord 32 0xFF000000 = none := by decide

theorem test_decode_refuses_wrong_payload_length : decode (.request 0x10020000 [0x41]) = none := by decide

/-! ### Small states -/

/-- Small rings, else the reference parameters. -/
def cfg : Config := { Config.reference with rxN := 10, rspN := 4, nport := 2 }

/-- The block just reset, with small rings. -/
def base : State := State.initial cfg [] 0

/-- The state after some chosen steps, port 0 to be served next. -/
def after (acts : List Action) : State := { performAll acts base with cur := 0 }

/-- The state after some chosen steps, with the next step chosen. -/
def before (acts : List Action) (a : Action) : State := { after acts with script := [a] }

/-- What port 0 has been answered. -/
def answers (s : State) : List (Word × List Byte) := (s.port 0).resps.map fun r => (r.res, r.data)

/-- The state an outcome goes on to. -/
def nextOf : Host.Outcome State Fault Refusal → State
  | .next t => t
  | .fault _ => base
  | .refused _ => base

/-- A frame of connection 3 with the payload `61 62`. -/
def frame2 : List Byte := [0x1B, 0x5A, 0x33, 0x30, 0x30, 0x30, 0x32, 0x61, 0x62]

/-! ### One step of each instruction, and of each agent -/

/-- R147: a full ring loses its oldest byte and raises RSP_OVF. -/
theorem test_rbPush_full :
    let t := nextOf (exec (.rbPush .rsp 0x45) (after (List.replicate 4 (.issue 1 0x01010041 []))))
    t.rsp.live 4 = [0x41, 0x41, 0x41, 0x45] ∧ t.status = 2 ∧ answers t = [(0, [])] := by decide

/-- R148. -/
theorem test_rbPop :
    answers (nextOf (exec (.rbPop .rsp) (after [.issue 1 0x01010041 []]))) = [(0x41, [])] ∧
      answers (nextOf (exec (.rbPop .rsp) base)) = [(0x3000FFFF, [])] := by decide

/-- R149. -/
theorem test_rbEmpty :
    answers (nextOf (exec (.rbEmpty .rsp) base)) = [(1, [])] ∧
      answers (nextOf (exec (.rbEmpty .rsp) (after [.issue 1 0x01010041 []]))) = [(0, [])] := by decide

/-- R150: across the end of the store, and beyond the history. -/
theorem test_rbRewind :
    let s := after ((List.replicate 5 (.issue 1 0x01010041 [])) ++ [.issue 1 0x02010000 []])
    (nextOf (exec (.rbRewind .rsp 1) s)).rsp.count = 4 ∧ (nextOf (exec (.rbRewind .rsp 1) s)).rsp.tail = 1 ∧
      answers (nextOf (exec (.rbRewind .rsp 2) s)) = [(0x4000FFFF, [])] := by decide

/-- R151, R263: TIMEOUT + 1. -/
theorem test_rbGetc : ((nextOf (exec (.rbGetc .rsp) base)).port 0).op = .getc .rsp 101 := by decide

/-- R163. -/
theorem test_smLoad :
    ((nextOf (exec (.smLoad [0x41, 0x42]) base)).port 0).em = { pat := [0x41, 0x42], cur := 0 } ∧
      answers (nextOf (exec (.smLoad []) base)) = [(0x4000FFFF, [])] := by decide

/-- R164, V-SM: `AAB` of `AB`. -/
theorem test_smFeed :
    answers (after [.issue 0 0x10020000 [0x41, 0x42], .issue 0 0x11000041 [], .issue 0 0x11000041 [], .issue 0 0x11000042 []]) =
      [(2, []), (0, []), (0, []), (1, [])] := by decide

/-- R191. -/
theorem test_chSend :
    let s := after [.issue 0 0x20000002 [0x41, 0x42], .cli 0 true, .cli 0 true]
    s.txOwner = some 0 ∧ s.txLog = [0x41] ∧ answers (perform (.cli 0 false) s) = [(0x20000001, [])] := by decide

/-- R194: expiry wins over data. -/
theorem test_chRecv :
    answers (after [.issue 0 0x23000000 [], .issue 0 0x21010000 [0x4F], .issue 1 0x0101004F [], .tick, .cli 0 true]) =
      [(0, []), (0x10000000, [])] := by decide

/-- R195: the delimiter is trimmed. -/
theorem test_chReadtill :
    answers (after [.issue 0 0x22010003 [0x0A], .issue 1 0x01010031 [], .issue 1 0x0101000A [], .cli 0 true, .cli 0 true]) =
      [(1, [0x31])] := by decide

/-- R196. -/
theorem test_chSetto : (nextOf (exec (.chSetto 5000) base)).timeout = 5000 := by decide

/-- R218: partial consumption. -/
theorem test_pqRecv :
    let s := after ([.rx frame2] ++ List.replicate 10 .disp ++ [.issue 0 0x30030001 [], .cli 0 true])
    answers s = [(1, [0x61])] ∧ s.queue 3 = [{ cid := 3, data := [0x61, 0x62], off := 1, len := 1 }] := by decide

/-- R220, V-BD: the frame `1B 5A 33 30 30 30 32 68 69`. -/
theorem test_bdSend :
    ((nextOf (exec (.bdSend 3 [0x68, 0x69]) base)).port 0).op =
      .send [0x1B, 0x5A, 0x33, 0x30, 0x30, 0x30, 0x32, 0x68, 0x69] 0 .lock true 2 := by decide

/-- R220, R45, and step 2 of P5: the closing emit step frees the lock, loads `1B 4F` and waits with the timer 101 (log entry 18). -/
theorem test_bdSend_closing :
    let frame : List Byte := [0x1B, 0x5A, 0x33, 0x30, 0x30, 0x30, 0x32, 0x68, 0x69]
    let s := perform (.cli 0 true) { base with
      txOwner := some 0, ports := recorded base 0 (.send frame 9 .emit true 2) }
    s.txOwner = none ∧ (s.port 0).em = { pat := [0x1B, 0x4F], cur := 0 } ∧ (s.port 0).op = .tokwait 2 101 := by decide

/-- R221. -/
theorem test_pqFlush :
    let t := nextOf (exec (.pqFlush 3) (after ([.rx frame2] ++ List.replicate 10 .disp)))
    answers t = [(1, [])] ∧ t.queue 3 = [] := by decide

/-- R240: the flags stay. -/
theorem test_sysRdstat :
    let t := nextOf (exec .sysRdstat { base with status := 0x1F })
    answers t = [(0x1F, [])] ∧ t.status = 0x1F := by decide

/-- R241: read and clear. -/
theorem test_sysRdevt :
    let t := nextOf (exec .sysRdevt { base with events := 0x8001 })
    answers t = [(0x8001, [])] ∧ t.events = 0 := by decide

/-- R110, R146. -/
theorem test_wireBulkFrame :
    (nextOf (exec (.wireBulkFrame 0x33 0x30 0x30 0x30 0x32 [0x61, 0x62]) base)).rx.live 10 = frame2 := by decide

/-- R111. -/
theorem test_wireDataAccepted : (nextOf (exec .wireDataAccepted base)).rx.live 10 = [0x1B, 0x4F] := by decide

/-- The hooks: the placed word is the next instruction, on port 0 (log entry 3). -/
theorem test_withFetchWord :
    answers (nextOf (step (State.reset.withFetchWord 32 0x02010000))) = [(0x3000FFFF, [])] := by decide

/-- The same for a wire format. -/
theorem test_withFetchWord_wire : (nextOf (step (State.reset.withFetchWord 16 0x1B4F))).rx.count = 2 := by decide

/-! ### Witnesses -/

theorem witness_DecodeOfEncodeGivesInstruction :
    (Instr.smLoad (List.replicate 255 0x41)).wellFormed = true ∧ (Instr.chSend []).wellFormed = true ∧
      (Instr.wireBulkFrame 0x33 0x30 0x30 0x30 0x31 [0x61]).wellFormed = true := by decide +kernel

theorem witness_EncodeOfDecodeGivesWord :
    decode (.request 0x31030002 [0x68, 0x69]) = some (.bdSend 3 [0x68, 0x69]) ∧
      decode (.wire [0x1B, 0x4F]) = some .wireDataAccepted := by decide

/-- The greatest lengths; a header with the id in upper case at the bound of PKT_MAX, one beyond it, one with a letter past `F`. -/
theorem witness_BulkHeaderRoundTrip :
    2048 ≤ min 9999 Config.reference.pktMax ∧ 9999 ≤ min 9999 9999 ∧
      headerRead 2048 [0x46, 0x32, 0x30, 0x34, 0x38] = some (15, 2048) ∧ headerRead 2048 [0x46, 0x32, 0x30, 0x34, 0x39] = none ∧
      headerRead 2048 [0x47, 0x30, 0x30, 0x30, 0x31] = none ∧ headerRead 2048 [0x66, 0x30, 0x30, 0x3A, 0x31] = none := by decide

theorem witness_PrintedOperationReadsBack :
    (Instr.smFeed 0x41).wellFormed = true ∧
      printOperation (.smFeed 0x41) =
        some ['s', 'm', '.', 'f', 'e', 'e', 'd', ' ', '0', 'x', '0', '0', '4', '1'] := by decide

theorem witness_StepRunsTheDecodedInstruction :
    (before [] (.issue 0 0x02010000 [])).script = [.issue 0 0x02010000 []] ∧ 0 < (before [] (.issue 0 0x02010000 [])).ports.length ∧
      ((before [] (.issue 0 0x02010000 [])).port 0).op = .idle ∧ decode (.request 0x02010000 []) = some (.rbPop .rsp) ∧
      (before [] (.rx [0x1B, 0x4F])).script = [.rx [0x1B, 0x4F]] ∧ decode (.wire [0x1B, 0x4F]) = some .wireDataAccepted := by decide

/-- A word with a reserved bit set, and one with an undefined `opc`; the payload of the first kind is consumed. -/
theorem witness_IllegalRequestAnswersIllegal :
    (before [] (.issue 1 0x20010001 [0x41])).script = [.issue 1 0x20010001 [0x41]] ∧
      1 < (before [] (.issue 1 0x20010001 [0x41])).ports.length ∧ ((before [] (.issue 1 0x20010001 [0x41])).port 1).op = .idle ∧
      [0x41#8].length = payloadLen 0x20010001 ∧
      (∀ o ∈ Op.all, 0x20010001#32 &&& (Op.matchMask o).2 ≠ (Op.matchMask o).1) ∧
      ([] : List Byte).length = payloadLen 0xFF000000 ∧ (∀ o ∈ Op.all, 0xFF000000#32 &&& (Op.matchMask o).2 ≠ (Op.matchMask o).1) := by
  decide

theorem all_ops (o : Op) : o ∈ Op.all := by cases o <;> decide

theorem witness_BusyPortAcceptsNoRequest :
    ((before [.issue 0 0x05010000 []] (.issue 0 0x02010000 [])).script = [.issue 0 0x02010000 []] ∧
      ((before [.issue 0 0x05010000 []] (.issue 0 0x02010000 [])).port 0).op ≠ .idle) ∧
    (encode (.rbPop .rsp) = .request 0x02010000 [] ∧ ((after [.issue 0 0x05010000 []]).port 0).op ≠ .idle ∧
      (after [.issue 0 0x05010000 []]).cur = 0 ∧ base.ports.length ≤ 2) := by decide

/-- What it says there. -/
theorem test_exec_busy : exec (.rbPop .rsp) (after [.issue 0 0x05010000 []]) = .refused .portBusy := rfl

theorem base_ready : Ready base := ⟨by decide, by decide⟩

/-- Both clauses, at the bounds of each operand. -/
theorem witness_OutOfRangeRequestAnswersRange :
    Ready base ∧ base.cfg.pmax = 32 ∧ ([] : List Byte).length = 0 ∧ base.cfg.pmax < (List.replicate 33 0x41#8).length ∧
      ¬ base.cfg.pmax < (List.replicate 32 0x41#8).length ∧ (base.port base.cur).em.pat = [] ∧ (base.ring .rsp).hist < (1#16).toNat ∧
      ¬ (base.ring .rsp).hist < (0#16).toNat ∧ 9999 < (List.replicate 10000 0x41#8).length ∧
      ¬ 9999 < (List.replicate 9999 0x41#8).length := by
  refine ⟨base_ready, ?_⟩
  simp only [List.length_replicate]
  decide

/-- A ring of capacity 4 with one byte unread and one in the history. -/
def partRing : Ring := (after [.issue 1 0x01010041 [], .issue 1 0x01010042 [], .issue 1 0x02010000 []]).rsp

/-- A full ring of capacity 4. -/
def fullRing : Ring := (after (List.replicate 5 (.issue 1 0x01010041 []))).rsp

theorem partRing_inv : RingInv 4 partRing :=
  ⟨by decide, by decide, by decide, by decide, by decide, by decide⟩

theorem fullRing_inv : RingInv 4 fullRing :=
  ⟨by decide, by decide, by decide, by decide, by decide, by decide⟩

theorem witness_RingPushKeepsNewestBytes :
    RingInv (Config.ringN cfg .rsp) partRing ∧ partRing.count < 4 ∧ RingInv (Config.ringN cfg .rsp) fullRing ∧ fullRing.count = 4 :=
  ⟨partRing_inv, by decide, fullRing_inv, by decide⟩

theorem witness_RingPopTakesOldestByte :
    RingInv 4 partRing ∧ (Ring.pop 4 partRing).isSome = true ∧ Ring.pop 4 Ring.init = none :=
  ⟨partRing_inv, by decide, by decide⟩

theorem witness_RingRewindRestoresBytes :
    RingInv 4 partRing ∧ (Ring.rewind 4 partRing 1).isSome = true ∧ Ring.rewind 4 partRing 2 = none :=
  ⟨partRing_inv, by decide, by decide⟩

theorem witness_RingOperationsKeepRingInvariant : 1 ≤ 4 ∧ RingInv 4 partRing := ⟨by decide, partRing_inv⟩

theorem witness_OverrunKeepsLastBytes :
    RingInv 4 Ring.init ∧ Ring.init.count = 0 ∧ 4 < [1#8, 2, 3, 4, 5, 6].length :=
  ⟨⟨by decide, by decide, by decide, by decide, by decide, by decide⟩, by decide, by decide⟩

/-- One feed in each of the four cases, the cursor at both ends of its range, and the properties' hypotheses. -/
theorem witness_MatcherReportsNoFalseMatch :
    (smFeed [0x41, 0x42] 1 0x42 = (0, true) ∧ smFeed [0x41, 0x42] 0 0x41 = (1, false) ∧ smFeed [0x41, 0x42] 1 0x41 = (1, false) ∧
      smFeed [0x41, 0x42] 1 0x43 = (0, false) ∧ smFeed [0x41, 0x42] 0 0x43 = (0, false)) ∧
    [0x41#8, 0x42] ≠ [] ∧ (smFeed [0x41, 0x42] (feedFrom [0x41, 0x42] 0 [0x41, 0x41]) 0x42).2 = true ∧ [0x41#8].length = 1 := by
  decide

theorem witness_MatcherMissesNothingOfDistinctStart :
    0x1B#8 ∉ [0x5A#8] ∧ [0x1B#8, 0x5A] <:+ [0x1B, 0x1B] ++ [0x5A] := by decide

theorem witness_RbPushStoresByteAndAnswersOk : Ready base ∧ Memory.wf (base.ring .rsp).store = true := ⟨base_ready, by decide⟩

theorem witness_RbPopAnswersByteOrEmpty :
    Ready base ∧ (base.ring .rsp).count = 0 ∧ Ready (after [.issue 0 0x01010041 []]) ∧
      ((after [.issue 0 0x01010041 []]).ring .rsp).count ≠ 0 :=
  ⟨base_ready, by decide, ⟨by decide, by decide⟩, by decide⟩

theorem witness_RbEmptyAnswersCountIsZero : Ready base ∧ (base.ring .rx).count = 0 := ⟨base_ready, by decide⟩

theorem witness_RbGetcAndPqRecvRecordTheirWait : Ready base := base_ready

/-- The longest payload of a frame. -/
theorem witness_SendsRecordStringAwaitingLock : Ready base ∧ (List.replicate 9999 0x41#8).length ≤ 9999 :=
  ⟨base_ready, by rw [List.length_replicate]⟩

theorem witness_ChSettoWritesTimeout : Ready base := base_ready

theorem witness_PqFlushEmptiesOneQueue :
    Ready (after ([.rx frame2] ++ List.replicate 10 .disp)) ∧ ((after ([.rx frame2] ++ List.replicate 10 .disp)).queue 3).length = 1 :=
  ⟨⟨by decide, by decide⟩, by decide⟩

theorem witness_StatusAndEventReads : Ready base := base_ready

theorem witness_RbRewindMovesTailBack :
    let s := after [.issue 1 0x01010041 [], .issue 1 0x01010042 [], .issue 1 0x02010000 []]
    (s.cur < s.ports.length ∧ (s.port s.cur).op = .idle) ∧ RingInv (Config.ringN s.cfg .rsp) (s.ring .rsp) ∧
      (1#16).toNat ≤ (s.ring .rsp).hist ∧ (s.ring .rsp).hist < (2#16).toNat :=
  ⟨by decide, partRing_inv, by decide, by decide⟩

theorem witness_SmLoadReplacesPattern :
    Ready base ∧ 1 ≤ [0x41#8].length ∧ (List.replicate 32 0x41#8).length ≤ base.cfg.pmax ∧
      base.cfg.pmax < (List.replicate 33 0x41#8).length := ⟨base_ready, by decide, by decide, by decide⟩

theorem witness_SmFeedStoresCursorAndAnswersMatch :
    Ready (after [.issue 0 0x10020000 [0x41, 0x42]]) ∧
      ((after [.issue 0 0x10020000 [0x41, 0x42]]).port (after [.issue 0 0x10020000 [0x41, 0x42]]).cur).em.pat ≠ [] ∧
      Ready base ∧ (base.port base.cur).em.pat = [] :=
  ⟨⟨by decide, by decide⟩, by decide, base_ready, by decide⟩

theorem witness_ReceivesLoadMatcherAndTimer :
    Ready base ∧ 1 ≤ [0x4F#8, 0x4B].length ∧ [0x4F#8, 0x4B].length ≤ base.cfg.pmax ∧ (0xFFFF#16) ≠ 0 :=
  ⟨base_ready, by decide, by decide, by decide⟩

theorem base_ring_inv : RingInv base.cfg.rxN base.rx := ⟨by decide, by decide, by decide, by decide, by decide, by decide⟩

/-- Room for all, no push finding the ring full, and a second frame whose second push does. -/
theorem witness_WireFormatsArriveInOrder :
    (RingInv base.cfg.rxN base.rx ∧ base.rx.count + frame2.length ≤ base.cfg.rxN) ∧
    (∀ k, k < frame2.length → ((frame2.take k).foldl (fun r b => Ring.push base.cfg.rxN r b) base.rx).count ≠ base.cfg.rxN) ∧
    (1 < frame2.length ∧
      ((frame2.take 1).foldl (fun r b => Ring.push base.cfg.rxN r b) (after [.rx frame2]).rx).count = base.cfg.rxN) :=
  ⟨⟨base_ring_inv, by decide⟩, by decide, by decide⟩

/-- The three clauses: a byte present, timed out, blocked. -/
theorem witness_GetcPrefersDataToTimeout :
    (let s := before [.issue 0 0x05010000 [], .issue 1 0x01010041 []] (.cli 0 true);
      s.script = [.cli 0 true] ∧ (s.port 0).op = .getc .rsp 101 ∧ (s.ring .rsp).count ≠ 0) ∧
    (let s := before [.issue 0 0x23000000 [], .issue 0 0x05010000 [], .tick] (.cli 0 true);
      (s.port 0).op = .getc .rsp 0 ∧ (s.ring .rsp).count = 0) ∧
    (let s := before [.issue 0 0x05010000 []] (.cli 0 true);
      (s.port 0).op = .getc .rsp 101 ∧ (s.ring .rsp).count = 0) := by decide

/-- The lock free, and held by the other port. -/
theorem witness_LockStepNeedsFreeLock :
    (let s := before [.issue 0 0x20000001 [0x41]] (.cli 0 true);
      (s.port 0).op = .send [0x41] 0 .lock false 0 ∧ s.txOwner = none) ∧
    (let s := before [.issue 0 0x20000001 [0x41], .issue 1 0x20000001 [0x42], .cli 1 true] (.cli 0 true);
      (s.port 0).op = .send [0x41] 0 .lock false 0 ∧ s.txOwner ≠ none) := by decide

/-- A byte to emit, none left of `CH.SEND`, none left of `BD.SEND`. -/
theorem witness_EmitStepSendsOneByte :
    (let s := before [.issue 0 0x20000001 [0x41], .cli 0 true] (.cli 0 true);
      s.script = [.cli 0 true] ∧ (s.port 0).op = .send [0x41] 0 .emit false 0 ∧ [0x41#8][0]? = some 0x41) ∧
    (let s := before [.issue 0 0x20000001 [0x41], .cli 0 true] (.cli 0 false);
      (s.port 0).op = .send [0x41] 0 .emit false 0 ∧ 0 < [0x41#8].length) ∧
    (let s := before [.issue 0 0x20000001 [0x41], .cli 0 true, .cli 0 true] (.cli 0 true);
      (s.port 0).op = .send [0x41] 1 .emit false 0 ∧ 1 = [0x41#8].length) ∧
    (let s := before (.issue 0 0x31030000 [] :: List.replicate 8 (.cli 0 true)) (.cli 0 true);
      (s.port 0).op = .send [0x1B, 0x5A, 0x33, 0x30, 0x30, 0x30, 0x30] 7 .emit true 0) := by decide

theorem witness_ChSendEmitsWholeString : Ready base ∧ base.txOwner = none := ⟨base_ready, by decide⟩

/-- Both operations, and the three clauses. -/
theorem witness_RecvPullsOneByteUntilMatch :
    (let s := before [.issue 0 0x21010000 [0x4F], .issue 1 0x0101004F []] (.cli 0 true);
      (s.port 0).op = .recv 101 ∧ s.rsp.count ≠ 0) ∧
    (let s := before [.issue 0 0x21010000 [0x4F]] (.cli 0 true);
      (s.port 0).op = .recv 101 ∧ s.rsp.count = 0) ∧
    (let s := before [.issue 0 0x23000000 [], .issue 0 0x21010000 [0x4F], .tick] (.cli 0 true);
      (s.port 0).op = .recv 0) ∧
    (let s := before (.issue 0 0x31030000 [] :: List.replicate 9 (.cli 0 true)) (.cli 0 true);
      (s.port 0).op = .tokwait 0 101) := by decide

/-- Expired, empty, the delimiter, the limit, neither. -/
theorem witness_ReadtillTrimsDelimiterBeforeLimit :
    (let s := before [.issue 0 0x23000000 [], .issue 0 0x22010002 [0x0A], .tick] (.cli 0 true);
      (s.port 0).op = .readtill 2 [] 0) ∧
    (let s := before [.issue 0 0x22010002 [0x0A]] (.cli 0 true);
      (s.port 0).op = .readtill 2 [] 101 ∧ s.rsp.count = 0) ∧
    (let s := before [.issue 0 0x22010002 [0x0A], .issue 1 0x01010031 []] (.cli 0 true);
      (s.port 0).op = .readtill 2 [] 101 ∧ s.rsp.count ≠ 0 ∧ (smFeed (s.port 0).em.pat (s.port 0).em.cur 0x31).2 = false) ∧
    (let s := before [.issue 0 0x22010002 [0x0A], .issue 1 0x01010031 [], .cli 0 true, .issue 1 0x01010032 []] (.cli 0 true);
      (s.port 0).op = .readtill 2 [0x31] 101 ∧ s.rsp.count ≠ 0) ∧
    (let s := before [.issue 0 0x22010002 [0x0A], .issue 1 0x0101000A []] (.cli 0 true);
      s.rsp.count ≠ 0 ∧ (smFeed (s.port 0).em.pat (s.port 0).em.cur 0x0A).2 = true) := by decide

/-- No packet and expired, no packet and waiting, a packet that fits and one that does not. -/
theorem witness_PqRecvConsumesHeadPacket :
    (let s := before [.issue 0 0x23000000 [], .issue 0 0x30030001 [], .tick] (.cli 0 true);
      (s.port 0).op = .pqrecv 3 1 0 ∧ s.queue 3 = []) ∧
    (let s := before [.issue 0 0x30030001 []] (.cli 0 true);
      (s.port 0).op = .pqrecv 3 1 101 ∧ s.queue 3 = []) ∧
    (let s := before ([.rx frame2] ++ List.replicate 10 .disp ++ [.issue 0 0x30030001 []]) (.cli 0 true);
      (s.port 0).op = .pqrecv 3 1 101 ∧ s.queue 3 = [{ cid := 3, data := [0x61, 0x62], off := 0, len := 2 }]) ∧
    (let s := before ([.rx frame2] ++ List.replicate 10 .disp ++ [.issue 0 0x30030002 []]) (.cli 0 true);
      (s.port 0).op = .pqrecv 3 2 101 ∧ s.queue 3 ≠ []) := by decide

/-! ### A check that implies the invariants, so that concrete states can be shown to meet them -/

/-- `RingInv`, decided. -/
def ringCheck (n : Nat) (r : Ring) : Prop :=
  r.head < n ∧ r.tail < n ∧ r.head = (r.tail + r.count) % n ∧ r.count + r.hist ≤ n ∧ Memory.wf r.store = true ∧ ∀ c ∈ r.store, c.1 < n

/-- The dispatcher's cursors and window, decided. -/
def cursorCheck (s : State) : Prop :=
  s.mcur.length = s.cfg.reg.length ∧
  (∀ x ∈ s.cfg.reg.zip s.mcur, x.2 < x.1.pat.length) ∧
  (s.disp.phase = .scan → s.disp.hold.length = s.mcur.foldr max 0 ∧
    ∀ x ∈ s.cfg.reg.zip s.mcur, s.disp.hold.drop (s.disp.hold.length - x.2) = x.1.pat.take x.2) ∧
  (s.disp.phase ≠ .scan → s.disp.hold = [] ∧ ∀ c ∈ s.mcur, c = 0)

/-- The frame registers, decided. -/
def frameCheck (s : State) : Prop :=
  s.disp.fHdr.length ≤ 5 ∧ (s.disp.phase = .hdr → s.disp.fHdr.length < 5) ∧ s.disp.fLen ≤ s.cfg.pktMax ∧
  s.disp.fBuf.length ≤ s.cfg.pktMax ∧ (s.disp.phase = .payload → s.disp.fBuf.length < s.disp.fLen) ∧
  (s.disp.phase = .putWait → s.disp.fBuf.length = s.disp.fLen) ∧ s.disp.t ≤ 65536

/-- `QueueInv`, decided. -/
def queueCheck (s : State) : Prop :=
  ∀ c : BitVec 4, (s.queue c).length ≤ Config.qcap ∧
    (∀ p ∈ s.queue c, p.cid = c ∧ p.off + p.len = p.data.length ∧ p.data.length ≤ s.cfg.pktMax) ∧
    ∀ p ∈ (s.queue c).tail, p.off = 0

/-- `LockInv` and `FlagInv`, decided. -/
def flagCheck (s : State) : Prop :=
  (∀ p ∈ s.txOwner.toList, p < s.ports.length) ∧
  (∀ p, p < s.ports.length → (emitting (s.port p).op = true ↔ s.txOwner = some p)) ∧
  (∀ i, i < 16 → 5 ≤ i → s.status.getLsbD i = false) ∧
  ∀ i, i < 16 → s.events.getLsbD i = true → (s.cfg.reg[i]?).map Registration.handler = some .event

theorem ringInv_of {n : Nat} {r : Ring} (h : ringCheck n r) : RingInv n r :=
  ⟨h.1, h.2.1, h.2.2.1, h.2.2.2.1, h.2.2.2.2.1, h.2.2.2.2.2⟩

theorem mem_zip {s : State} {i c : Nat} {r : Registration} (h1 : s.cfg.reg[i]? = some r) (h2 : s.mcur[i]? = some c) :
    (r, c) ∈ s.cfg.reg.zip s.mcur :=
  List.mem_of_getElem? (List.getElem?_zip_eq_some.2 ⟨h1, h2⟩)

theorem inv_of {s : State} (hc : s.cfg.wf = true) (hx : ringCheck s.cfg.rxN s.rx) (hr : ringCheck s.cfg.rspN s.rsp)
    (hm : cursorCheck s) (hf : frameCheck s) (hq : queueCheck s) (hn : s.ports.length = s.cfg.nport)
    (hp : ∀ o ∈ s.ports, PortInv s.cfg.pmax o) (hl : flagCheck s) : Inv s where
  config := hc
  rx := ringInv_of hx
  rsp := ringInv_of hr
  disp := ⟨hm.1, fun _ _ _ h1 h2 => hm.2.1 _ (mem_zip h1 h2), fun h => (hm.2.2.1 h).1,
    fun h _ _ _ h1 h2 => (hm.2.2.1 h).2 _ (mem_zip h1 h2), hm.2.2.2, hf.1, hf.2.1, hf.2.2.1, hf.2.2.2.1, hf.2.2.2.2.1,
    hf.2.2.2.2.2.1, hf.2.2.2.2.2.2⟩
  queues := ⟨fun c => (hq c).1, fun c p h => ⟨((hq c).2.1 p h).1, ((hq c).2.1 p h).2.1, ((hq c).2.1 p h).2.2⟩,
    fun c => (hq c).2.2⟩
  portCount := hn
  ports := hp
  lock := ⟨fun p h => hl.1 p (by simp [h]), hl.2.1⟩
  flags := by
    refine ⟨fun i h => ?_, fun i h => ?_⟩
    · by_cases hi : i < 16
      · exact hl.2.2.1 i hi h
      · exact BitVec.getLsbD_of_ge _ _ (by omega)
    · have hi : i < 16 := by
        by_contra hi
        rw [BitVec.getLsbD_of_ge _ _ (by omega)] at h
        cases h
      have := hl.2.2.2 i hi h
      simpa using this

/-! ### A state in the middle of things: a byte held by the dispatcher, a marker half read, a port waiting -/

/-- The invariants do not speak of the steps chosen. -/
theorem inv_script {s : State} (h : Inv s) (l : List Action) : Inv { s with script := l } where
  config := h.config
  rx := h.rx
  rsp := h.rsp
  disp := ⟨h.disp.cursors, h.disp.cursor_lt, h.disp.held, h.disp.claimed, h.disp.cleared, h.disp.header_le, h.disp.header_lt,
    h.disp.length_le, h.disp.buffer_le, h.disp.payload_lt, h.disp.complete_eq, h.disp.timer_le⟩
  queues := ⟨h.queues.bounded, h.queues.packets, h.queues.head_only⟩
  portCount := h.portCount
  ports := h.ports
  lock := h.lock
  flags := ⟨h.flags.status_reserved, h.flags.events_reserved⟩

/-- The dispatcher holds `1B`, `5A` is in RX, port 0 waits for `4F` and port 1 holds the TX lock. -/
def held : State := after [.issue 0 0x21010000 [0x4F], .issue 1 0x20000001 [0x41], .cli 1 true, .rx [0x1B, 0x5A], .disp]

/-- That state, with the next step chosen. -/
def mid (a : Action) : State := { held with script := [a] }

theorem held_inv : Inv held :=
  inv_of (by decide) (by unfold ringCheck; decide) (by unfold ringCheck; decide) (by unfold cursorCheck; decide)
    (by unfold frameCheck; decide) (by unfold queueCheck; decide) (by decide)
    (by
      have hp : held.ports = [
          { op := .recv 101, em := { pat := [0x4F], cur := 0 }, resps := [] },
          { op := .send [0x41] 0 .emit false 0, em := { pat := [], cur := 0 }, resps := [] }] := by decide
      rw [hp]
      intro o ho
      simp only [List.mem_cons, List.not_mem_nil, or_false] at ho
      rcases ho with rfl | rfl
      · exact ⟨by decide, by decide, by simp [OpInv], by simp⟩
      · exact ⟨by decide, by decide, by simp [OpInv], by simp⟩)
    (by unfold flagCheck; decide)

theorem mid_inv (a : Action) : Inv (mid a) := inv_script held_inv _

theorem witness_EveryStepKeepsInvariant : Inv (mid .disp) ∧ (nextOf (step (mid .disp))).disp.phase = .hdr :=
  ⟨mid_inv _, by decide⟩

/-- Two event registrations `41 42` and `42`; `41` is held, and `b` is the next byte. -/
def watching (rspN : Nat) (b : Byte) : State :=
  { performAll [.rx [0x41, b], .disp]
      (State.initial { cfg with rspN := rspN, reg := [⟨[0x41, 0x42], .event⟩, ⟨[0x42], .event⟩] } [] 0) with script := [.disp] }

theorem watching_inv (n : Nat) (b : Byte) (h : n = 4 ∧ b = 0x42 ∨ n = 4 ∧ b = 0x43 ∨ n = 1 ∧ b = 0x43) : Inv (watching n b) := by
  rcases h with ⟨rfl, rfl⟩ | ⟨rfl, rfl⟩ | ⟨rfl, rfl⟩
  all_goals
    refine inv_of (by decide) (by unfold ringCheck; decide) (by unfold ringCheck; decide) (by unfold cursorCheck; decide)
      (by unfold frameCheck; decide) (by unfold queueCheck; decide) (by decide) ?_ (by unfold flagCheck; decide)
    intro o ho
    have hp : o = Port.init := by
      simp only [watching, performAll, List.foldl] at ho
      exact List.eq_of_mem_replicate ho
    subst hp
    exact ⟨by decide, by decide, trivial, by simp [Port.init]⟩

/-- The hit by the bulk registration, a tie of two event registrations that the first wins, a byte that completes nothing, and the same
with RSP so small that the second released byte finds it full. -/
theorem witness_ScanRoutesEveryByte :
    (Inv (mid .disp) ∧ (mid .disp).script = [.disp] ∧ (mid .disp).disp.phase = .scan ∧ (mid .disp).rx.count ≠ 0 ∧
      (smFeed [0x1B, 0x5A] ((mid .disp).mcur.getD 0 0) (memRead (mid .disp).rx.store (mid .disp).rx.tail)).2 = true) ∧
    (Inv (watching 4 0x42) ∧ (watching 4 0x42).script = [.disp] ∧ (watching 4 0x42).disp.phase = .scan ∧
      (watching 4 0x42).rx.count ≠ 0 ∧ (nextOf (step (watching 4 0x42))).events = 1) ∧
    (Inv (watching 4 0x43) ∧ (watching 4 0x43).script = [.disp] ∧ (watching 4 0x43).disp.phase = .scan ∧
      (watching 4 0x43).rx.count ≠ 0 ∧ (nextOf (step (watching 4 0x43))).rsp.live 4 = [0x41, 0x43] ∧
      (nextOf (step (watching 4 0x43))).status = 0) ∧
    (Inv (watching 1 0x43) ∧ (watching 1 0x43).script = [.disp] ∧ (watching 1 0x43).disp.phase = .scan ∧
      (watching 1 0x43).rx.count ≠ 0 ∧ (nextOf (step (watching 1 0x43))).rsp.live 1 = [0x43] ∧
      (nextOf (step (watching 1 0x43))).status = 2) :=
  ⟨⟨mid_inv _, by decide, by decide, by decide, by decide⟩,
    ⟨watching_inv _ _ (by decide), by decide, by decide, by decide, by decide⟩,
    ⟨watching_inv _ _ (by decide), by decide, by decide, by decide, by decide, by decide⟩,
    watching_inv _ _ (by decide), by decide, by decide, by decide, by decide, by decide⟩

/-- A packet waits and port 0 receives one byte of it. -/
def receiving : State := before ([.rx frame2] ++ List.replicate 10 .disp ++ [.issue 0 0x30030001 []]) (.cli 0 true)

/-- A packet is complete and its queue has room. -/
def putting : State := before ([.rx frame2] ++ List.replicate 9 .disp) .disp

theorem queueInv_of {s : State} (h : queueCheck s) : QueueInv s :=
  ⟨fun c => (h c).1, fun c p hp => ⟨((h c).2.1 p hp).1, ((h c).2.1 p hp).2.1, ((h c).2.1 p hp).2.2⟩, fun c => (h c).2.2⟩

theorem witness_PqRecvLosesNoByte :
    (QueueInv receiving ∧ receiving.script = [.cli 0 true] ∧ (receiving.port 0).op = .pqrecv 3 1 101 ∧ receiving.queue 3 ≠ []) ∧
    (QueueInv putting ∧ putting.script = [.disp] ∧ putting.disp.phase = .putWait ∧ putting.disp.fBuf.length = putting.disp.fLen ∧
      (putting.queue putting.disp.fCid).length < 5) :=
  ⟨⟨queueInv_of (by unfold queueCheck; decide), by decide, by decide, by decide⟩,
    queueInv_of (by unfold queueCheck; decide), by decide, by decide, by decide, by decide⟩

/-- Asleep in each of its phases; the queue of a full connection holds five packets. -/
theorem witness_BlockedDispatcherTakesNoStep :
    (let s := before [] .disp;
      s.script = [.disp] ∧ s.disp.phase = .scan ∧ s.rx.count = 0) ∧
    (let s := before [.rx [0x1B, 0x5A], .disp, .disp] .disp;
      s.disp.phase = .hdr ∧ s.rx.count = 0 ∧ s.disp.t ≠ 0) ∧
    (let s := (before ([.rx frame2] ++ List.replicate 9 .disp) .disp).setQueue 3
        (List.replicate 5 { cid := 3, data := [], off := 0, len := 0 });
      s.script = [.disp] ∧ s.disp.phase = .putWait ∧ (s.queue s.disp.fCid).length = 5) := by decide

/-- Fewer than five bytes; a valid header with a length, a valid one without, one that is too long. -/
theorem witness_HeaderBytesAreReadThenJudged :
    (let s := before [.rx [0x1B, 0x5A, 0x33], .disp, .disp] .disp;
      s.script = [.disp] ∧ s.disp.phase = .hdr ∧ s.rx.count ≠ 0 ∧ (s.disp.fHdr ++ [0#8]).length < 5) ∧
    (let s := before ([.rx [0x1B, 0x5A, 0x33, 0x30, 0x30, 0x30, 0x32]] ++ List.replicate 6 .disp) .disp;
      s.disp.phase = .hdr ∧ s.disp.fHdr ++ [memRead s.rx.store s.rx.tail] = [0x33, 0x30, 0x30, 0x30, 0x32] ∧
      undec4 0x30 0x30 0x30 0x32 ≠ 0 ∧ undec4 0x30 0x30 0x30 0x32 ≤ s.cfg.pktMax) ∧
    (let s := before ([.rx [0x1B, 0x5A, 0x33, 0x30, 0x30, 0x30, 0x30]] ++ List.replicate 6 .disp) .disp;
      s.disp.fHdr ++ [memRead s.rx.store s.rx.tail] = [0x33, 0x30, 0x30, 0x30, 0x30] ∧ undec4 0x30 0x30 0x30 0x30 = 0) ∧
    (let s := before ([.rx [0x1B, 0x5A, 0x33, 0x32, 0x30, 0x34, 0x39]] ++ List.replicate 6 .disp) .disp;
      s.disp.fHdr ++ [memRead s.rx.store s.rx.tail] = [0x33, 0x32, 0x30, 0x34, 0x39] ∧
      undec4 0x32 0x30 0x34 0x38 = s.cfg.pktMax ∧ ¬ undec4 0x32 0x30 0x34 0x39 ≤ s.cfg.pktMax) := by decide

/-- Not the last payload byte, and the last. -/
theorem witness_PayloadBytesAreCollected :
    (let s := before ([.rx frame2] ++ List.replicate 7 .disp) .disp;
      s.script = [.disp] ∧ s.disp.phase = .payload ∧ s.rx.count ≠ 0 ∧ s.disp.fBuf.length + 1 ≠ s.disp.fLen) ∧
    (let s := before ([.rx frame2] ++ List.replicate 8 .disp) .disp;
      s.disp.phase = .payload ∧ s.rx.count ≠ 0 ∧ s.disp.fBuf.length + 1 = s.disp.fLen) := by decide

theorem witness_ShortReadAbandonsFrame :
    (let s := before [.issue 0 0x23000000 [], .rx [0x1B, 0x5A], .disp, .disp, .tick] .disp;
      s.script = [.disp] ∧ s.disp.phase = .hdr ∧ s.rx.count = 0 ∧ s.disp.t = 0) ∧
    (let s := before ([.issue 0 0x23000000 [], .rx [0x1B, 0x5A, 0x33, 0x30, 0x30, 0x30, 0x32]] ++ List.replicate 7 .disp ++ [.tick]) .disp;
      s.disp.phase = .payload ∧ s.rx.count = 0 ∧ s.disp.t = 0) := by decide

/-- Room in the queue; the full queue is the third witness of `BlockedDispatcherTakesNoStep`. -/
theorem witness_PutAppendsUnreadPacket :
    let s := before ([.rx frame2] ++ List.replicate 9 .disp) .disp
    s.script = [.disp] ∧ s.disp.phase = .putWait ∧ (s.queue s.disp.fCid).length < 5 := by decide

/-- A block that scans with an empty window while two ports are busy. -/
def scanning : State := after [.issue 0 0x21010000 [0x4F], .issue 1 0x20000001 [0x41], .cli 1 true]

theorem scanning_inv : Inv scanning :=
  inv_of (by decide) (by unfold ringCheck; decide) (by unfold ringCheck; decide) (by unfold cursorCheck; decide)
    (by unfold frameCheck; decide) (by unfold queueCheck; decide) (by decide)
    (by
      have hp : scanning.ports = held.ports := by decide
      have hc : scanning.cfg = held.cfg := by decide
      rw [hp, hc]
      exact held_inv.ports)
    (by unfold flagCheck; decide)

theorem witness_FrameBecomesPacketEndToEnd :
    Inv scanning ∧ scanning.cfg.reg = [{ pat := [0x1B, 0x5A], handler := .bulk }] ∧ scanning.disp.phase = .scan ∧
      scanning.disp.hold = [] ∧ scanning.rx.count = 0 ∧ [0x61#8, 0x62].length + 7 ≤ scanning.cfg.rxN ∧
      headerRead scanning.cfg.pktMax [0x33, 0x30, 0x30, 0x30, 0x32] = some (3, [0x61#8, 0x62].length) ∧
      (scanning.queue 15).length < 5 ∧ headerRead scanning.cfg.pktMax [0x46, 0x30, 0x30, 0x30, 0x30] = some (15, 0) ∧ (scanning.queue 3).length < 5 :=
  ⟨scanning_inv, by decide, by decide, by decide, by decide, by decide, by decide, by decide, by decide, by decide⟩

theorem witness_TickCountsActiveTimersDown :
    (before [.issue 0 0x05010000 [], .rx [0x1B, 0x5A], .disp, .disp] .tick).script = [.tick] ∧
      (before [.issue 0 0x05010000 [], .rx [0x1B, 0x5A], .disp, .disp] .tick).disp.t = 101 := by decide

/-- Two ticks and a dispatcher step while port 0 waits. -/
theorem witness_RecvTimerCountsEveryTick :
    let s := after [.issue 0 0x21010000 [0x4F]]
    (s.port 0).op = .recv 101 ∧ ((performAll ([.tick, .disp, .tick].take 0) s).port 0).op = .recv 101 ∧
      ((performAll ([.tick, .disp, .tick].take 1) s).port 0).op = .recv 100 ∧
      ((performAll ([.tick, .disp, .tick].take 2) s).port 0).op = .recv 100 ∧
      ((performAll [.tick, .disp, .tick] s).port 0).op = .recv 99 := by decide

theorem witness_ResetRestoresEveryElement :
    (mid .reset).script = [.reset] ∧ (mid .reset).rx.count = 1 ∧ (mid .reset).txOwner = some 1 := by decide

theorem witness_ResetMeetsInvariant : cfg.wf = true ∧ Config.reference.wf = true := by decide

theorem witness_EveryStepKeepsStoresCanonical :
    Memory.wf (mid .disp).rx.store = true ∧ Memory.wf (mid .disp).rsp.store = true ∧
      (nextOf (step (mid .disp))).rx.count = 0 := by decide

/-- A step that changes the phase. -/
theorem witness_PhaseTransitionsAreComplete :
    step (mid .disp) = .next (nextOf (step (mid .disp))) ∧ (nextOf (step (mid .disp))).disp.phase = .hdr := ⟨rfl, by decide⟩

/-- A step of each kind that changes a port: progress, issue, tick, reset. -/
theorem witness_PortsAreChangedOnlyByTheirOwnSteps :
    (step (mid (.cli 1 true)) = .next (nextOf (step (mid (.cli 1 true)))) ∧
      ((nextOf (step (mid (.cli 1 true)))).port 1).op = .send [0x41] 1 .emit false 0) ∧
    ((before [] (.issue 0 0x05010000 [])).port 0).op = .idle ∧
    ((nextOf (step (before [] (.issue 0 0x05010000 [])))).port 0).op = .getc .rsp 101 ∧
    ((nextOf (step (mid .tick))).port 0).op = .recv 100 ∧ ((nextOf (step (mid .reset))).port 0).op = .idle :=
  ⟨⟨rfl, by decide⟩, by decide, by decide, by decide, by decide⟩

/-- A byte is emitted while the lock invariant holds. -/
theorem witness_OnlyTheLockHolderEmits :
    LockInv (mid (.cli 1 true)) ∧ nextAction (mid (.cli 1 true)) = .cli 1 true ∧
      (nextOf (step (mid (.cli 1 true)))).txLog = [0x41] :=
  ⟨(mid_inv _).lock, by decide, by decide⟩

/-- The state of `mid` with FRAME_BAD set. -/
def flagged : State := { mid .tick with status := 4 }

theorem witness_FlagsAreStickyAndParametersFixed :
    step flagged = .next (nextOf (step flagged)) ∧ nextAction flagged ≠ .reset ∧ flagged.status.getLsbD 2 = true :=
  ⟨rfl, by decide, by decide⟩

/-- A tick, and the step that clears EVENTS. -/
theorem witness_OnlyTheDispatcherWritesItsState :
    (step (mid .tick) = .next (nextOf (step (mid .tick))) ∧ nextAction (mid .tick) ≠ .disp ∧ nextAction (mid .tick) ≠ .reset) ∧
    (let s := { before [] (.issue 0 0x41000000 []) with events := 1 };
      nextAction s = .issue 0 0x41000000 [] ∧ (s.port 0).op = .idle ∧ (nextOf (step s)).events = 0) :=
  ⟨⟨rfl, by decide, by decide⟩, by decide⟩

theorem witness_ChainStopsAtFirstFailure :
    Response.isOk { res := 0x1000FFFF, data := [] } = false ∧
      chainNext [.chSend [], .chRecv [0x4F]] [{ res := 0, data := [] }] = some (.chRecv [0x4F]) := by decide

/-! ### A fair execution -/

/-- Tick, dispatcher, port 0, port 1, and again. -/
def schedule (n : Nat) : Action :=
  if n % 4 = 0 then .tick else if n % 4 = 1 then .disp else if n % 4 = 2 then .cli 0 true else .cli 1 true

/-- Port 0 waits in `RB.GETC` with one tick left. -/
def waiting : State := after [.issue 0 0x23000000 [], .issue 0 0x05010000 []]

/-- The tick, then the progress step that times out; from there on nothing changes. -/
def fairRun (n : Nat) : State :=
  if n = 0 then waiting else if n ≤ 2 then perform .tick waiting else perform (.cli 0 true) (perform .tick waiting)

theorem settled_perform (a : Action) (h : a = .tick ∨ a = .disp ∨ a = .cli 0 true ∨ a = .cli 1 true) :
    perform a (perform (.cli 0 true) (perform .tick waiting)) = perform (.cli 0 true) (perform .tick waiting) := by
  rcases h with rfl | rfl | rfl | rfl <;> decide

theorem settled_cli (p : Nat) : cliEnabled p (perform (.cli 0 true) (perform .tick waiting)) = false := by
  have hl : (perform (.cli 0 true) (perform .tick waiting)).ports.length = 2 := by decide
  by_cases h : p < 2
  · interval_cases p <;> decide
  · simp [cliEnabled, hl, h]

theorem schedule_mem (n : Nat) :
    schedule n = .tick ∨ schedule n = .disp ∨ schedule n = .cli 0 true ∨ schedule n = .cli 1 true := by
  unfold schedule
  split
  · exact Or.inl rfl
  · split
    · exact Or.inr (Or.inl rfl)
    · split
      · exact Or.inr (Or.inr (Or.inl rfl))
      · exact Or.inr (Or.inr (Or.inr rfl))

theorem fairRun_settled (n : Nat) (h : 3 ≤ n) : fairRun n = perform (.cli 0 true) (perform .tick waiting) := by
  unfold fairRun
  rw [if_neg (by omega), if_neg (by omega)]

theorem fairRun_steps (n : Nat) : fairRun (n + 1) = perform (schedule n) (fairRun n) := by
  by_cases h : 3 ≤ n
  · rw [fairRun_settled n h, fairRun_settled (n + 1) (by omega)]
    exact (settled_perform _ (schedule_mem n)).symm
  · have h' : n < 3 := by omega
    interval_cases n
    · rfl
    · decide
    · rfl

theorem witness_TimedOperationsComplete : FairRun schedule fairRun ∧ timed ((fairRun 0).port 0).op = true := by
  refine ⟨⟨fairRun_steps, ?_, ?_, ?_⟩, by decide⟩
  · intro n _
    exact ⟨4 * n + 1, by omega, by simp [schedule, Nat.add_mod]⟩
  · intro p n h
    have := h (n + 3) (by omega)
    rw [fairRun_settled _ (by omega), settled_cli] at this
    cases this
  · intro n
    exact ⟨4 * n, by omega, by simp [schedule]⟩

end Sys2Proof.Tests
end

section
/-! PROOF. What a step can be, and the frame of each agent's step: the parameters, the STATUS flags, the TX log and the ports. -/

namespace Sys2Proof.Machine

/-! ### The decoder, as far as a step uses it -/

/-- A row that is found is one the word selects. -/
theorem decodeOp_opc {w : Word} {o : Op} (h : decodeOp w = some o) : w.opc = o.opc := by
  have hs := List.find?_some h
  simp only [Op.selects, Bool.and_eq_true, beq_iff_eq] at hs
  obtain ⟨⟨hopc, -⟩, -⟩ := hs
  exact hopc.symm

/-- A payload length that the field `a` carries is at most 255. -/
theorem payloadLen_le_of_a {w : Word} (h : w.opc = 0x10 ∨ w.opc = 0x21 ∨ w.opc = 0x22) : payloadLen w ≤ 255 := by
  rw [payloadLen, if_pos h]
  have := w.a.isLt
  omega

/-- Every payload length is at most 65535. -/
theorem payloadLen_le (w : Word) : payloadLen w ≤ 65535 := by
  have ha := w.a.isLt
  have hi := w.imm.isLt
  unfold payloadLen
  split
  · omega
  · split <;> omega

/-- What a request decodes to is well formed. -/
theorem decode_request_wellFormed {cmd : Word} {payload : List Byte} {i : Instr}
    (h : decode (.request cmd payload) = some i) : i.wellFormed = true := by
  simp only [decode, decodeRequest] at h
  split at h
  · rename_i hlen
    split at h
    · rename_i o ho
      have hopc := decodeOp_opc ho
      have hle := payloadLen_le cmd
      cases h
      cases o with
      | smLoad => simpa [Op.assemble, Instr.wellFormed, hlen] using payloadLen_le_of_a (.inl hopc)
      | chRecv => simpa [Op.assemble, Instr.wellFormed, hlen] using payloadLen_le_of_a (.inr (.inl hopc))
      | chReadtill => simpa [Op.assemble, Instr.wellFormed, hlen] using payloadLen_le_of_a (.inr (.inr hopc))
      | chSend => simpa [Op.assemble, Instr.wellFormed, hlen] using hle
      | bdSend => simpa [Op.assemble, Instr.wellFormed, hlen] using hle
      | _ => rfl
    · cases h
  · cases h

/-- A wire format that arrives whole is carried out as the arrival of its bytes. -/
theorem exec_of_decode_wire {bytes : List Byte} {i : Instr} (h : decode (.wire bytes) = some i) (s : State) :
    exec i s = .next (rxBytes bytes s) := by
  simp only [decode, decodeWire] at h
  split at h
  · split at h
    · rename_i hx
      obtain ⟨rfl, rfl⟩ := hx
      cases h
      rfl
    · cases h
  · split at h
    · rename_i hx
      obtain ⟨rfl, rfl, -⟩ := hx
      cases h
      rfl
    · cases h
  · cases h

/-! ### What a step can be -/

/-- The outcomes of one chosen step taken in the state `u` (R11, R14, R80): nothing where its agent has no enabled step, else the
step of that agent. -/
inductive Taken (u : State) : Action → State → Prop where
  | idle (a : Action) : Taken u a u
  | issue {p : Nat} {i : Instr} {t : State} (cmd : Word) (payload : List Byte) (ready : portReady p u = true)
      (wf : i.wellFormed = true) (next : exec i { u with cur := p } = .next t) : Taken u (.issue p cmd payload) t
  | illegal {p : Nat} (cmd : Word) (payload : List Byte) (ready : portReady p u = true) :
      Taken u (.issue p cmd payload) (complete p .illegal sentinel [] u)
  | rx (bytes : List Byte) : Taken u (.rx bytes) (rxBytes bytes u)
  | disp (enabled : dispEnabled u = true) : Taken u .disp (dispStep u)
  | cli {p : Nat} (accept : Bool) (enabled : cliEnabled p u = true) : Taken u (.cli p accept) (cliStep p accept u)
  | tick : Taken u .tick (tickStep u)
  | reset : Taken u .reset (resetStep u)

/-- An issue step is enabled on a ready port only. -/
theorem ready_of_issueEnabled {p : Nat} {cmd : Word} {payload : List Byte} {u : State}
    (h : issueEnabled p cmd payload u = true) : portReady p u = true := by
  rw [issueEnabled, Bool.and_eq_true] at h
  exact h.1

/-- A step of an agent other than a fetched instruction. -/
theorem agentStep_taken (a : Action) (u : State) : Taken u a (agentStep a u) := by
  cases a with
  | issue p cmd payload =>
    by_cases h : issueEnabled p cmd payload u = true
    · simpa [agentStep, h] using Taken.illegal cmd payload (ready_of_issueEnabled h)
    · simpa [agentStep, h] using Taken.idle _
  | rx bytes => exact .rx bytes
  | disp =>
    by_cases h : dispEnabled u = true
    · simpa [agentStep, h] using Taken.disp h
    · simpa [agentStep, h] using Taken.idle _
  | cli p accept =>
    by_cases h : cliEnabled p u = true
    · simpa [agentStep, h] using Taken.cli accept h
    · simpa [agentStep, h] using Taken.idle _
  | tick => exact .tick
  | reset => exact .reset

/-- A fetched instruction that is carried out. -/
theorem exec_taken {a : Action} {i : Instr} {u t : State} (hf : fetch a u = some i) (h : exec i (deliver a u) = .next t) :
    Taken u a t := by
  cases a with
  | issue p cmd payload =>
    simp only [fetch] at hf
    split at hf
    · rename_i hen
      exact .issue cmd payload (ready_of_issueEnabled hen) (decode_request_wellFormed hf) h
    · cases hf
  | rx bytes =>
    rw [exec_of_decode_wire hf] at h
    cases h
    exact .rx bytes
  | disp => cases hf
  | cli p accept => cases hf
  | tick => cases hf
  | reset => cases hf

/-- Every step of the block is an outcome of the environment's next choice. -/
theorem step_taken {s t : State} (h : step s = .next t) : Taken (advance s) (nextAction s) t := by
  cases hf : fetch (nextAction s) (advance s) with
  | none =>
    rw [step_of_fetch_none hf] at h
    cases h
    exact agentStep_taken _ _
  | some i =>
    rw [step_of_fetch_some hf] at h
    exact exec_taken hf h

/-- A choice that is used up changes no port. -/
@[simp] theorem advance_port (s : State) (p : Nat) : (advance s).port p = s.port p := by simp [State.port]

/-- A choice that is used up changes no timer load. -/
@[simp] theorem advance_timerLoad (s : State) : timerLoad (advance s) = timerLoad s := by simp [timerLoad]

/-! ### Steps that emit nothing -/

/-- From `s` to `t` the parameters and the TX log stay and no STATUS flag is cleared (R42, R47, R51). -/
structure Quiet (s t : State) : Prop where
  cfg : t.cfg = s.cfg
  txLog : t.txLog = s.txLog
  sticky : ∀ i, s.status.getLsbD i = true → t.status.getLsbD i = true

theorem Quiet.trans {s t u : State} (h : Quiet s t) (h' : Quiet t u) : Quiet s u :=
  ⟨h'.cfg.trans h.cfg, h'.txLog.trans h.txLog, fun i hi => h'.sticky i (h.sticky i hi)⟩

/-- From `s` to `t` no port changes either. -/
structure Inner (s t : State) : Prop extends Quiet s t where
  ports : t.ports = s.ports

namespace Inner

/-- A step that leaves the four elements alone. -/
theorem of_eq {s t : State} (hc : t.cfg = s.cfg) (hl : t.txLog = s.txLog) (hs : t.status = s.status)
    (hp : t.ports = s.ports) : Inner s t :=
  ⟨⟨hc, hl, fun i hi => by rwa [hs]⟩, hp⟩

theorem refl (s : State) : Inner s s := of_eq rfl rfl rfl rfl

theorem trans {s t u : State} (h : Inner s t) (h' : Inner t u) : Inner s u :=
  ⟨h.toQuiet.trans h'.toQuiet, h'.ports.trans h.ports⟩

theorem port {s t : State} (h : Inner s t) (p : Nat) : t.port p = s.port p := by simp [State.port, h.ports]

end Inner

/-- From `s` to `t` the TX log stays, and of the ports at most `p` has changed. -/
structure LocalTo (p : Nat) (s t : State) : Prop extends Quiet s t where
  count : t.ports.length = s.ports.length
  others : ∀ p', p' ≠ p → t.port p' = s.port p'

theorem Inner.localTo {s t : State} (h : Inner s t) (p : Nat) : LocalTo p s t :=
  ⟨h.toQuiet, by rw [h.ports], fun p' _ => h.port p'⟩

namespace LocalTo

variable {p : Nat}

theorem refl (s : State) : LocalTo p s s := (Inner.refl s).localTo p

theorem trans {s t u : State} (h : LocalTo p s t) (h' : LocalTo p t u) : LocalTo p s u :=
  ⟨h.toQuiet.trans h'.toQuiet, h'.count.trans h.count, fun p' hp => (h'.others p' hp).trans (h.others p' hp)⟩

theorem modifyPort (f : Port → Port) (s : State) : LocalTo p s (s.modifyPort p f) :=
  ⟨⟨rfl, rfl, fun _ h => h⟩, by simp, fun p' hp => modifyPort_port_other p p' f s (Ne.symm hp)⟩

end LocalTo

/-! ### The shared operations -/

theorem setFlag_inner (f : StatusFlag) (s : State) : Inner s (setFlag f s) :=
  ⟨⟨rfl, rfl, fun i hi => by simp [hi]⟩, rfl⟩

theorem timeout_inner (s : State) (ms : Half) : Inner s { s with timeout := ms } := .of_eq rfl rfl rfl rfl

theorem events_inner (s : State) (e : Half) : Inner s { s with events := e } := .of_eq rfl rfl rfl rfl

theorem txOwner_inner (s : State) (o : Option Nat) : Inner s { s with txOwner := o } := .of_eq rfl rfl rfl rfl

theorem matching_inner (s : State) (curs : List Nat) (d : Disp) : Inner s { s with mcur := curs, disp := d } :=
  .of_eq rfl rfl rfl rfl

theorem setQueue_inner (s : State) (c : BitVec 4) (l : List Packet) : Inner s (s.setQueue c l) := .of_eq rfl rfl rfl rfl

theorem setRing_inner (sel : RingSel) (r : Ring) (s : State) : Inner s (s.setRing sel r) :=
  .of_eq (by simp) (by simp) (by simp) (by simp)

theorem rbPush_inner (sel : RingSel) (b : Byte) (s : State) : Inner s (rbPush sel b s) := by
  unfold rbPush
  dsimp only
  split
  · exact (setRing_inner _ _ _).trans (setFlag_inner _ _)
  · exact setRing_inner _ _ _

theorem rbPop_inner {sel : RingSel} {b : Byte} {s t : State} (h : rbPop sel s = some (b, t)) : Inner s t := by
  obtain ⟨-, -, rfl⟩ := rbPop_eq_some h
  exact setRing_inner _ _ _

/-- What a successful shared rewind was. -/
theorem rbRewind_eq_some {sel : RingSel} {k : Nat} {s t : State} (h : rbRewind sel k s = some t) :
    ∃ r, Ring.rewind (Config.ringN s.cfg sel) (s.ring sel) k = some r ∧ t = s.setRing sel r := by
  unfold rbRewind at h
  split at h
  · rename_i r hr
    cases h
    exact ⟨r, hr, rfl⟩
  · cases h

theorem rbRewind_inner {sel : RingSel} {k : Nat} {s t : State} (h : rbRewind sel k s = some t) : Inner s t := by
  obtain ⟨r, -, rfl⟩ := rbRewind_eq_some h
  exact setRing_inner _ _ _

theorem rxBytes_inner (bytes : List Byte) (s : State) : Inner s (rxBytes bytes s) := by
  induction bytes generalizing s with
  | nil => exact .refl s
  | cons b bytes ih => exact (rbPush_inner .rx b s).trans (ih (rxByte b s))

theorem release_inner (bytes : List Byte) (s : State) : Inner s (release bytes s) := by
  induction bytes generalizing s with
  | nil => exact .refl s
  | cons b bytes ih => exact (rbPush_inner .rsp b s).trans (ih (rbPush .rsp b s))

/-! ### The port an operation works on -/

@[simp] theorem setOp_port {p : Nat} {s : State} (hp : p < s.ports.length) (op : PortOp) :
    (setOp p op s).port p = { s.port p with op := op } := modifyPort_port_self p _ s hp

@[simp] theorem loadMatcher_port {p : Nat} {s : State} (hp : p < s.ports.length) (pat : List Byte) :
    (loadMatcher p pat s).port p = { s.port p with em := { pat := pat, cur := 0 } } := modifyPort_port_self p _ s hp

@[simp] theorem feedMatcher_port {p : Nat} {s : State} (hp : p < s.ports.length) (b : Byte) :
    (feedMatcher p b s).port p =
      { s.port p with em := { (s.port p).em with cur := (smFeed (s.port p).em.pat (s.port p).em.cur b).1 } } :=
  modifyPort_port_self p _ s hp

@[simp] theorem complete_port {p : Nat} {s : State} (hp : p < s.ports.length) (st : StatusCode) (val : Half)
    (data : List Byte) : (complete p st val data s).port p =
      { s.port p with op := .idle, resps := (s.port p).resps ++ [{ res := resultWord st val, data := data }] } :=
  modifyPort_port_self p _ s hp

/-! ### What an issue step leaves on its port -/

/-- What the issue step of any operation does on the port `cur` (R44, R190). -/
structure Issued (s t : State) : Prop extends LocalTo s.cur s t where
  record : IssuedOp (timerLoad s) (t.port s.cur).op

namespace Issued

variable {s u : State}

/-- An issue step that ends in a completion. -/
theorem complete (hr : Ready s) (h : LocalTo s.cur s u) {st : StatusCode} {val : Half} {data : List Byte} :
    Issued s (complete s.cur st val data u) :=
  ⟨h.trans (.modifyPort _ _), by rw [complete_port (h.count ▸ hr.1)]; trivial⟩

/-- An issue step that stores a record. -/
theorem setOp (hr : Ready s) (h : LocalTo s.cur s u) {op : PortOp} (hop : IssuedOp (timerLoad s) op) :
    Issued s (setOp s.cur op u) :=
  ⟨h.trans (.modifyPort _ _), by rwa [setOp_port (h.count ▸ hr.1)]⟩

/-- The arrival of bytes leaves a ready port as it is. -/
theorem arrival (hr : Ready s) (bytes : List Byte) : Issued s (rxBytes bytes s) :=
  ⟨(rxBytes_inner bytes s).localTo _, by rw [(rxBytes_inner bytes s).port, hr.2]; trivial⟩

end Issued

end Sys2Proof.Machine
end

section
/-! PROOF. Each agent's step under its frame, and what only some steps may do: change a port, emit, clear a flag. -/

namespace Sys2Proof.Machine

/-! ### Issue steps -/

/-- Every operation's issue step, and the arrival of a wire format. -/
theorem exec_issued {i : Instr} {s t : State} (hr : Ready s) (h : exec i s = .next t) : Issued s t := by
  cases i with
  | rbPush sel b =>
    obtain ⟨-, rfl⟩ := issueOn_next (show execRbPush sel b s = _ from h)
    exact .complete hr ((rbPush_inner sel b s).localTo _)
  | rbPop sel =>
    obtain ⟨-, rfl⟩ := issueOn_next (show execRbPop sel s = _ from h)
    split
    · exact .complete hr (.refl s)
    · rename_i b u hpop
      exact .complete hr ((rbPop_inner hpop).localTo _)
  | rbEmpty sel =>
    obtain ⟨-, rfl⟩ := issueOn_next (show execRbEmpty sel s = _ from h)
    exact .complete hr (.refl s)
  | rbRewind sel k =>
    obtain ⟨-, rfl⟩ := issueOn_next (show execRbRewind sel k s = _ from h)
    split
    · exact .complete hr (.refl s)
    · rename_i u hrew
      exact .complete hr ((rbRewind_inner hrew).localTo _)
  | rbGetc sel =>
    obtain ⟨-, rfl⟩ := issueOn_next (show execRbGetc sel s = _ from h)
    exact .setOp hr (.refl s) rfl
  | smLoad pat =>
    obtain ⟨-, rfl⟩ := issueOn_next (show execSmLoad pat s = _ from h)
    split
    · exact .complete hr (.modifyPort _ s)
    · exact .complete hr (.refl s)
  | smFeed b =>
    obtain ⟨-, rfl⟩ := issueOn_next (show execSmFeed b s = _ from h)
    split
    · exact .complete hr (.refl s)
    · exact .complete hr (.modifyPort _ s)
  | chSend str =>
    obtain ⟨-, rfl⟩ := issueOn_next (show execChSend str s = _ from h)
    exact .setOp hr (.refl s) ⟨rfl, rfl⟩
  | chRecv token =>
    obtain ⟨-, rfl⟩ := issueOn_next (show execChRecv token s = _ from h)
    split
    · exact .setOp hr (.modifyPort _ s) rfl
    · exact .complete hr (.refl s)
  | chReadtill limit delim =>
    obtain ⟨-, rfl⟩ := issueOn_next (show execChReadtill limit delim s = _ from h)
    split
    · split
      · exact .complete hr (.modifyPort _ s)
      · exact .setOp hr (.modifyPort _ s) ⟨rfl, rfl⟩
    · exact .complete hr (.refl s)
  | chSetto ms =>
    obtain ⟨-, rfl⟩ := issueOn_next (show execChSetto ms s = _ from h)
    exact .complete hr ((timeout_inner s ms).localTo _)
  | pqRecv cid amount =>
    obtain ⟨-, rfl⟩ := issueOn_next (show execPqRecv cid amount s = _ from h)
    exact .setOp hr (.refl s) rfl
  | bdSend cid data =>
    obtain ⟨-, rfl⟩ := issueOn_next (show execBdSend cid data s = _ from h)
    split
    · exact .setOp hr (.refl s) ⟨rfl, rfl⟩
    · exact .complete hr (.refl s)
  | pqFlush cid =>
    obtain ⟨-, rfl⟩ := issueOn_next (show execPqFlush cid s = _ from h)
    exact .complete hr ((setQueue_inner s cid []).localTo _)
  | sysRdstat =>
    obtain ⟨-, rfl⟩ := issueOn_next (show execSysRdstat s = _ from h)
    exact .complete hr (.refl s)
  | sysRdevt =>
    obtain ⟨-, rfl⟩ := issueOn_next (show execSysRdevt s = _ from h)
    exact .complete hr ((events_inner s 0).localTo _)
  | wireBulkFrame c d3 d2 d1 d0 payload =>
    cases h
    exact .arrival hr _
  | wireDataAccepted =>
    cases h
    exact .arrival hr _

/-! ### Progress steps -/

/-- What may stand in the pattern of a port after a step of its own: what stood there, or the token `BD.SEND` waits for (R45). -/
def PatternKept (o o' : Port) : Prop :=
  o'.em.pat = o.em.pat ∨ ∃ str i n timer, o.op = .send str i .emit true n ∧ o'.op = .tokwait n timer

/-- What the progress step of port `p` does where no byte goes to the TX log (R44). -/
structure Progress (p : Nat) (s t : State) : Prop extends LocalTo p s t where
  arrow : t.port p = s.port p ∨ ProgressArrow (timerLoad s) (s.port p).op (t.port p).op ∧ PatternKept (s.port p) (t.port p)

namespace Progress

variable {p : Nat} {s u : State}

theorem refl (s : State) : Progress p s s := ⟨.refl s, .inl rfl⟩

/-- A progress step that completes the operation without another pattern. -/
theorem complete (hp : p < s.ports.length) (h : LocalTo p s u) (hpat : (u.port p).em.pat = (s.port p).em.pat)
    (ha : ProgressArrow (timerLoad s) (s.port p).op .idle) {st : StatusCode} {val : Half} {data : List Byte} :
    Progress p s (complete p st val data u) :=
  ⟨h.trans (.modifyPort _ _), .inr (by rw [complete_port (h.count ▸ hp)]; exact ⟨ha, .inl hpat⟩)⟩

/-- A progress step that stores a record without another pattern. -/
theorem setOp (hp : p < s.ports.length) (h : LocalTo p s u) (hpat : (u.port p).em.pat = (s.port p).em.pat) {op : PortOp}
    (ha : ProgressArrow (timerLoad s) (s.port p).op op) : Progress p s (setOp p op u) :=
  ⟨h.trans (.modifyPort _ _), .inr (by rw [setOp_port (h.count ▸ hp)]; exact ⟨ha, .inl hpat⟩)⟩

end Progress

/-- A byte popped from RSP and fed to the matcher of port `p`: the pattern stays. -/
theorem feed_popped_local {p : Nat} {b : Byte} {s u : State} (h : rbPop .rsp s = some (b, u)) :
    LocalTo p s (feedMatcher p b u) := ((rbPop_inner h).localTo p).trans (.modifyPort _ u)

theorem feed_popped_port {p : Nat} {b : Byte} {s u : State} (hp : p < s.ports.length) (h : rbPop .rsp s = some (b, u)) :
    (feedMatcher p b u).port p =
      { s.port p with em := { (s.port p).em with cur := (smFeed (s.port p).em.pat (s.port p).em.cur b).1 } } := by
  rw [feedMatcher_port (((rbPop_inner h).localTo p).count ▸ hp), (rbPop_inner h).port]

/-- A pull under a timer ends the operation or goes on in the same record (R194, R220). -/
theorem stepPull_progress {p t : Nat} {s : State} (hp : p < s.ports.length) (timeoutVal okVal : Half)
    (hidle : ProgressArrow (timerLoad s) (s.port p).op .idle)
    (hsame : ProgressArrow (timerLoad s) (s.port p).op (s.port p).op) : Progress p s (stepPull p t timeoutVal okVal s) := by
  unfold stepPull
  split
  · exact .complete hp (.refl s) rfl hidle
  · split
    · exact .refl s
    · rename_i b u hpop
      have hport := feed_popped_port hp hpop
      split
      · exact .complete hp (feed_popped_local hpop) (by rw [hport]) hidle
      · exact ⟨feed_popped_local hpop, .inr (by rw [hport]; exact ⟨hsame, .inl rfl⟩)⟩

theorem stepReadtill_progress {p limit t : Nat} {out : List Byte} {s : State} (hp : p < s.ports.length)
    (hop : (s.port p).op = .readtill limit out t) : Progress p s (stepReadtill p limit out t s) := by
  have hidle : ProgressArrow (timerLoad s) (s.port p).op .idle := by rw [hop]; exact .inl rfl
  unfold stepReadtill
  split
  · exact .complete hp (.refl s) rfl hidle
  · split
    · exact .refl s
    · rename_i b u hpop
      have hlocal := feed_popped_local (p := p) hpop
      have hpat : ((feedMatcher p b u).port p).em.pat = (s.port p).em.pat := by rw [feed_popped_port hp hpop]
      dsimp only
      split
      · exact .complete hp hlocal hpat hidle
      · split
        · exact .complete hp hlocal hpat hidle
        · exact .setOp hp hlocal hpat (by rw [hop]; exact .inr ⟨b, rfl⟩)

theorem stepGetc_progress {p t : Nat} {sel : RingSel} {s : State} (hp : p < s.ports.length)
    (hop : (s.port p).op = .getc sel t) : Progress p s (stepGetc p sel s) := by
  have hidle : ProgressArrow (timerLoad s) (s.port p).op .idle := by rw [hop]; rfl
  unfold stepGetc
  split
  · rename_i b u hpop
    exact .complete hp ((rbPop_inner hpop).localTo _) (by rw [(rbPop_inner hpop).port]) hidle
  · exact .complete hp (.refl s) rfl hidle

theorem stepPqRecv_progress {p amount t : Nat} {cid : BitVec 4} {s : State} (hp : p < s.ports.length)
    (hop : (s.port p).op = .pqrecv cid amount t) : Progress p s (stepPqRecv p cid amount s) := by
  have hidle : ProgressArrow (timerLoad s) (s.port p).op .idle := by rw [hop]; rfl
  unfold stepPqRecv
  split
  · exact .complete hp (.refl s) rfl hidle
  · rename_i pkt u hget
    obtain ⟨rest, -, rfl⟩ := pqGet_eq_some hget
    have hget := setQueue_inner s cid rest
    split
    · exact .complete hp (hget.localTo _) rfl hidle
    · exact .complete hp ((hget.trans (setQueue_inner _ cid _)).localTo _) rfl hidle

theorem stepLock_progress {p i n : Nat} {str : List Byte} {bulk : Bool} {s : State} (hp : p < s.ports.length)
    (hop : (s.port p).op = .send str i .lock bulk n) : Progress p s (stepLock p str i bulk n s) := by
  unfold stepLock
  exact .setOp hp ((txOwner_inner s (some p)).localTo _) rfl (by rw [hop]; rfl)

/-- The end of emission (R191, R220): the one progress step that loads another pattern. -/
theorem stepSent_progress {p i n : Nat} {str : List Byte} {bulk : Bool} {s : State} (hp : p < s.ports.length)
    (hop : (s.port p).op = .send str i .emit bulk n) (hi : str.length ≤ i) : Progress p s (stepSent p str bulk n s) := by
  have hfree : LocalTo p s { s with txOwner := none } := (txOwner_inner s none).localTo p
  cases bulk with
  | false => exact .complete hp hfree rfl (by rw [hop]; exact .inr ⟨hi, rfl⟩)
  | true =>
    have hload : LocalTo p s (loadMatcher p dataAcceptedToken { s with txOwner := none }) := hfree.trans (.modifyPort _ _)
    refine ⟨hload.trans (.modifyPort _ _), .inr ?_⟩
    rw [hop, stepSent, if_pos rfl, setOp_port (hload.count ▸ hp)]
    exact ⟨.inr ⟨hi, rfl⟩, .inr ⟨str, i, n, _, hop, rfl⟩⟩

theorem stepRefused_progress {p i n : Nat} {str : List Byte} {bulk : Bool} {s : State} (hp : p < s.ports.length)
    (hop : (s.port p).op = .send str i .emit bulk n) (hi : i < str.length) : Progress p s (stepRefused p i bulk s) := by
  unfold stepRefused
  exact .complete hp ((txOwner_inner s none).localTo _) rfl (by rw [hop]; exact .inl ⟨hi, .inl rfl⟩)

/-- The step of `A_CLI[p]` that the sink answers by taking a byte (R42, R191, R192). -/
structure Emitted (p : Nat) (s t : State) (str : List Byte) (i : Nat) (bulk : Bool) (n : Nat) (b : Byte) : Prop where
  record : (s.port p).op = .send str i .emit bulk n
  byte : str[i]? = some b
  eq : t = setOp p (.send str (i + 1) .emit bulk n) { s with txLog := s.txLog ++ [b] }

/-- Only a port that exists has a progress step. -/
theorem cliEnabled_lt {p : Nat} {s : State} (h : cliEnabled p s = true) : p < s.ports.length := by
  rw [cliEnabled, Bool.and_eq_true, decide_eq_true_eq] at h
  exact h.1

/-- Every progress step: a byte goes out, or the step is quiet and goes along an arrow of R44. -/
theorem cliStep_cases {p : Nat} {accept : Bool} {s : State} (h : cliEnabled p s = true) :
    Progress p s (cliStep p accept s) ∨
      accept = true ∧ ∃ str i bulk n b, Emitted p s (cliStep p accept s) str i bulk n b := by
  have hp := cliEnabled_lt h
  unfold cliStep
  split
  · exact .inl (.refl s)
  · exact .inl (stepGetc_progress hp ‹_›)
  · exact .inl (stepLock_progress hp ‹_›)
  · rename_i str i bulk n hop
    unfold stepEmit
    split
    · rename_i hb
      exact .inl (stepSent_progress hp hop (List.getElem?_eq_none_iff.1 hb))
    · rename_i b hb
      split
      · exact .inr ⟨‹_›, str, i, bulk, n, b, hop, hb, rfl⟩
      · exact .inl (stepRefused_progress hp hop (List.getElem?_eq_some_iff.1 hb).1)
  · rename_i hop
    exact .inl (stepPull_progress hp _ _ (by rw [hop]; exact .inl rfl) (by rw [hop]; exact .inr rfl))
  · exact .inl (stepReadtill_progress hp ‹_›)
  · exact .inl (stepPqRecv_progress hp ‹_›)
  · rename_i hop
    exact .inl (stepPull_progress hp _ _ (by rw [hop]; exact .inl rfl) (by rw [hop]; exact .inr rfl))

/-- A byte that is emitted advances the record. -/
theorem Emitted.port {p : Nat} {s t : State} {str : List Byte} {i : Nat} {bulk : Bool} {n : Nat} {b : Byte}
    (h : Emitted p s t str i bulk n b) (hp : p < s.ports.length) :
    t.port p = { s.port p with op := .send str (i + 1) .emit bulk n } := by
  rw [h.eq]
  exact setOp_port hp _

theorem Emitted.others {p p' : Nat} {s t : State} {str : List Byte} {i : Nat} {bulk : Bool} {n : Nat} {b : Byte}
    (h : Emitted p s t str i bulk n b) (hp : p' ≠ p) : t.port p' = s.port p' := by
  rw [h.eq]
  exact modifyPort_port_other p p' _ _ (Ne.symm hp)

/-! ### The dispatcher's steps -/

theorem invoke_inner (w : Nat) (s : State) : Inner s (invoke w s) := by
  unfold invoke
  split
  · exact .refl s
  · split <;> exact .of_eq rfl rfl rfl rfl

theorem scanHit_inner (w : Nat) (win : List Byte) (s : State) : Inner s (scanHit w win s) := by
  unfold scanHit
  exact ((release_inner _ s).trans (matching_inner _ _ _)).trans (invoke_inner w _)

theorem scanMiss_inner (curs : List Nat) (win : List Byte) (s : State) : Inner s (scanMiss curs win s) :=
  (release_inner _ s).trans (matching_inner _ _ _)

theorem packetReady_inner (s : State) : Inner s (packetReady s) := by
  unfold packetReady
  dsimp only
  split
  · exact (setFlag_inner _ s).trans (matching_inner _ _ _)
  · exact .of_eq rfl rfl rfl rfl

theorem frameAbort_inner (s : State) : Inner s (frameAbort s) :=
  (setFlag_inner _ s).trans (matching_inner _ _ _)

theorem judgeHeader_inner (s : State) : Inner s (judgeHeader s) := by
  unfold judgeHeader
  split
  · dsimp only
    split
    · exact (matching_inner s _ _).trans (packetReady_inner _)
    · exact .of_eq rfl rfl rfl rfl
  · exact (setFlag_inner _ s).trans (matching_inner _ _ _)

theorem dispScan_inner (s : State) : Inner s (dispScan s) := by
  unfold dispScan
  split
  · exact .refl s
  · rename_i b u hpop
    dsimp only
    split
    · exact (rbPop_inner hpop).trans (scanHit_inner _ _ u)
    · exact (rbPop_inner hpop).trans (scanMiss_inner _ _ u)

theorem dispHdr_inner (s : State) : Inner s (dispHdr s) := by
  unfold dispHdr
  split
  · rename_i b u hpop
    have hread : Inner s { u with disp := { u.disp with fHdr := s.disp.fHdr ++ [b], t := timerLoad s } } :=
      (rbPop_inner hpop).trans (matching_inner _ _ _)
    dsimp only
    split
    · exact hread.trans (judgeHeader_inner _)
    · exact hread
  · exact frameAbort_inner s

theorem dispPayload_inner (s : State) : Inner s (dispPayload s) := by
  unfold dispPayload
  split
  · rename_i b u hpop
    have hread : Inner s { u with disp := { u.disp with fBuf := s.disp.fBuf ++ [b], t := timerLoad s } } :=
      (rbPop_inner hpop).trans (matching_inner _ _ _)
    dsimp only
    split
    · exact hread.trans (packetReady_inner _)
    · exact hread
  · exact frameAbort_inner s

/-- The dispatcher changes no port and emits nothing. -/
theorem dispStep_inner (s : State) : Inner s (dispStep s) := by
  unfold dispStep
  split
  · exact dispScan_inner s
  · exact dispHdr_inner s
  · exact dispPayload_inner s
  · exact .of_eq rfl rfl rfl rfl

/-! ### Tick and reset -/

theorem tickStep_port (p : Nat) (s : State) : (tickStep s).port p = { s.port p with op := tickOp (s.port p).op } := by
  simp only [State.port, tickStep, List.getD_eq_getElem?_getD, List.getElem?_map]
  cases s.ports[p]? <;> rfl

theorem initial_port (cfg : Config) (script : List Action) (clock p : Nat) :
    (State.initial cfg script clock).port p = Port.init := by
  simp only [State.port, State.initial, List.getD_eq_getElem?_getD, List.getElem?_replicate]
  split <;> rfl

/-! ### The statements -/

/-- Settles O55, by the outcomes of the environment's choice. -/
theorem portsAreChangedOnlyByTheirOwnSteps : Obligations.PortsAreChangedOnlyByTheirOwnSteps := by
  intro s t p h
  have ht := step_taken h
  have hload : s.timeout.toNat + 1 = timerLoad (advance s) := (advance_timerLoad s).symm
  rw [hload, ← advance_port s p]
  generalize advance s = u at ht ⊢
  generalize nextAction s = a at ht ⊢
  cases ht with
  | idle => exact .inl rfl
  | @issue p' i _ cmd payload ready wf next =>
    have hi := exec_issued (s := { u with cur := p' }) ((portReady_iff p' u).1 ready) next
    by_cases hp : p = p'
    · subst hp
      exact .inr (.inl ⟨cmd, payload, rfl, ((portReady_iff p u).1 ready).2, hi.record⟩)
    · exact .inl (hi.others p hp)
  | @illegal p' cmd payload ready =>
    by_cases hp : p = p'
    · subst hp
      obtain ⟨hlt, hidle⟩ := (portReady_iff p u).1 ready
      exact .inr (.inl ⟨cmd, payload, rfl, hidle, by rw [complete_port hlt]; trivial⟩)
    · exact .inl ((LocalTo.modifyPort _ u).others p hp)
  | rx bytes => exact .inl ((rxBytes_inner bytes u).port p)
  | disp enabled => exact .inl ((dispStep_inner u).port p)
  | @cli p' accept enabled =>
    rcases cliStep_cases enabled (accept := accept) with hpr | ⟨-, str, i, bulk, n, b, he⟩
    · by_cases hp : p = p'
      · subst hp
        rcases hpr.arrow with hsame | ⟨harrow, hpat⟩
        · exact .inl hsame
        · exact .inr (.inr (.inl ⟨accept, rfl, harrow, hpat⟩))
      · exact .inl (hpr.others p hp)
    · by_cases hp : p = p'
      · subst hp
        have hport := he.port (cliEnabled_lt enabled)
        refine .inr (.inr (.inl ⟨accept, rfl, ?_, .inl (by rw [hport])⟩))
        rw [hport, he.record]
        exact .inl ⟨(List.getElem?_eq_some_iff.1 he.byte).1, .inr rfl⟩
      · exact .inl (he.others hp)
  | tick => exact .inr (.inr (.inr (.inl ⟨rfl, tickStep_port p u⟩)))
  | reset =>
    refine .inr (.inr (.inr (.inr ⟨rfl, ?_⟩)))
    rw [resetStep, initial_port]
    exact ⟨rfl, rfl⟩

/-- Every outcome of a choice is quiet, but for a byte that goes out and for reset. -/
theorem Taken.quiet_cases {u t : State} {a : Action} (h : Taken u a t) :
    Quiet u t ∨ (a = .reset ∧ t = resetStep u) ∨
      ∃ p str i bulk n b, a = .cli p true ∧ p < u.ports.length ∧ Emitted p u t str i bulk n b := by
  cases h with
  | idle => exact .inl (Inner.refl u).toQuiet
  | @issue p i _ cmd payload ready wf next =>
    have hi := exec_issued (s := { u with cur := p }) ((portReady_iff p u).1 ready) next
    exact .inl ⟨hi.cfg, hi.txLog, hi.sticky⟩
  | illegal cmd payload ready => exact .inl (LocalTo.modifyPort _ u).toQuiet
  | rx bytes => exact .inl (rxBytes_inner bytes u).toQuiet
  | disp enabled => exact .inl (dispStep_inner u).toQuiet
  | @cli p accept enabled =>
    rcases cliStep_cases enabled (accept := accept) with hpr | ⟨rfl, str, i, bulk, n, b, he⟩
    · exact .inl hpr.toQuiet
    · exact .inr (.inr ⟨p, str, i, bulk, n, b, rfl, cliEnabled_lt enabled, he⟩)
  | tick => exact .inl ⟨rfl, rfl, fun _ h => h⟩
  | reset => exact .inr (.inl ⟨rfl, rfl⟩)

/-- Settles O57, by the outcomes of the environment's choice. -/
theorem flagsAreStickyAndParametersFixed : Obligations.FlagsAreStickyAndParametersFixed := by
  intro s t h
  rw [← advance_cfg s, ← advance_status s]
  rcases (step_taken h).quiet_cases with hq | ⟨hreset, rfl⟩ | ⟨p, str, i, bulk, n, b, -, -, he⟩
  · exact ⟨hq.cfg, fun _ => hq.sticky⟩
  · exact ⟨rfl, fun hne => absurd hreset hne⟩
  · rw [he.eq]
    exact ⟨rfl, fun _ _ hi => hi⟩

/-- Settles O56: the one step that is not quiet emits, and an emitting port holds the lock. -/
theorem onlyTheLockHolderEmits : Obligations.OnlyTheLockHolderEmits := by
  rintro s t ⟨-, hlock⟩ h
  rcases (step_taken h).quiet_cases with hq | ⟨hreset, rfl⟩ | ⟨p, str, i, bulk, n, b, hcli, hp, he⟩
  · exact .inl (hq.txLog.trans (advance_txLog s))
  · exact .inr (.inl ⟨hreset, rfl⟩)
  · have hrec : (s.port p).op = .send str i .emit bulk n := advance_port s p ▸ he.record
    have howner : s.txOwner = some p := (hlock p (advance_ports s ▸ hp)).1 (by rw [hrec]; rfl)
    refine .inr (.inr ⟨p, b, hcli, howner, ?_⟩)
    rw [he.eq]
    exact ⟨(advance_txOwner s).trans howner, congrArg (· ++ [b]) (advance_txLog s)⟩

end Sys2Proof.Machine
end

section
/-! PROOF. The ring invariants. -/

namespace Sys2Proof.Machine

/-! ### Ring arithmetic -/

/-- Stepping an index and then counting on is counting one further. -/
theorem succ_mod_add_mod (n a b : Nat) : ((a + 1) % n + b) % n = (a + (b + 1)) % n := by
  rw [Nat.mod_add_mod]
  congr 1
  omega

namespace RingInv

variable {n : Nat} {r : Ring}

/-- An empty ring meets the invariants at every capacity (R50). -/
theorem init (hn : 1 ≤ n) : RingInv n Ring.init where
  head_lt := hn
  tail_lt := hn
  head_eq := (Nat.zero_mod n).symm
  room := Nat.zero_le n
  canonical := rfl
  slots := by simp [Ring.init]

/-- With no unread byte the two indices are equal (R23). -/
theorem head_eq_tail (h : RingInv n r) (hc : r.count = 0) : r.head = r.tail := by
  rw [h.head_eq, hc, Nat.add_zero, Nat.mod_eq_of_lt h.tail_lt]

theorem push (h : RingInv n r) (b : Byte) : RingInv n (Ring.push n r b) := by
  have hn : 0 < n := Nat.zero_lt_of_lt h.head_lt
  have hroom := h.room
  have hcanonical := memWrite_wf h.canonical r.head b
  have hslots : ∀ c ∈ memWrite r.store r.head b, c.1 < n := fun c hc =>
    (mem_memWrite hc).elim (h.slots c) fun e => e ▸ h.head_lt
  have hhead : (r.head + 1) % n = (r.tail + (r.count + 1)) % n := by
    rw [h.head_eq, Nat.mod_add_mod, Nat.add_assoc]
  by_cases hf : r.count = n
  · refine ⟨Nat.mod_lt _ hn, ?_, ?_, ?_, hcanonical, hslots⟩
    · simpa [Ring.push, hf] using Nat.mod_lt _ hn
    · simp only [Ring.push, if_pos hf]
      rw [hhead, succ_mod_add_mod]
    · simp only [Ring.push, if_pos hf]
      omega
  · refine ⟨Nat.mod_lt _ hn, ?_, ?_, ?_, hcanonical, hslots⟩
    · simpa [Ring.push, hf] using h.tail_lt
    · simpa only [Ring.push, if_neg hf] using hhead
    · simp only [Ring.push, if_neg hf]
      omega

theorem pop (h : RingInv n r) {b : Byte} {r' : Ring} (hp : Ring.pop n r = some (b, r')) : RingInv n r' := by
  obtain ⟨hc, -, rfl⟩ := ringPop_eq_some.1 hp
  have hroom := h.room
  refine ⟨h.head_lt, Nat.mod_lt _ (Nat.zero_lt_of_lt h.head_lt), ?_, ?_, h.canonical, h.slots⟩
  · dsimp only
    rw [h.head_eq, succ_mod_add_mod, Nat.sub_add_cancel (Nat.pos_of_ne_zero hc)]
  · dsimp only
    omega

theorem rewind (h : RingInv n r) {k : Nat} {r' : Ring} (hr : Ring.rewind n r k = some r') : RingInv n r' := by
  obtain ⟨hk, rfl⟩ := ringRewind_eq_some.1 hr
  have hroom := h.room
  refine ⟨h.head_lt, Nat.mod_lt _ (Nat.zero_lt_of_lt h.head_lt), ?_, ?_, h.canonical, h.slots⟩
  · dsimp only
    have hsum : r.tail + n - k + (r.count + k) = r.tail + r.count + n := by omega
    rw [h.head_eq, Nat.mod_add_mod, hsum, Nat.add_mod_right]
  · dsimp only
    omega

end RingInv

/-- Settles O16, one lemma per ring operation. -/
theorem ringOperationsKeepRingInvariant : Obligations.RingOperationsKeepRingInvariant := fun _ hn =>
  ⟨.init hn, fun _ h => ⟨h.head_eq_tail, h.push, fun _ _ => h.pop, fun _ _ => h.rewind⟩⟩

end Sys2Proof.Machine
end

section
/-! PROOF. The invariants part by part: what each depends on, and what each shared update needs in order to keep them. -/

namespace Sys2Proof.Machine

/-! ### What each invariant depends on -/

theorem DispInv.congr {s t : State} (h : DispInv s) (hc : t.cfg = s.cfg) (hm : t.mcur = s.mcur) (hd : t.disp = s.disp) :
    DispInv t := by
  cases s
  cases t
  simp only at hc hm hd
  subst hc hm hd
  exact ⟨h.cursors, h.cursor_lt, h.held, h.claimed, h.cleared, h.header_le, h.header_lt, h.length_le, h.buffer_le,
    h.payload_lt, h.complete_eq, h.timer_le⟩

theorem FlagInv.congr {s t : State} (h : FlagInv s) (hc : t.cfg = s.cfg) (hs : t.status = s.status)
    (he : t.events = s.events) : FlagInv t :=
  ⟨by rw [hs]; exact h.status_reserved, by rw [hc, he]; exact h.events_reserved⟩

/-- `QueueInv` for the list of one queue (R34 to R36). -/
structure QueueListInv (pktMax : Nat) (c : BitVec 4) (l : List Packet) : Prop where
  bounded : l.length ≤ Config.qcap
  packets : ∀ p ∈ l, PacketInv pktMax c p
  head_only : ∀ p ∈ l.tail, p.off = 0

theorem queueInv_iff {s : State} : QueueInv s ↔ ∀ c, QueueListInv s.cfg.pktMax c (s.queue c) :=
  ⟨fun h c => ⟨h.bounded c, h.packets c, h.head_only c⟩,
    fun h => ⟨fun c => (h c).bounded, fun c => (h c).packets, fun c => (h c).head_only⟩⟩

theorem QueueInv.congr {s t : State} (h : QueueInv s) (hc : t.cfg = s.cfg) (hq : t.q = s.q) : QueueInv t := by
  have hqueue : t.queue = s.queue := by
    funext c
    simp [State.queue, hq]
  rw [queueInv_iff] at h ⊢
  rwa [hc, hqueue]

theorem LockInv.congr {s t : State} (h : LockInv s) (hp : t.ports = s.ports) (ho : t.txOwner = s.txOwner) : LockInv t := by
  have hport : t.port = s.port := by
    funext p
    simp [State.port, hp]
  unfold LockInv at h ⊢
  rwa [hp, ho, hport]

/-- `Inv` speaks of neither the timeout register, nor the TX log, nor the model's own fields. -/
theorem Inv.congr {s t : State} (h : Inv s) (hc : t.cfg = s.cfg) (hx : t.rx = s.rx) (hr : t.rsp = s.rsp)
    (hm : t.mcur = s.mcur) (hd : t.disp = s.disp) (hq : t.q = s.q) (hs : t.status = s.status) (he : t.events = s.events)
    (ho : t.txOwner = s.txOwner) (hp : t.ports = s.ports) : Inv t where
  config := hc ▸ h.config
  rx := by rw [hc, hx]; exact h.rx
  rsp := by rw [hc, hr]; exact h.rsp
  disp := h.disp.congr hc hm hd
  queues := h.queues.congr hc hq
  portCount := by rw [hc, hp]; exact h.portCount
  ports := by rw [hc, hp]; exact h.ports
  lock := h.lock.congr hp ho
  flags := h.flags.congr hc hs he

theorem Inv.advance {s : State} (h : Inv s) : Inv (advance s) :=
  h.congr (by simp) (by simp) (by simp) (by simp) (by simp) (by simp) (by simp) (by simp) (by simp) (by simp)

/-! ### Flags -/

theorem flagBit_lt (f : StatusFlag) : flagBit f < 5 := by cases f <;> decide

theorem Inv.setFlag {s : State} (h : Inv s) (f : StatusFlag) : Inv (setFlag f s) where
  config := h.config
  rx := h.rx
  rsp := h.rsp
  disp := h.disp.congr rfl rfl rfl
  queues := h.queues.congr rfl rfl
  portCount := h.portCount
  ports := h.ports
  lock := h.lock
  flags := by
    refine ⟨fun i hi => ?_, h.flags.events_reserved⟩
    have hne : flagBit f ≠ i := by
      have := flagBit_lt f
      omega
    simp [h.flags.status_reserved i hi, BitVec.getLsbD_twoPow, hne]

/-- The `EVENTS` register takes a value whose bits all belong to event registrations (R46). -/
theorem Inv.withEvents {s : State} (h : Inv s) {e : Half}
    (he : ∀ i, e.getLsbD i = true → ∃ r, s.cfg.reg[i]? = some r ∧ r.handler = .event) : Inv { s with events := e } where
  config := h.config
  rx := h.rx
  rsp := h.rsp
  disp := h.disp.congr rfl rfl rfl
  queues := h.queues.congr rfl rfl
  portCount := h.portCount
  ports := h.ports
  lock := h.lock
  flags := ⟨h.flags.status_reserved, he⟩

theorem Inv.setEvent {s : State} (h : Inv s) {w : Nat} {r : Registration} (hr : s.cfg.reg[w]? = some r)
    (he : r.handler = .event) : Inv (setEvent w s) := by
  refine h.withEvents fun i hi => ?_
  rw [BitVec.getLsbD_or, Bool.or_eq_true] at hi
  rcases hi with hi | hi
  · exact h.flags.events_reserved i hi
  · obtain ⟨-, rfl⟩ : w < 16 ∧ w = i := by simpa [BitVec.getLsbD_twoPow] using hi
    exact ⟨r, hr, he⟩

/-! ### Rings -/

theorem Inv.ring {s : State} (h : Inv s) (sel : RingSel) : RingInv (Config.ringN s.cfg sel) (s.ring sel) := by
  cases sel
  · exact h.rx
  · exact h.rsp

theorem Inv.setRing {s : State} (h : Inv s) {sel : RingSel} {r : Ring} (hr : RingInv (Config.ringN s.cfg sel) r) :
    Inv (s.setRing sel r) := by
  cases sel with
  | rx => exact { h with
      rx := hr, disp := h.disp.congr rfl rfl rfl, queues := h.queues.congr rfl rfl, flags := h.flags.congr rfl rfl rfl }
  | rsp => exact { h with
      rsp := hr, disp := h.disp.congr rfl rfl rfl, queues := h.queues.congr rfl rfl, flags := h.flags.congr rfl rfl rfl }

theorem Inv.rbPush {s : State} (h : Inv s) (sel : RingSel) (b : Byte) : Inv (rbPush sel b s) := by
  have hpush : Inv (s.setRing sel (Ring.push (Config.ringN s.cfg sel) (s.ring sel) b)) := h.setRing ((h.ring sel).push b)
  unfold Machine.rbPush
  dsimp only
  split
  · exact hpush.setFlag _
  · exact hpush

theorem Inv.rbPop {s t : State} (h : Inv s) {sel : RingSel} {b : Byte} (hp : rbPop sel s = some (b, t)) : Inv t := by
  obtain ⟨hc, -, rfl⟩ := rbPop_eq_some hp
  exact h.setRing ((h.ring sel).pop (ringPop_eq_some.2 ⟨hc, rfl, rfl⟩))

theorem Inv.rbRewind {s t : State} (h : Inv s) {sel : RingSel} {k : Nat} (hr : rbRewind sel k s = some t) : Inv t := by
  obtain ⟨r, hrew, rfl⟩ := rbRewind_eq_some hr
  exact h.setRing ((h.ring sel).rewind hrew)

theorem Inv.rxBytes {s : State} (h : Inv s) (bytes : List Byte) : Inv (rxBytes bytes s) := by
  induction bytes generalizing s with
  | nil => exact h
  | cons b bytes ih => exact ih (h.rbPush .rx b)

theorem Inv.release {s : State} (h : Inv s) (bytes : List Byte) : Inv (release bytes s) := by
  induction bytes generalizing s with
  | nil => exact h
  | cons b bytes ih => exact ih (h.rbPush .rsp b)

/-! ### Queues -/

namespace QueueListInv

variable {pktMax : Nat} {c : BitVec 4} {l : List Packet} {p : Packet}

theorem nil : QueueListInv pktMax c [] := ⟨Nat.zero_le _, by simp, by simp⟩

/-- No packet behind the head is partly consumed, so the rest of a queue holds whole packets. -/
theorem rest (h : QueueListInv pktMax c (p :: l)) : QueueListInv pktMax c l :=
  ⟨Nat.le_of_succ_le h.bounded, fun x hx => h.packets x (List.mem_cons_of_mem _ hx),
    fun x hx => h.head_only x (List.mem_of_mem_tail hx)⟩

/-- A packet of which nothing is consumed goes to the tail of a queue with room (R210). -/
theorem append (h : QueueListInv pktMax c l) (hroom : l.length < Config.qcap) (hp : PacketInv pktMax c p)
    (hoff : p.off = 0) : QueueListInv pktMax c (l ++ [p]) where
  bounded := by simpa using hroom
  packets := by
    intro x hx
    rcases List.mem_append.1 hx with hx | hx
    · exact h.packets x hx
    · rwa [List.mem_singleton.1 hx]
  head_only := by
    cases l with
    | nil => simp
    | cons y l =>
      intro x hx
      rcases List.mem_append.1 hx with hx | hx
      · exact h.head_only x hx
      · rwa [List.mem_singleton.1 hx]

/-- The head packet loses bytes at its front (R218). -/
theorem consume (h : QueueListInv pktMax c (p :: l)) {k : Nat} (hk : k ≤ p.len) :
    QueueListInv pktMax c ({ p with off := p.off + k, len := p.len - k } :: l) where
  bounded := h.bounded
  packets := by
    intro x hx
    rcases List.mem_cons.1 hx with rfl | hx
    · have hp := h.packets p List.mem_cons_self
      have hsplit := hp.split
      refine ⟨hp.cid_eq, ?_, hp.data_le⟩
      dsimp only
      omega
    · exact h.packets x (List.mem_cons_of_mem _ hx)
  head_only := h.head_only

end QueueListInv

theorem Inv.queue {s : State} (h : Inv s) (c : BitVec 4) : QueueListInv s.cfg.pktMax c (s.queue c) :=
  queueInv_iff.1 h.queues c

theorem Inv.setQueue {s : State} (h : Inv s) {c : BitVec 4} {l : List Packet} (hl : QueueListInv s.cfg.pktMax c l) :
    Inv (s.setQueue c l) where
  config := h.config
  rx := h.rx
  rsp := h.rsp
  disp := h.disp.congr rfl rfl rfl
  queues := by
    refine queueInv_iff.2 fun c' => ?_
    by_cases hc : c' = c
    · subst hc
      rwa [setQueue_queue_self]
    · rw [setQueue_queue_other c c' l s hc]
      exact h.queue c'
  portCount := h.portCount
  ports := h.ports
  lock := h.lock
  flags := h.flags.congr rfl rfl rfl

/-! ### Responses -/

theorem statusNumber_le (st : StatusCode) : (statusNumber st).toNat ≤ 5 := by cases st <;> decide

/-- A result word as a number (R102). -/
theorem resultWord_toNat (st : StatusCode) (val : Half) :
    (resultWord st val).toNat = (statusNumber st).toNat * 2 ^ 28 + val.toNat := by
  have e : (resultWord st val).toNat = (statusNumber st ++ (0#12 ++ val)).toNat := rfl
  rw [e, BitVec.toNat_append, ← Nat.shiftLeft_add_eq_or_of_lt (0#12 ++ val).isLt, Nat.shiftLeft_eq, BitVec.toNat_append]
  simp

theorem resultWord_reserved (st : StatusCode) (val : Half) : (resultWord st val).extractLsb' 16 12 = 0 := by
  have hval := val.isLt
  apply BitVec.eq_of_toNat_eq
  simp only [BitVec.extractLsb'_toNat, resultWord_toNat, Nat.shiftRight_eq_div_pow]
  change _ = 0
  omega

theorem resultWord_status (st : StatusCode) (val : Half) : (resultWord st val).extractLsb' 28 4 = statusNumber st := by
  have hval := val.isLt
  apply BitVec.eq_of_toNat_eq
  simp only [BitVec.extractLsb'_toNat, resultWord_toNat, Nat.shiftRight_eq_div_pow]
  omega

theorem resultWord_val (st : StatusCode) (val : Half) : (resultWord st val).extractLsb' 0 16 = val := by
  apply BitVec.eq_of_toNat_eq
  simp only [BitVec.extractLsb'_toNat, resultWord_toNat, Nat.shiftRight_eq_div_pow]
  omega

/-- A response without data bytes (R102). -/
theorem responseInv_noData (st : StatusCode) (val : Half) : ResponseInv { res := resultWord st val, data := [] } :=
  ⟨resultWord_reserved st val, by rw [resultWord_status]; exact statusNumber_le st, .inl rfl⟩

/-- A response with the data bytes that `val` counts (R102). -/
theorem responseInv_data {n : Nat} {data : List Byte} (hn : n ≤ 65535) (hd : data.length = n) :
    ResponseInv { res := resultWord .ok (toVal n), data := data } := by
  refine ⟨resultWord_reserved _ _, by rw [resultWord_status]; exact statusNumber_le _, .inr ⟨resultWord_status _ _, ?_⟩⟩
  rw [resultWord_val, hd, toVal, BitVec.toNat_ofNat, Nat.mod_eq_of_lt (by omega)]

/-! ### Ports -/

theorem timerLoad_le (s : State) : timerLoad s ≤ 65536 := by
  have := s.timeout.isLt
  unfold timerLoad
  omega

theorem Inv.port {s : State} (h : Inv s) {p : Nat} (hp : p < s.ports.length) : PortInv s.cfg.pmax (s.port p) := by
  have hport : s.port p = s.ports[p] := by simp [State.port, hp]
  rw [hport]
  exact h.ports _ (List.getElem_mem hp)

/-- A port after an update of port `p`. -/
theorem mem_modifyPort {s : State} {p : Nat} {f : Port → Port} {o : Port} (h : o ∈ (s.modifyPort p f).ports) :
    o ∈ s.ports ∨ o = f (s.port p) := by
  obtain ⟨i, hi⟩ := List.mem_iff_getElem?.1 h
  rw [modifyPort_ports, List.getElem?_modify] at hi
  obtain ⟨o', ho', rfl⟩ := Option.map_eq_some_iff.1 hi
  split
  · rename_i hpi
    subst hpi
    exact .inr (by simp [State.port, ho'])
  · exact .inl (List.mem_of_getElem? ho')

/-- The lock goes to `o` while the record of port `p` changes: `p` emits afterwards iff `o` is `p`, and no other port gains or loses
the lock (R41, R193). -/
theorem LockInv.modifyPort {s : State} (h : LockInv s) {p : Nat} {f : Port → Port} {o : Option Nat} (hp : p < s.ports.length)
    (hself : emitting (f (s.port p)).op = true ↔ o = some p) (hother : ∀ p', p' ≠ p → (o = some p' ↔ s.txOwner = some p')) :
    LockInv ({ s with txOwner := o }.modifyPort p f) := by
  obtain ⟨howner, hemit⟩ := h
  have hlen : ({ s with txOwner := o }.modifyPort p f).ports.length = s.ports.length := List.length_modify _ _ _
  refine ⟨fun p' hp' => ?_, fun p' hp' => ?_⟩ <;> rw [hlen] at *
  · by_cases hpp : p' = p
    · exact hpp ▸ hp
    · exact howner p' ((hother p' hpp).1 hp')
  · by_cases hpp : p' = p
    · subst hpp
      rw [modifyPort_port_self p' f { s with txOwner := o } hp]
      exact hself
    · rw [modifyPort_port_other p p' f { s with txOwner := o } (Ne.symm hpp)]
      exact (hemit p' hp').trans (hother p' hpp).symm

/-- Port `p` is updated while the lock goes to `o`. -/
theorem Inv.modifyPort {s : State} (h : Inv s) {p : Nat} {f : Port → Port} {o : Option Nat}
    (hf : PortInv s.cfg.pmax (f (s.port p))) (hl : LockInv ({ s with txOwner := o }.modifyPort p f)) :
    Inv ({ s with txOwner := o }.modifyPort p f) where
  config := h.config
  rx := h.rx
  rsp := h.rsp
  disp := h.disp.congr rfl rfl rfl
  queues := h.queues.congr rfl rfl
  portCount := (List.length_modify _ _ _).trans h.portCount
  ports := fun o ho => (mem_modifyPort ho).elim (h.ports o) fun e => e ▸ hf
  lock := hl
  flags := h.flags.congr rfl rfl rfl

section
variable {s : State} {p : Nat} {f : Port → Port}

/-- The lock stays where it is: the port emits after the update iff it did before. -/
theorem Inv.keepLock (h : Inv s) (hp : p < s.ports.length) (hf : PortInv s.cfg.pmax (f (s.port p)))
    (he : emitting (f (s.port p)).op = emitting (s.port p).op) : Inv (s.modifyPort p f) :=
  h.modifyPort (o := s.txOwner) hf (h.lock.modifyPort hp (he ▸ h.lock.2 p hp) fun _ _ => .rfl)

/-- A free lock is taken (R193). -/
theorem Inv.takeLock (h : Inv s) (hp : p < s.ports.length) (hf : PortInv s.cfg.pmax (f (s.port p)))
    (hfree : s.txOwner = none) (he : emitting (f (s.port p)).op = true) :
    Inv ({ s with txOwner := some p }.modifyPort p f) :=
  h.modifyPort hf (h.lock.modifyPort hp (by simp [he]) fun p' hp' => by simp [hfree, Ne.symm hp'])

/-- The emitting port gives the lock up (R193). -/
theorem Inv.dropLock (h : Inv s) (hp : p < s.ports.length) (hf : PortInv s.cfg.pmax (f (s.port p)))
    (hheld : emitting (s.port p).op = true) (he : emitting (f (s.port p)).op = false) :
    Inv ({ s with txOwner := none }.modifyPort p f) := by
  have howner := (h.lock.2 p hp).1 hheld
  exact h.modifyPort hf (h.lock.modifyPort hp (by simp [he]) fun p' hp' => by simp [howner, Ne.symm hp'])

end

namespace PortInv

variable {pmax : Nat} {o : Port}

theorem record_le (h : PortInv pmax o) {op : PortOp} (hop : OpInv o.em op) : PortInv pmax { o with op := op } :=
  ⟨h.pattern_le, h.cursor_le, hop, h.responses⟩

theorem delivered (h : PortInv pmax o) {r : Response} (hr : ResponseInv r) :
    PortInv pmax { o with op := .idle, resps := o.resps ++ [r] } := by
  refine ⟨h.pattern_le, h.cursor_le, trivial, fun x hx => ?_⟩
  rcases List.mem_append.1 hx with hx | hx
  · exact h.responses x hx
  · rwa [List.mem_singleton.1 hx]

theorem loaded (h : PortInv pmax o) {pat : List Byte} (hlen : pat.length ≤ max pmax 2)
    (hop : OpInv { pat := pat, cur := 0 } o.op) : PortInv pmax { o with em := { pat := pat, cur := 0 } } :=
  ⟨hlen, Nat.zero_le _, hop, h.responses⟩

theorem fed (h : PortInv pmax o) {b : Byte} (hne : o.em.pat ≠ [])
    (hop : OpInv { o.em with cur := (smFeed o.em.pat o.em.cur b).1 } o.op) :
    PortInv pmax { o with em := { o.em with cur := (smFeed o.em.pat o.em.cur b).1 } } := by
  have hpos := List.length_pos_iff.2 hne
  have hcur := h.cursor_le
  have hlt := smFeed_cursor_lt o.em.pat o.em.cur b (by omega)
  exact ⟨h.pattern_le, Nat.le_sub_one_of_lt hlt, hop, h.responses⟩

end PortInv

section
variable {s : State} {p : Nat}

theorem Inv.setOp (h : Inv s) (hp : p < s.ports.length) {op : PortOp} (hop : OpInv (s.port p).em op)
    (he : emitting op = emitting (s.port p).op) : Inv (setOp p op s) :=
  h.keepLock hp ((h.port hp).record_le hop) he

theorem Inv.loadMatcher (h : Inv s) (hp : p < s.ports.length) {pat : List Byte} (hlen : pat.length ≤ max s.cfg.pmax 2)
    (hop : OpInv { pat := pat, cur := 0 } (s.port p).op) : Inv (loadMatcher p pat s) :=
  h.keepLock hp ((h.port hp).loaded hlen hop) rfl

theorem Inv.feedMatcher (h : Inv s) (hp : p < s.ports.length) {b : Byte} (hne : (s.port p).em.pat ≠ [])
    (hop : OpInv { (s.port p).em with cur := (smFeed (s.port p).em.pat (s.port p).em.cur b).1 } (s.port p).op) :
    Inv (feedMatcher p b s) :=
  h.keepLock hp ((h.port hp).fed hne hop) rfl

/-- A completion on a port that does not hold the lock. -/
theorem Inv.complete (h : Inv s) (hp : p < s.ports.length) (he : emitting (s.port p).op = false) {st : StatusCode}
    {val : Half} {data : List Byte} (hr : ResponseInv { res := resultWord st val, data := data }) :
    Inv (complete p st val data s) :=
  h.keepLock hp ((h.port hp).delivered hr) he.symm

end

/-- A response does not depend on the matcher. -/
theorem complete_feedMatcher (p : Nat) (st : StatusCode) (val : Half) (data : List Byte) (b : Byte) (s : State) :
    complete p st val data (feedMatcher p b s) = feedMatcher p b (complete p st val data s) := by
  simp only [complete, feedMatcher, State.modifyPort, List.modify_modify_eq]
  rfl

/-- Nor does a record that is stored. -/
theorem setOp_feedMatcher (p : Nat) (op : PortOp) (b : Byte) (s : State) :
    setOp p op (feedMatcher p b s) = feedMatcher p b (setOp p op s) := by
  simp only [setOp, feedMatcher, State.modifyPort, List.modify_modify_eq]
  rfl

/-- A completion on a port whose matcher has just been fed: the record that spoke of the cursor is gone. -/
theorem Inv.completeFed {s : State} (h : Inv s) {p : Nat} (hp : p < s.ports.length) (he : emitting (s.port p).op = false)
    (hne : (s.port p).em.pat ≠ []) (b : Byte) {st : StatusCode} {val : Half} {data : List Byte}
    (hr : ResponseInv { res := resultWord st val, data := data }) :
    Inv (Machine.complete p st val data (Machine.feedMatcher p b s)) := by
  rw [complete_feedMatcher]
  have hport := complete_port hp st val data
  refine (h.complete hp he hr).feedMatcher ?_ ?_ ?_
  · exact (List.length_modify _ _ _).symm ▸ hp
  · rwa [hport]
  · rw [hport]
    trivial

end Sys2Proof.Machine
end

section
/-! PROOF. The dispatcher keeps the invariants. -/

namespace Sys2Proof.Machine

/-! ### The frame registers, and a dispatcher that holds nothing -/

/-- The part of the dispatcher's invariant that speaks of neither cursors nor window (R29, R31, R32, R214). -/
structure FrameInv (pktMax : Nat) (d : Disp) : Prop where
  header_le : d.fHdr.length ≤ 5
  header_lt : d.phase = .hdr → d.fHdr.length < 5
  length_le : d.fLen ≤ pktMax
  buffer_le : d.fBuf.length ≤ pktMax
  payload_lt : d.phase = .payload → d.fBuf.length < d.fLen
  complete_eq : d.phase = .putWait → d.fBuf.length = d.fLen
  timer_le : d.t ≤ 65536

theorem DispInv.frame {s : State} (h : DispInv s) : FrameInv s.cfg.pktMax s.disp :=
  ⟨h.header_le, h.header_lt, h.length_le, h.buffer_le, h.payload_lt, h.complete_eq, h.timer_le⟩

/-- Every cursor and the window are cleared (R33). -/
structure Cleared (reg : List Registration) (curs : List Nat) (hold : List Byte) : Prop where
  cursors : curs.length = reg.length
  zero : ∀ c ∈ curs, c = 0
  hold_nil : hold = []

/-- No registered pattern is empty (R170). -/
theorem pattern_pos {cfg : Config} (h : cfg.wf = true) {i : Nat} {r : Registration} (hr : cfg.reg[i]? = some r) :
    0 < r.pat.length := by
  simp only [Config.wf, Bool.and_eq_true, List.all_eq_true, decide_eq_true_eq] at h
  obtain ⟨⟨⟨-, hall⟩, -⟩, -⟩ := h
  exact (hall r (List.mem_of_getElem? hr)).1

/-- A cleared dispatcher meets its invariants in every phase in which its frame registers do. -/
theorem Cleared.dispInv {s : State} (h : Cleared s.cfg.reg s.mcur s.disp.hold) (hw : s.cfg.wf = true)
    (hf : FrameInv s.cfg.pktMax s.disp) :
    DispInv s where
  cursors := h.cursors
  cursor_lt := fun i c r hr hc => h.zero c (List.mem_of_getElem? hc) ▸ pattern_pos hw hr
  held := fun _ => by
    have hmax : s.mcur.foldr max 0 ≤ 0 := List.max_le_of_forall_le _ _ fun c hc => (h.zero c hc).le
    rw [h.hold_nil]
    exact (Nat.le_zero.1 hmax).symm
  claimed := fun _ i c r _ hc => by
    rw [h.hold_nil, h.zero c (List.mem_of_getElem? hc)]
    rfl
  cleared := fun _ => ⟨h.hold_nil, h.zero⟩
  header_le := hf.header_le
  header_lt := hf.header_lt
  length_le := hf.length_le
  buffer_le := hf.buffer_le
  payload_lt := hf.payload_lt
  complete_eq := hf.complete_eq
  timer_le := hf.timer_le

/-- Outside phase SCAN the dispatcher holds nothing. -/
theorem DispInv.toCleared {s : State} (h : DispInv s) (hp : s.disp.phase ≠ .scan) :
    Cleared s.cfg.reg s.mcur s.disp.hold :=
  ⟨h.cursors, (h.cleared hp).2, (h.cleared hp).1⟩

/-- The cursors and the dispatcher's registers take new values. -/
theorem Inv.matching {s : State} (h : Inv s) {curs : List Nat} {d : Disp}
    (hd : DispInv { s with mcur := curs, disp := d }) : Inv { s with mcur := curs, disp := d } where
  config := h.config
  rx := h.rx
  rsp := h.rsp
  disp := hd
  queues := h.queues.congr rfl rfl
  portCount := h.portCount
  ports := h.ports
  lock := h.lock
  flags := h.flags.congr rfl rfl rfl

/-- A cleared dispatcher takes new frame registers. -/
theorem Inv.framed {s : State} (h : Inv s) {d : Disp} (hc : Cleared s.cfg.reg s.mcur d.hold)
    (hf : FrameInv s.cfg.pktMax d) : Inv { s with disp := d } :=
  h.matching (Cleared.dispInv hc h.config hf)

/-! ### Scanning (R174) -/

/-- The cursors after a byte: each one is its own matcher's (R165). -/
theorem getElem?_feedAll {reg : List Registration} {curs : List Nat} {b : Byte} {i c' : Nat}
    (h : ((feedAll reg curs b).map fun x => x.1)[i]? = some c') :
    ∃ r c, reg[i]? = some r ∧ curs[i]? = some c ∧ c' = (smFeed r.pat c b).1 := by
  rw [List.getElem?_map, feedAll] at h
  obtain ⟨x, hx, rfl⟩ := Option.map_eq_some_iff.1 h
  obtain ⟨r, c, hr, hc, rfl⟩ := List.getElem?_zipWith_eq_some.1 hx
  exact ⟨r, c, hr, hc, rfl⟩

/-- A cursor's claim on the window's end, one byte later (R33, R160): the byte extends the claim, or begins a new one, or ends it. -/
theorem claim_fed {pat hold : List Byte} {c : Nat} (hlt : c < pat.length) (hle : c ≤ hold.length)
    (hclaim : hold.drop (hold.length - c) = pat.take c) (b : Byte) :
    (hold ++ [b]).drop ((hold ++ [b]).length - (smFeed pat c b).1) = pat.take (smFeed pat c b).1 := by
  rcases smFeed_cases pat c b hlt with ⟨-, -, h⟩ | ⟨hb, -, h⟩ | ⟨-, -, hb, h⟩ | ⟨-, -, h⟩ <;> simp only [h]
  · simp
  · have hlen : (hold ++ [b]).length - (c + 1) = hold.length - c := by simp
    rw [hlen, List.drop_append_of_le_length (by omega), hclaim, List.take_add_one, hb]
    rfl
  · simp [List.take_add_one, hb]
  · simp

/-- The window the dispatcher keeps carries every claim that the longer one carried (R174). -/
theorem claim_kept {win l : List Byte} {m c : Nat} (hm : m ≤ win.length) (hc : c ≤ m) (h : win.drop (win.length - c) = l) :
    (win.drop (win.length - m)).drop ((win.drop (win.length - m)).length - c) = l := by
  have hsum : win.length - m + ((win.drop (win.length - m)).length - c) = win.length - c := by
    rw [List.length_drop]
    omega
  rw [List.drop_drop, hsum, h]

/-- A byte that no registration completes leaves a window that meets J1 and J2 (R33, R174). -/
theorem DispInv.scanned {s : State} (h : DispInv s) (hp : s.disp.phase = .scan) (b : Byte) :
    let curs := (feedAll s.cfg.reg s.mcur b).map fun x => x.1
    let win := s.disp.hold ++ [b]
    DispInv { s with mcur := curs, disp := { s.disp with hold := win.drop (win.length - maxCur curs) } } := by
  intro curs win
  have hle : ∀ c ∈ s.mcur, c ≤ s.disp.hold.length := fun c hc => h.held hp ▸ List.le_max_of_le' 0 hc le_rfl
  have hmax : maxCur curs ≤ win.length := by
    refine List.max_le_of_forall_le _ _ fun c' hc' => ?_
    obtain ⟨i, hi⟩ := List.mem_iff_getElem?.1 hc'
    obtain ⟨r, c, -, hc, rfl⟩ := getElem?_feedAll hi
    have hold := hle c (List.mem_of_getElem? hc)
    have hfeed := smFeed_cursor_le r.pat c b
    simp only [win, List.length_append, List.length_singleton]
    omega
  refine ⟨?_, ?_, fun _ => ?_, fun _ => ?_, fun hne => absurd hp hne, h.header_le, h.header_lt, h.length_le, h.buffer_le,
    h.payload_lt, h.complete_eq, h.timer_le⟩
  · simp [curs, feedAll, h.cursors]
  · intro i c' r hr hc'
    obtain ⟨r', c, hr', hc, rfl⟩ := getElem?_feedAll hc'
    cases hr.symm.trans hr'
    exact smFeed_cursor_lt _ _ _ (h.cursor_lt i c r hr hc)
  · simp only [List.length_drop]
    exact Nat.sub_sub_self hmax
  · intro i c' r hr hc'
    have hc'm : c' ≤ maxCur curs := List.le_max_of_le' 0 (List.mem_of_getElem? hc') le_rfl
    obtain ⟨r', c, hr', hc, rfl⟩ := getElem?_feedAll hc'
    cases hr.symm.trans hr'
    exact claim_kept hmax hc'm
      (claim_fed (h.cursor_lt i c r hr hc) (hle c (List.mem_of_getElem? hc)) (h.claimed hp i c r hr hc) b)

/-- Released bytes change neither the cursors nor the dispatcher. -/
@[simp] theorem release_disp (bytes : List Byte) (s : State) : (release bytes s).disp = s.disp := by
  obtain ⟨st, h, -⟩ := release_eq bytes s
  rw [h]

theorem bulkEntry_inv {s : State} (h : Inv s) (hc : Cleared s.cfg.reg s.mcur s.disp.hold) : Inv (bulkEntry s) :=
  h.framed hc
    ⟨Nat.zero_le _, fun _ => Nat.zero_lt_succ _, h.disp.length_le, Nat.zero_le _, nofun, nofun, timerLoad_le s⟩

/-- A handler is entered with a cleared window (R176 to R178). -/
theorem invoke_inv {s : State} (h : Inv s) (hc : Cleared s.cfg.reg s.mcur s.disp.hold) (w : Nat) : Inv (invoke w s) := by
  unfold invoke
  split
  · exact h
  · rename_i r hr
    split
    · exact h.setEvent hr ‹_›
    · exact bulkEntry_inv h hc

theorem scanHit_inv {s : State} (h : Inv s) (w : Nat) (win : List Byte) : Inv (scanHit w win s) := by
  unfold scanHit
  dsimp only
  generalize win.take (win.length - patternLen s w) = bytes
  have hu := h.release bytes
  have hcleared : Cleared (release bytes s).cfg.reg (s.mcur.map fun _ => 0) [] :=
    ⟨by rw [(release_inner bytes s).cfg, List.length_map]; exact h.disp.cursors, by simp, rfl⟩
  generalize release bytes s = u at hu hcleared ⊢
  have hf := hu.disp.frame
  have hscan : Inv { u with mcur := s.mcur.map fun _ => 0, disp := { u.disp with hold := [] } } :=
    hu.matching (Cleared.dispInv hcleared hu.config
      ⟨hf.header_le, hf.header_lt, hf.length_le, hf.buffer_le, hf.payload_lt, hf.complete_eq, hf.timer_le⟩)
  exact invoke_inv hscan hcleared w

theorem scanMiss_inv {s : State} (h : Inv s) (hp : s.disp.phase = .scan) (b : Byte) :
    Inv (scanMiss ((feedAll s.cfg.reg s.mcur b).map fun x => x.1) (s.disp.hold ++ [b]) s) :=
  (h.release _).matching ((h.disp.scanned hp b).congr (release_inner _ s).cfg rfl (by rw [release_disp]))

theorem dispScan_inv {s : State} (h : Inv s) (hp : s.disp.phase = .scan) : Inv (dispScan s) := by
  unfold dispScan
  split
  · exact h
  · rename_i b u hpop
    have hu := h.rbPop hpop
    obtain ⟨-, -, rfl⟩ := rbPop_eq_some hpop
    dsimp only
    split
    · exact scanHit_inv hu _ _
    · exact scanMiss_inv hu hp b

/-! ### Reassembling a frame (R213 to R217) -/

/-- The state with the dispatcher back in phase SCAN. While a frame's last byte is being taken in, the phase register is still to be
written, and only this state meets the invariants. -/
def returned (s : State) : State := { s with disp := { s.disp with phase := .scan } }

theorem packetReady_inv {s : State} (h : Inv (returned s)) (hc : Cleared s.cfg.reg s.mcur s.disp.hold)
    (hlen : s.disp.fBuf.length = s.disp.fLen) :
    Inv (packetReady s) := by
  have hd : FrameInv s.cfg.pktMax { s.disp with phase := .putWait } :=
    ⟨h.disp.header_le, nofun, h.disp.length_le, h.disp.buffer_le, nofun, fun _ => hlen, h.disp.timer_le⟩
  unfold packetReady
  dsimp only
  split
  · exact (h.setFlag .pqStall).framed hc hd
  · exact h.framed hc hd

/-- A frame is given up from either phase of reading (R216). -/
theorem frameAbort_inv {s : State} (h : Inv s) (hc : Cleared s.cfg.reg s.mcur s.disp.hold) : Inv (frameAbort s) :=
  (h.setFlag .frameShort).framed hc
    ⟨Nat.zero_le _, nofun, h.disp.length_le, Nat.zero_le _, nofun, nofun, h.disp.timer_le⟩

/-- A header that is accepted names a length the block can hold (R217). -/
theorem headerRead_le {pktMax : Nat} {hdr : List Byte} {cid : BitVec 4} {len : Nat}
    (h : headerRead pktMax hdr = some (cid, len)) : len ≤ pktMax := by
  unfold headerRead at h
  split at h
  · split at h
    · rename_i hok
      simp only [Bool.and_eq_true, decide_eq_true_eq] at hok
      cases h
      exact hok.2
    · cases h
  · cases h

/-- The fifth header byte ends phase HDR in each case (R213, R217). -/
theorem judgeHeader_inv {s : State} (h : Inv (returned s)) (hc : Cleared s.cfg.reg s.mcur s.disp.hold) : Inv (judgeHeader s) := by
  unfold judgeHeader
  split
  · rename_i cid len hread
    have hle := headerRead_le hread
    dsimp only
    split
    · rename_i hzero
      refine packetReady_inv (h.framed hc ?_) hc hzero.symm
      exact ⟨h.disp.header_le, nofun, hle, Nat.zero_le _, nofun, nofun, h.disp.timer_le⟩
    · rename_i hpos
      refine h.framed hc ?_
      exact ⟨h.disp.header_le, nofun, hle, Nat.zero_le _, fun _ => Nat.pos_of_ne_zero hpos, nofun, h.disp.timer_le⟩
  · exact h.setFlag .frameBad

theorem dispHdr_inv {s : State} (h : Inv s) (hp : s.disp.phase = .hdr) : Inv (dispHdr s) := by
  have hc := h.disp.toCleared (by simp [hp])
  unfold dispHdr
  split
  · rename_i b u hpop
    have hu := h.rbPop hpop
    obtain ⟨-, -, rfl⟩ := rbPop_eq_some hpop
    have hlt := h.disp.header_lt hp
    have hle : (s.disp.fHdr ++ [b]).length ≤ 5 := by simpa using hlt
    have hd := h.disp
    dsimp only
    split
    · refine judgeHeader_inv (hu.framed hc ?_) hc
      exact ⟨hle, nofun, hd.length_le, hd.buffer_le, nofun, nofun, timerLoad_le s⟩
    · rename_i hne
      refine hu.framed hc ?_
      exact ⟨hle, fun _ => Nat.lt_of_le_of_ne hle hne, hd.length_le, hd.buffer_le, hd.payload_lt, hd.complete_eq,
        timerLoad_le s⟩
  · exact frameAbort_inv h hc

theorem dispPayload_inv {s : State} (h : Inv s) (hp : s.disp.phase = .payload) : Inv (dispPayload s) := by
  have hc := h.disp.toCleared (by simp [hp])
  unfold dispPayload
  split
  · rename_i b u hpop
    have hu := h.rbPop hpop
    obtain ⟨-, -, rfl⟩ := rbPop_eq_some hpop
    have hd := h.disp
    have hle : (s.disp.fBuf ++ [b]).length ≤ s.disp.fLen := by simpa using hd.payload_lt hp
    have hmax := hle.trans hd.length_le
    dsimp only
    split
    · rename_i hfull
      refine packetReady_inv (hu.framed hc ?_) hc hfull
      exact ⟨hd.header_le, nofun, hd.length_le, hmax, nofun, nofun, timerLoad_le s⟩
    · rename_i hne
      refine hu.framed hc ?_
      exact ⟨hd.header_le, hd.header_lt, hd.length_le, hmax, fun _ => Nat.lt_of_le_of_ne hle hne,
        fun hw => absurd (hp.symm.trans hw) (by decide), timerLoad_le s⟩
  · exact frameAbort_inv h hc

/-- The packet that is put is whole and goes to its own queue, which has room (R215). -/
theorem dispPut_inv {s : State} (h : Inv s) (hp : s.disp.phase = .putWait)
    (hroom : (s.queue s.disp.fCid).length < Config.qcap) : Inv (dispPut s) := by
  have hc := h.disp.toCleared (by simp [hp])
  have hd := h.disp
  have hpkt : PacketInv s.cfg.pktMax s.disp.fCid { cid := s.disp.fCid, data := s.disp.fBuf, off := 0, len := s.disp.fLen } :=
    ⟨rfl, (Nat.zero_add _).trans (hd.complete_eq hp).symm, hd.buffer_le⟩
  exact (h.setQueue ((h.queue s.disp.fCid).append hroom hpkt rfl)).framed hc
    ⟨Nat.zero_le _, nofun, hd.length_le, Nat.zero_le _, nofun, nofun, hd.timer_le⟩

/-- Every enabled step of the dispatcher keeps the invariants. -/
theorem dispStep_inv {s : State} (h : Inv s) (hen : dispEnabled s = true) : Inv (dispStep s) := by
  unfold dispEnabled at hen
  unfold dispStep
  cases hp : s.disp.phase with
  | scan => exact dispScan_inv h hp
  | hdr => exact dispHdr_inv h hp
  | payload => exact dispPayload_inv h hp
  | putWait =>
    rw [hp] at hen
    exact dispPut_inv h hp (of_decide_eq_true hen)

end Sys2Proof.Machine
end

section
/-! PROOF. The clients, the tick and reset keep the invariants, and so does every step. -/

namespace Sys2Proof.Machine

/-! ### Issue steps -/

/-- A pattern in range fits the matcher and is not empty (R45, R108). -/
theorem patternInRange_iff {pat : List Byte} {s : State} :
    patternInRange pat s = true ↔ pat ≠ [] ∧ pat.length ≤ s.cfg.pmax := by
  rw [patternInRange, Bool.and_eq_true, decide_eq_true_eq, decide_eq_true_eq, ← List.length_pos_iff]
  rfl

/-- What stands on a port that is ready to issue. -/
theorem Ready.not_emitting {s : State} (hr : Ready s) : emitting (s.port s.cur).op = false := by
  rw [hr.2]
  rfl

/-- A completion without data bytes on the ready port, after a change that left the ports alone. -/
theorem Inv.answer {s u : State} (h : Inv u) (hr : Ready s) (hu : u.ports = s.ports) {st : StatusCode} {val : Half} :
    Inv (Machine.complete s.cur st val [] u) := by
  have hport : u.port s.cur = s.port s.cur := by simp [State.port, hu]
  exact h.complete (hu ▸ hr.1) (hport ▸ hr.not_emitting) (responseInv_noData st val)

/-- A record stored on the ready port. -/
theorem Inv.record {s : State} (h : Inv s) (hr : Ready s) {op : PortOp} (hop : OpInv (s.port s.cur).em op)
    (he : emitting op = false) : Inv (Machine.setOp s.cur op s) :=
  h.setOp hr.1 hop (he.trans hr.not_emitting.symm)

/-- A pattern that fits, loaded on the ready port. -/
theorem Inv.load {s : State} (h : Inv s) (hr : Ready s) {pat : List Byte} (hp : pat.length ≤ s.cfg.pmax) :
    Inv (Machine.loadMatcher s.cur pat s) :=
  h.loadMatcher hr.1 (hp.trans (le_max_left _ _)) (by rw [hr.2]; trivial)

/-- The port is ready as before. -/
theorem Ready.load {s : State} (hr : Ready s) (pat : List Byte) : Ready (loadMatcher s.cur pat s) :=
  ⟨(List.length_modify _ _ _).symm ▸ hr.1, (congrArg Port.op (loadMatcher_port hr.1 pat)).trans hr.2⟩

/-- A pattern that fits is loaded on the ready port, and then a record stored that it allows. -/
theorem Inv.loadRecord {s : State} (h : Inv s) (hr : Ready s) {pat : List Byte} (hp : pat.length ≤ s.cfg.pmax)
    {op : PortOp} (hop : OpInv { pat := pat, cur := 0 } op) (he : emitting op = false) :
    Inv (Machine.setOp s.cur op (Machine.loadMatcher s.cur pat s)) := by
  refine (h.load hr hp).record (hr.load pat) ?_ he
  have hport : ((Machine.loadMatcher s.cur pat s).port s.cur).em = { pat := pat, cur := 0 } :=
    congrArg Port.em (loadMatcher_port hr.1 pat)
  exact hport ▸ hop

/-- Every operation's issue step keeps the invariants, and so does the arrival of a wire format. -/
theorem exec_inv {i : Instr} {s t : State} (h : Inv s) (hr : Ready s) (hw : i.wellFormed = true) (hx : exec i s = .next t) :
    Inv t := by
  have hload := timerLoad_le s
  cases i with
  | rbPush sel b =>
    obtain ⟨-, rfl⟩ := issueOn_next (show execRbPush sel b s = _ from hx)
    exact (h.rbPush sel b).answer hr (rbPush_inner sel b s).ports
  | rbPop sel =>
    obtain ⟨-, rfl⟩ := issueOn_next (show execRbPop sel s = _ from hx)
    split
    · exact h.answer hr rfl
    · rename_i b u hpop
      exact (h.rbPop hpop).answer hr (rbPop_inner hpop).ports
  | rbEmpty sel =>
    obtain ⟨-, rfl⟩ := issueOn_next (show execRbEmpty sel s = _ from hx)
    exact h.answer hr rfl
  | rbRewind sel k =>
    obtain ⟨-, rfl⟩ := issueOn_next (show execRbRewind sel k s = _ from hx)
    split
    · exact h.answer hr rfl
    · rename_i u hrew
      exact (h.rbRewind hrew).answer hr (rbRewind_inner hrew).ports
  | rbGetc sel =>
    obtain ⟨-, rfl⟩ := issueOn_next (show execRbGetc sel s = _ from hx)
    exact h.record hr hload rfl
  | smLoad pat =>
    obtain ⟨-, rfl⟩ := issueOn_next (show execSmLoad pat s = _ from hx)
    split
    · rename_i hpat
      exact (h.load hr (patternInRange_iff.1 hpat).2).answer (hr.load pat) rfl
    · exact h.answer hr rfl
  | smFeed b =>
    obtain ⟨-, rfl⟩ := issueOn_next (show execSmFeed b s = _ from hx)
    split
    · exact h.answer hr rfl
    · rename_i hne
      exact h.completeFed hr.1 hr.not_emitting hne b (responseInv_noData _ _)
  | chSend str =>
    obtain ⟨-, rfl⟩ := issueOn_next (show execChSend str s = _ from hx)
    have hlen : str.length ≤ 65535 := of_decide_eq_true hw
    exact h.record hr ⟨Nat.zero_le _, fun _ => rfl, hlen, Nat.zero_le _, fun _ => rfl⟩ rfl
  | chRecv token =>
    obtain ⟨-, rfl⟩ := issueOn_next (show execChRecv token s = _ from hx)
    split
    · rename_i hpat
      obtain ⟨hne, hle⟩ := patternInRange_iff.1 hpat
      exact h.loadRecord hr hle ⟨hload, hne⟩ rfl
    · exact h.answer hr rfl
  | chReadtill limit delim =>
    obtain ⟨-, rfl⟩ := issueOn_next (show execChReadtill limit delim s = _ from hx)
    split
    · rename_i hpat
      obtain ⟨hne, hle⟩ := patternInRange_iff.1 hpat
      split
      · exact (h.load hr hle).answer (hr.load delim) rfl
      · rename_i hlimit
        have hpos : 0 < limit.toNat := Nat.pos_of_ne_zero fun e => hlimit (BitVec.eq_of_toNat_eq e)
        have hmax : limit.toNat ≤ 65535 := Nat.le_of_lt_succ limit.isLt
        exact h.loadRecord hr hle ⟨hload, hne, hpos, hmax, Nat.zero_le _⟩ rfl
    · exact h.answer hr rfl
  | chSetto ms =>
    obtain ⟨-, rfl⟩ := issueOn_next (show execChSetto ms s = _ from hx)
    have hset : Inv { s with timeout := ms } := h.congr rfl rfl rfl rfl rfl rfl rfl rfl rfl rfl
    exact hset.answer hr rfl
  | pqRecv cid amount =>
    obtain ⟨-, rfl⟩ := issueOn_next (show execPqRecv cid amount s = _ from hx)
    exact h.record hr ⟨Nat.le_of_lt_succ amount.isLt, hload⟩ rfl
  | bdSend cid data =>
    obtain ⟨-, rfl⟩ := issueOn_next (show execBdSend cid data s = _ from hx)
    split
    · rename_i hlen
      have hstr : (bulkHeader cid data.length ++ data).length ≤ 65535 := by
        simp only [bulkHeader, dec4, List.length_append, List.length_cons, List.length_nil]
        omega
      exact h.record hr ⟨Nat.zero_le _, fun _ => rfl, hstr, hlen, nofun⟩ rfl
    · exact h.answer hr rfl
  | pqFlush cid =>
    obtain ⟨-, rfl⟩ := issueOn_next (show execPqFlush cid s = _ from hx)
    exact (h.setQueue .nil).answer hr rfl
  | sysRdstat =>
    obtain ⟨-, rfl⟩ := issueOn_next (show execSysRdstat s = _ from hx)
    exact h.answer hr rfl
  | sysRdevt =>
    obtain ⟨-, rfl⟩ := issueOn_next (show execSysRdevt s = _ from hx)
    exact (h.withEvents (e := 0) (by simp)).answer hr rfl
  | wireBulkFrame c d3 d2 d1 d0 payload =>
    cases hx
    exact h.rxBytes _
  | wireDataAccepted =>
    cases hx
    exact h.rxBytes _

/-! ### Progress steps -/

section
variable {s : State} {p : Nat}

theorem stepGetc_inv {t : Nat} {sel : RingSel} (h : Inv s) (hp : p < s.ports.length) (hop : (s.port p).op = .getc sel t) :
    Inv (stepGetc p sel s) := by
  have he : emitting (s.port p).op = false := by rw [hop]; rfl
  unfold stepGetc
  split
  · rename_i b u hpop
    have hu := rbPop_inner hpop
    exact (h.rbPop hpop).complete (hu.ports ▸ hp) (hu.port p ▸ he) (responseInv_noData _ _)
  · exact h.complete hp he (responseInv_noData _ _)

theorem stepLock_inv {str : List Byte} {i n : Nat} {bulk : Bool} (h : Inv s) (hp : p < s.ports.length)
    (hop : (s.port p).op = .send str i .lock bulk n) (hfree : s.txOwner = none) : Inv (stepLock p str i bulk n s) := by
  have hrec := (h.port hp).record
  rw [hop] at hrec
  obtain ⟨hi, -, hlen, hn, hbulk⟩ := hrec
  exact h.takeLock hp ((h.port hp).record_le ⟨hi, nofun, hlen, hn, hbulk⟩) hfree rfl

theorem stepRefused_inv {str : List Byte} {i n : Nat} {bulk : Bool} (h : Inv s) (hp : p < s.ports.length)
    (hop : (s.port p).op = .send str i .emit bulk n) : Inv (stepRefused p i bulk s) :=
  h.dropLock hp ((h.port hp).delivered (responseInv_noData _ _)) (by rw [hop]; rfl) rfl

theorem stepSent_inv {str : List Byte} {i n : Nat} {bulk : Bool} (h : Inv s) (hp : p < s.ports.length)
    (hop : (s.port p).op = .send str i .emit bulk n) : Inv (stepSent p str bulk n s) := by
  have hrec := (h.port hp).record
  rw [hop] at hrec
  obtain ⟨hi, hlock, hlen, hn, hbulk⟩ := hrec
  have he : emitting (s.port p).op = true := by rw [hop]; rfl
  cases bulk with
  | false => exact h.dropLock hp ((h.port hp).delivered (responseInv_noData _ _)) he rfl
  | true =>
    have hload : Inv (loadMatcher p dataAcceptedToken s) :=
      h.loadMatcher hp (le_max_right _ _) (by rw [hop]; exact ⟨hi, hlock, hlen, hn, hbulk⟩)
    have hp' : p < (loadMatcher p dataAcceptedToken s).ports.length := (List.length_modify _ _ _).symm ▸ hp
    have hport := loadMatcher_port hp dataAcceptedToken
    refine hload.dropLock hp' ((hload.port hp').record_le ?_) (by rw [hport]; exact he) rfl
    rw [hport]
    exact ⟨hn, timerLoad_le _, rfl⟩

/-- A byte that is accepted goes out, and the record counts it. -/
theorem emit_inv {str : List Byte} {i n : Nat} {bulk : Bool} {b : Byte} (h : Inv s) (hp : p < s.ports.length)
    (hop : (s.port p).op = .send str i .emit bulk n) (hb : str[i]? = some b) :
    Inv (setOp p (.send str (i + 1) .emit bulk n) { s with txLog := s.txLog ++ [b] }) := by
  have hrec := (h.port hp).record
  rw [hop] at hrec
  obtain ⟨-, -, hlen, hn, hbulk⟩ := hrec
  have hi : i < str.length := (List.getElem?_eq_some_iff.1 hb).1
  have hlog : Inv { s with txLog := s.txLog ++ [b] } := h.congr rfl rfl rfl rfl rfl rfl rfl rfl rfl rfl
  refine hlog.setOp hp ⟨hi, nofun, hlen, hn, hbulk⟩ ?_
  exact (congrArg emitting hop).symm

theorem stepEmit_inv {str : List Byte} {i n : Nat} {bulk accept : Bool} (h : Inv s) (hp : p < s.ports.length)
    (hop : (s.port p).op = .send str i .emit bulk n) : Inv (stepEmit p str i bulk n accept s) := by
  unfold stepEmit
  split
  · exact stepSent_inv h hp hop
  · split
    · exact emit_inv h hp hop ‹_›
    · exact stepRefused_inv h hp hop

/-- A pull by a record that speaks of the matcher's pattern only (R194, R220). -/
theorem stepPull_inv {t : Nat} (h : Inv s) (hp : p < s.ports.length) (timeoutVal okVal : Half)
    (he : emitting (s.port p).op = false) (hne : (s.port p).em.pat ≠ [])
    (hop : ∀ cur, OpInv { (s.port p).em with cur := cur } (s.port p).op) : Inv (stepPull p t timeoutVal okVal s) := by
  unfold stepPull
  split
  · exact h.complete hp he (responseInv_noData _ _)
  · split
    · exact h
    · rename_i b u hpop
      have hu := h.rbPop hpop
      have hpu : p < u.ports.length := (rbPop_inner hpop).ports ▸ hp
      rw [← (rbPop_inner hpop).port p] at he hne hop
      split
      · exact hu.completeFed hpu he hne b (responseInv_noData _ _)
      · exact hu.feedMatcher hpu hne (hop _)

theorem stepReadtill_inv {limit t : Nat} {out : List Byte} (h : Inv s) (hp : p < s.ports.length)
    (hop : (s.port p).op = .readtill limit out t) : Inv (stepReadtill p limit out t s) := by
  have he : emitting (s.port p).op = false := by rw [hop]; rfl
  have hrec := (h.port hp).record
  rw [hop] at hrec
  obtain ⟨ht, hne, hout, hlimit, hcur⟩ := hrec
  unfold stepReadtill
  split
  · exact h.complete hp he (responseInv_noData _ _)
  · split
    · exact h
    · rename_i b u hpop
      have hu := h.rbPop hpop
      have hpu : p < u.ports.length := (rbPop_inner hpop).ports ▸ hp
      rw [← (rbPop_inner hpop).port p] at he hne hcur
      have hlen : (out ++ [b]).length = out.length + 1 := List.length_append
      dsimp only
      split
      · refine hu.completeFed hpu he hne b (responseInv_data ?_ ?_)
        · omega
        · rw [List.length_take]
          omega
      · split
        · rename_i hfull
          exact hu.completeFed hpu he hne b (responseInv_data hlimit hfull)
        · have hmore : (out ++ [b]).length < limit := by omega
          have hfeed := smFeed_cursor_le (u.port p).em.pat (u.port p).em.cur b
          have hset : Inv (setOp p (.readtill limit (out ++ [b]) t) u) :=
            hu.setOp hpu ⟨ht, hne, hmore, hlimit, by omega⟩ he.symm
          rw [setOp_feedMatcher]
          refine hset.feedMatcher ((List.length_modify _ _ _).symm ▸ hpu) ?_ ?_
          · rwa [setOp_port hpu]
          · rw [setOp_port hpu]
            exact ⟨ht, hne, hmore, hlimit, by dsimp only; omega⟩

theorem stepPqRecv_inv {amount t : Nat} {cid : BitVec 4} (h : Inv s) (hp : p < s.ports.length)
    (hop : (s.port p).op = .pqrecv cid amount t) : Inv (stepPqRecv p cid amount s) := by
  have he : emitting (s.port p).op = false := by rw [hop]; rfl
  have hrec := (h.port hp).record
  rw [hop] at hrec
  obtain ⟨hamount, -⟩ := hrec
  unfold stepPqRecv
  split
  · exact h.complete hp he (responseInv_noData _ _)
  · rename_i pkt u hget
    obtain ⟨rest, hq, rfl⟩ := pqGet_eq_some hget
    have hqueue := h.queue cid
    rw [hq] at hqueue
    have hrest := h.setQueue hqueue.rest
    obtain ⟨-, hsplit, hdata⟩ := hqueue.packets pkt List.mem_cons_self
    split
    · refine hrest.complete hp he (responseInv_data ?_ ?_)
      · omega
      · rw [List.length_take, List.length_drop]
        omega
    · rename_i hmore
      have hput : Inv (pqPutHead cid { pkt with off := pkt.off + amount, len := pkt.len - amount } (s.setQueue cid rest)) := by
        refine hrest.setQueue ?_
        rw [setQueue_queue_self]
        exact hqueue.consume (Nat.le_of_not_le hmore)
      refine hput.complete hp he (responseInv_data hamount ?_)
      rw [List.length_take, List.length_drop]
      omega

/-- Every enabled progress step keeps the invariants. -/
theorem cliStep_inv {accept : Bool} (h : Inv s) (hen : cliEnabled p s = true) : Inv (cliStep p accept s) := by
  have hp := cliEnabled_lt hen
  have hrec := (h.port hp).record
  unfold cliStep
  cases hop : (s.port p).op with
  | idle => exact h
  | getc sel t => exact stepGetc_inv h hp hop
  | send str i stage bulk n =>
    cases stage with
    | lock =>
      have hfree : s.txOwner = none := by simpa [cliEnabled, hop, hp] using hen
      exact stepLock_inv h hp hop hfree
    | emit => exact stepEmit_inv h hp hop
  | recv t =>
    rw [hop] at hrec
    exact stepPull_inv h hp _ _ (by rw [hop]; rfl) hrec.2 fun _ => by rw [hop]; exact hrec
  | readtill limit out t => exact stepReadtill_inv h hp hop
  | pqrecv cid amount t => exact stepPqRecv_inv h hp hop
  | tokwait n t =>
    rw [hop] at hrec
    obtain ⟨hn, ht, htoken⟩ := hrec
    exact stepPull_inv h hp _ _ (by rw [hop]; rfl) (by rw [htoken]; nofun) fun _ => by rw [hop]; exact ⟨hn, ht, htoken⟩

end

/-! ### Tick and reset -/

/-- A tick only lowers the read timer (R262). -/
theorem tickDisp_eq (d : Disp) : ∃ t, t ≤ d.t ∧ tickDisp d = { d with t := t } := by
  unfold tickDisp
  split
  · exact ⟨d.t, le_rfl, rfl⟩
  · exact ⟨d.t - 1, Nat.sub_le _ _, rfl⟩
  · exact ⟨d.t - 1, Nat.sub_le _ _, rfl⟩
  · exact ⟨d.t, le_rfl, rfl⟩

/-- A tick only lowers a port's timer, so the record keeps its ranges (R262). -/
theorem OpInv.tick {em : Matcher} {op : PortOp} (h : OpInv em op) : OpInv em (tickOp op) := by
  cases op with
  | idle => exact h
  | getc sel t => exact (Nat.sub_le t 1).trans h
  | send str i stage bulk n => exact h
  | recv t => exact ⟨(Nat.sub_le t 1).trans h.1, h.2⟩
  | readtill limit out t => exact ⟨(Nat.sub_le t 1).trans h.1, h.2⟩
  | pqrecv cid amount t => exact ⟨h.1, (Nat.sub_le t 1).trans h.2⟩
  | tokwait n t => exact ⟨h.1, (Nat.sub_le t 1).trans h.2.1, h.2.2⟩

/-- A tick takes no lock and drops none. -/
theorem emitting_tickOp (op : PortOp) : emitting (tickOp op) = emitting op := by cases op <;> rfl

theorem tickStep_inv {s : State} (h : Inv s) : Inv (tickStep s) where
  config := h.config
  rx := h.rx
  rsp := h.rsp
  disp := by
    obtain ⟨t, ht, hd⟩ := tickDisp_eq s.disp
    have hi := h.disp
    have hdisp : DispInv { s with disp := { s.disp with t := t } } :=
      ⟨hi.cursors, hi.cursor_lt, hi.held, hi.claimed, hi.cleared, hi.header_le, hi.header_lt, hi.length_le, hi.buffer_le,
        hi.payload_lt, hi.complete_eq, ht.trans hi.timer_le⟩
    exact hdisp.congr rfl rfl hd
  queues := h.queues.congr rfl rfl
  portCount := (List.length_map _).trans h.portCount
  ports := by
    intro o' ho'
    obtain ⟨o, ho, rfl⟩ := List.mem_map.1 ho'
    have hport := h.ports o ho
    exact hport.record_le hport.record.tick
  lock := by
    have hlen : (tickStep s).ports.length = s.ports.length := List.length_map _
    refine ⟨fun p hp => hlen ▸ h.lock.1 p hp, fun p hp => ?_⟩
    rw [tickStep_port, emitting_tickOp]
    exact h.lock.2 p (hlen ▸ hp)
  flags := h.flags.congr rfl rfl rfl

/-- Both rings have a slot (R5). -/
theorem capacity_pos {cfg : Config} (h : cfg.wf = true) : 1 ≤ cfg.rxN ∧ 1 ≤ cfg.rspN := by
  simp only [Config.wf, Bool.and_eq_true, decide_eq_true_eq] at h
  omega

/-- The state after reset meets the invariants, for all legal parameters (R50). -/
theorem initial_inv {cfg : Config} (hw : cfg.wf = true) (script : List Action) (clock : Nat) :
    Inv (State.initial cfg script clock) where
  config := hw
  rx := .init (capacity_pos hw).1
  rsp := .init (capacity_pos hw).2
  disp := Cleared.dispInv ⟨List.length_replicate, fun _ hc => List.eq_of_mem_replicate hc, rfl⟩ hw
    ⟨Nat.zero_le _, nofun, Nat.zero_le _, Nat.zero_le _, nofun, nofun, Nat.zero_le _⟩
  queues := queueInv_iff.2 fun c => by
    have hq : (State.initial cfg script clock).queue c = [] := by simp [State.queue, State.initial]
    rw [hq]
    exact .nil
  portCount := List.length_replicate
  ports := fun o ho => by
    rw [List.eq_of_mem_replicate ho]
    exact ⟨Nat.zero_le _, Nat.zero_le _, trivial, nofun⟩
  lock := by
    refine ⟨nofun, fun p hp => ?_⟩
    rw [initial_port]
    exact ⟨nofun, nofun⟩
  flags := ⟨fun i _ => BitVec.getLsbD_zero, fun i hi => absurd hi (by simp [State.initial])⟩

/-! ### The statements -/

/-- Settles O51. -/
theorem resetMeetsInvariant : Obligations.ResetMeetsInvariant :=
  ⟨initial_inv (by decide) [] 0, fun _ hw => initial_inv hw⟩

/-- Every outcome of a choice keeps the invariants. -/
theorem Taken.inv {u t : State} {a : Action} (ht : Taken u a t) (h : Inv u) : Inv t := by
  cases ht with
  | idle => exact h
  | @issue p i _ cmd payload ready wf next =>
    have hcur : Inv { u with cur := p } := h.congr rfl rfl rfl rfl rfl rfl rfl rfl rfl rfl
    exact exec_inv hcur ((portReady_iff p u).1 ready) wf next
  | @illegal p cmd payload ready =>
    obtain ⟨hlt, hidle⟩ := (portReady_iff p u).1 ready
    exact h.complete hlt (by rw [hidle]; rfl) (responseInv_noData _ _)
  | rx bytes => exact h.rxBytes bytes
  | disp enabled => exact dispStep_inv h enabled
  | cli accept enabled => exact cliStep_inv h enabled
  | tick => exact tickStep_inv h
  | reset => exact initial_inv h.config u.script u.clock

/-- Settles O52, by the outcomes of the environment's choice. -/
theorem everyStepKeepsInvariant : Obligations.EveryStepKeepsInvariant :=
  fun _ _ h hstep => (step_taken hstep).inv h.advance

end Sys2Proof.Machine
end

section
/-! PROOF. The canonical form of the ring stores: only a push writes a store, so every step keeps it, whatever else the state is. -/

namespace Sys2Proof.Machine

/-- Both ring stores are in canonical form (log entry 4). -/
structure StoresCanonical (s : State) : Prop where
  rx : Memory.wf s.rx.store = true
  rsp : Memory.wf s.rsp.store = true

/-! ### The shared operations -/

/-- Only the two rings matter. -/
theorem StoresCanonical.congr {s t : State} (h : StoresCanonical s) (hx : t.rx = s.rx) (hr : t.rsp = s.rsp) :
    StoresCanonical t := ⟨hx ▸ h.rx, hr ▸ h.rsp⟩

theorem StoresCanonical.advance {s : State} (h : StoresCanonical s) : StoresCanonical (advance s) :=
  h.congr (advance_rx s) (advance_rsp s)

theorem StoresCanonical.ite {c : Prop} [Decidable c] {s t : State} (hs : StoresCanonical s) (ht : StoresCanonical t) :
    StoresCanonical (if c then s else t) := by
  split
  · exact hs
  · exact ht

theorem StoresCanonical.ring {s : State} (h : StoresCanonical s) (sel : RingSel) : Memory.wf (s.ring sel).store = true := by
  cases sel with
  | rx => exact h.rx
  | rsp => exact h.rsp

theorem StoresCanonical.setRing {s : State} (h : StoresCanonical s) {sel : RingSel} {r : Ring} (hr : Memory.wf r.store = true) :
    StoresCanonical (s.setRing sel r) := by
  cases sel with
  | rx => exact ⟨hr, h.rsp⟩
  | rsp => exact ⟨h.rx, hr⟩

/-- A push writes one slot of its own store (R140). -/
theorem StoresCanonical.rbPush {s : State} (h : StoresCanonical s) (sel : RingSel) (b : Byte) :
    StoresCanonical (rbPush sel b s) := by
  have hpush : StoresCanonical (s.setRing sel (Ring.push (Config.ringN s.cfg sel) (s.ring sel) b)) :=
    h.setRing (memWrite_wf (h.ring sel) _ b)
  exact .ite (hpush.congr rfl rfl) hpush

/-- A pop moves indices only (R141). -/
theorem StoresCanonical.rbPop {s t : State} (h : StoresCanonical s) {sel : RingSel} {b : Byte}
    (hp : rbPop sel s = some (b, t)) : StoresCanonical t := by
  obtain ⟨-, -, rfl⟩ := rbPop_eq_some hp
  exact h.setRing (h.ring sel)

/-- A rewind moves indices only (R143). -/
theorem StoresCanonical.rbRewind {s t : State} (h : StoresCanonical s) {sel : RingSel} {k : Nat}
    (hr : rbRewind sel k s = some t) : StoresCanonical t := by
  obtain ⟨r, hrew, rfl⟩ := rbRewind_eq_some hr
  obtain ⟨-, rfl⟩ := ringRewind_eq_some.1 hrew
  exact h.setRing (h.ring sel)

theorem StoresCanonical.rxBytes {s : State} (h : StoresCanonical s) (bytes : List Byte) : StoresCanonical (rxBytes bytes s) := by
  induction bytes generalizing s with
  | nil => exact h
  | cons b bytes ih => exact ih (h.rbPush .rx b)

theorem StoresCanonical.release {s : State} (h : StoresCanonical s) (bytes : List Byte) : StoresCanonical (release bytes s) := by
  induction bytes generalizing s with
  | nil => exact h
  | cons b bytes ih => exact ih (h.rbPush .rsp b)

/-! ### Issue steps -/

/-- An issue step has the stores of its effect. -/
theorem StoresCanonical.issue {s t : State} {f : Nat → State} (hx : issueOn s f = .next t) (hf : StoresCanonical (f s.cur)) :
    StoresCanonical t := by
  obtain ⟨-, rfl⟩ := issueOn_next hx
  exact hf

/-- Every instruction: the operations on rings and the wire formats go through the rings' own rules, the others
leave both rings alone. -/
theorem StoresCanonical.exec {i : Instr} {s t : State} (h : StoresCanonical s) (hx : exec i s = .next t) : StoresCanonical t := by
  unfold Machine.exec at hx
  cases i with
  | rbPush sel b => exact .issue hx ((h.rbPush sel b).congr rfl rfl)
  | rbPop sel =>
    refine .issue hx ?_
    split
    · exact h.congr rfl rfl
    · rename_i b u hpop
      have hu := h.rbPop hpop
      exact hu.congr rfl rfl
  | rbEmpty sel => exact .issue hx (h.congr rfl rfl)
  | rbRewind sel k =>
    refine .issue hx ?_
    split
    · exact h.congr rfl rfl
    · rename_i u hrew
      have hu := h.rbRewind hrew
      exact hu.congr rfl rfl
  | rbGetc sel => exact .issue hx (h.congr rfl rfl)
  | smLoad pat => exact .issue hx (.ite (h.congr rfl rfl) (h.congr rfl rfl))
  | smFeed b => exact .issue hx (.ite (h.congr rfl rfl) (h.congr rfl rfl))
  | chSend str => exact .issue hx (h.congr rfl rfl)
  | chRecv token => exact .issue hx (.ite (h.congr rfl rfl) (h.congr rfl rfl))
  | chReadtill limit delim =>
    exact .issue hx (.ite (.ite (h.congr rfl rfl) (h.congr rfl rfl)) (h.congr rfl rfl))
  | chSetto ms => exact .issue hx (h.congr rfl rfl)
  | pqRecv cid amount => exact .issue hx (h.congr rfl rfl)
  | bdSend cid data => exact .issue hx (.ite (h.congr rfl rfl) (h.congr rfl rfl))
  | pqFlush cid => exact .issue hx (h.congr rfl rfl)
  | sysRdstat => exact .issue hx (h.congr rfl rfl)
  | sysRdevt => exact .issue hx (h.congr rfl rfl)
  | wireBulkFrame c d3 d2 d1 d0 payload =>
    cases hx
    exact h.rxBytes _
  | wireDataAccepted =>
    cases hx
    exact h.rxBytes _

/-! ### Progress steps -/

section
variable {s : State} {p : Nat}

theorem stepGetc_stores {sel : RingSel} (h : StoresCanonical s) : StoresCanonical (stepGetc p sel s) := by
  unfold stepGetc
  split
  · rename_i b u hpop
    have hu := h.rbPop hpop
    exact hu.congr rfl rfl
  · exact h.congr rfl rfl

theorem stepEmit_stores {str : List Byte} {i n : Nat} {bulk accept : Bool} (h : StoresCanonical s) :
    StoresCanonical (stepEmit p str i bulk n accept s) := by
  unfold stepEmit
  split
  · exact .ite (h.congr rfl rfl) (h.congr rfl rfl)
  · exact .ite (h.congr rfl rfl) (h.congr rfl rfl)

/-- A pull takes at most one byte from RSP (R194, R220). -/
theorem stepPull_stores {t : Nat} {timeoutVal okVal : Half} (h : StoresCanonical s) :
    StoresCanonical (stepPull p t timeoutVal okVal s) := by
  refine .ite (h.congr rfl rfl) ?_
  split
  · exact h
  · rename_i b u hpop
    have hu := h.rbPop hpop
    exact .ite (hu.congr rfl rfl) (hu.congr rfl rfl)

theorem stepReadtill_stores {limit t : Nat} {out : List Byte} (h : StoresCanonical s) :
    StoresCanonical (stepReadtill p limit out t s) := by
  refine .ite (h.congr rfl rfl) ?_
  split
  · exact h
  · rename_i b u hpop
    have hu := h.rbPop hpop
    exact .ite (hu.congr rfl rfl) (.ite (hu.congr rfl rfl) (hu.congr rfl rfl))

theorem stepPqRecv_stores {amount : Nat} {cid : BitVec 4} (h : StoresCanonical s) : StoresCanonical (stepPqRecv p cid amount s) := by
  unfold stepPqRecv
  split
  · exact h.congr rfl rfl
  · rename_i pkt u hget
    obtain ⟨rest, -, rfl⟩ := pqGet_eq_some hget
    exact .ite (h.congr rfl rfl) (h.congr rfl rfl)

theorem cliStep_stores {accept : Bool} (h : StoresCanonical s) : StoresCanonical (cliStep p accept s) := by
  unfold cliStep
  split
  · exact h
  · exact stepGetc_stores h
  · exact h.congr rfl rfl
  · exact stepEmit_stores h
  · exact stepPull_stores h
  · exact stepReadtill_stores h
  · exact stepPqRecv_stores h
  · exact stepPull_stores h

end

/-! ### The dispatcher -/

section
variable {s : State}

theorem invoke_stores (h : StoresCanonical s) (w : Nat) : StoresCanonical (invoke w s) := by
  unfold invoke
  split
  · exact h
  · split
    · exact h.congr rfl rfl
    · exact h.congr rfl rfl

/-- A scan that hits releases the older bytes and invokes the handler (R174). -/
theorem scanHit_stores (h : StoresCanonical s) (w : Nat) (win : List Byte) : StoresCanonical (scanHit w win s) := by
  have hrel := h.release (win.take (win.length - patternLen s w))
  refine invoke_stores ?_ w
  exact hrel.congr rfl rfl

theorem scanMiss_stores (h : StoresCanonical s) (curs : List Nat) (win : List Byte) : StoresCanonical (scanMiss curs win s) := by
  have hrel := h.release (win.take (win.length - maxCur curs))
  exact hrel.congr rfl rfl

theorem dispScan_stores (h : StoresCanonical s) : StoresCanonical (dispScan s) := by
  unfold dispScan
  split
  · exact h
  · rename_i b u hpop
    have hu := h.rbPop hpop
    dsimp only
    split
    · exact scanHit_stores hu _ _
    · exact scanMiss_stores hu _ _

theorem packetReady_stores (h : StoresCanonical s) : StoresCanonical (packetReady s) := by
  have hflag : StoresCanonical (if s.queueFull s.disp.fCid then setFlag .pqStall s else s) := .ite (h.congr rfl rfl) h
  exact hflag.congr rfl rfl

theorem judgeHeader_stores (h : StoresCanonical s) : StoresCanonical (judgeHeader s) := by
  unfold judgeHeader
  split
  · exact .ite (packetReady_stores (h.congr rfl rfl)) (h.congr rfl rfl)
  · exact h.congr rfl rfl

theorem dispHdr_stores (h : StoresCanonical s) : StoresCanonical (dispHdr s) := by
  unfold dispHdr
  split
  · rename_i b u hpop
    have hu := h.rbPop hpop
    exact .ite (judgeHeader_stores (hu.congr rfl rfl)) (hu.congr rfl rfl)
  · exact h.congr rfl rfl

theorem dispPayload_stores (h : StoresCanonical s) : StoresCanonical (dispPayload s) := by
  unfold dispPayload
  split
  · rename_i b u hpop
    have hu := h.rbPop hpop
    exact .ite (packetReady_stores (hu.congr rfl rfl)) (hu.congr rfl rfl)
  · exact h.congr rfl rfl

theorem dispStep_stores (h : StoresCanonical s) : StoresCanonical (dispStep s) := by
  unfold dispStep
  split
  · exact dispScan_stores h
  · exact dispHdr_stores h
  · exact dispPayload_stores h
  · exact h.congr rfl rfl

end

/-! ### The statement -/

/-- Every outcome of a choice keeps the canonical form. -/
theorem Taken.stores {u t : State} {a : Action} (ht : Taken u a t) (h : StoresCanonical u) : StoresCanonical t := by
  cases ht with
  | idle => exact h
  | @issue p i _ cmd payload ready wf next =>
    have hcur : StoresCanonical { u with cur := p } := h.congr rfl rfl
    exact hcur.exec next
  | illegal cmd payload ready => exact h.congr rfl rfl
  | rx bytes => exact h.rxBytes bytes
  | disp enabled => exact dispStep_stores h
  | cli accept enabled => exact cliStep_stores h
  | tick => exact h.congr rfl rfl
  | reset =>
    obtain ⟨hrx, hrsp⟩ := initial_stores_wf u.cfg u.script u.clock
    exact ⟨hrx, hrsp⟩

/-- Settles O53, by the outcomes of the environment's choice. -/
theorem everyStepKeepsStoresCanonical : Obligations.EveryStepKeepsStoresCanonical := by
  intro s t hrx hrsp hstep
  have hs : StoresCanonical s := ⟨hrx, hrsp⟩
  have ht := (step_taken hstep).stores hs.advance
  exact ⟨ht.rx, ht.rsp⟩

end Sys2Proof.Machine
end

section
/-! PROOF. The decoder and the encoder: the fields of a command word, the row it selects, and the two round trips. -/

namespace Sys2Proof.Machine

open Sys2Proof.Laws

/-! ### The fields of a command word -/

/-- A command word is its three fields (R101). -/
theorem mkCommand_fields (w : Word) : mkCommand w.opc w.a w.imm = w := by
  apply BitVec.eq_of_toNat_eq
  have hw := w.isLt
  simp only [mkCommand_toNat, Word.opc, Word.a, Word.imm, BitVec.extractLsb'_toNat, Nat.shiftRight_eq_div_pow]
  omega

theorem opc_toNat (w : Word) : w.opc.toNat = w.toNat / 0x1000000 := by
  have hw := w.isLt
  simp only [Word.opc, BitVec.extractLsb'_toNat, Nat.shiftRight_eq_div_pow]
  omega

theorem a_toNat (w : Word) : w.a.toNat = w.toNat / 0x10000 % 0x100 := by
  simp only [Word.a, BitVec.extractLsb'_toNat, Nat.shiftRight_eq_div_pow]

theorem imm_toNat (w : Word) : w.imm.toNat = w.toNat % 0x10000 := by
  simp only [Word.imm, BitVec.extractLsb'_toNat, Nat.shiftRight_zero]

theorem mkCommand_inj {o o' a a' : BitVec 8} {imm imm' : Half} :
    mkCommand o a imm = mkCommand o' a' imm' ↔ o = o' ∧ a = a' ∧ imm = imm' := by
  constructor
  · intro h
    exact ⟨by simpa using congrArg Word.opc h, by simpa using congrArg Word.a h, by simpa using congrArg Word.imm h⟩
  · rintro ⟨rfl, rfl, rfl⟩
    rfl

theorem mkCommand_and (o o' a a' : BitVec 8) (imm imm' : Half) :
    mkCommand o a imm &&& mkCommand o' a' imm' = mkCommand (o &&& o') (a &&& a') (imm &&& imm') := by
  simp only [mkCommand, ← BitVec.and_append]

/-! ### Reserved bits and the fields beside them -/

/-- A field whose high bits are reserved is zeros and its low bits (R103). -/
theorem zero_append_low {m n : Nat} (x : BitVec (m + n)) (h : x &&& (BitVec.allOnes m ++ 0#n) = 0) :
    0#m ++ x.extractLsb' 0 n = x := by
  ext i hi
  have hbit : (x &&& (BitVec.allOnes m ++ 0#n))[i] = false := by simp [h]
  rw [BitVec.getElem_and, BitVec.getElem_append] at hbit
  rw [BitVec.getElem_append]
  split
  · simp [BitVec.getLsbD_eq_getElem hi]
  · simp_all

/-- The field `a` of an operation on a ring, bits 23:17 zero (R103). -/
theorem toA_selOfA {a : BitVec 8} (h : a &&& 0xFE = 0) : (selOfA a).toA = a := by
  have hall : ∀ x : BitVec 8, x &&& 0xFE = 0 → (selOfA x).toA = x := by decide
  exact hall a h

@[simp] theorem selOfA_toA (sel : RingSel) : selOfA sel.toA = sel := by cases sel <;> decide

theorem cidField_eq {a : BitVec 8} (h : a &&& 0xF0 = 0) : 0#4 ++ a.extractLsb' 0 4 = a :=
  zero_append_low (m := 4) (n := 4) a h

theorem byteField_eq {imm : Half} (h : imm &&& 0xFF00 = 0) : 0#8 ++ imm.extractLsb' 0 8 = imm :=
  zero_append_low (m := 8) (n := 8) imm h

theorem reservedField_eq {n : Nat} {x : BitVec n} (h : x &&& BitVec.allOnes n = 0) : x = 0 := by
  rwa [BitVec.and_allOnes] at h

/-- A field that carries a length (R103). -/
theorem ofNat_length {n : Nat} {x : BitVec n} {l : List Byte} (h : l.length = x.toNat) : BitVec.ofNat n l.length = x := by
  rw [h, BitVec.ofNat_toNat, BitVec.setWidth_eq]

/-! ### The row a word selects -/

theorem Op.mem_all (o : Op) : o ∈ Op.all := by cases o <;> decide

theorem Op.opc_injective {o o' : Op} (h : o.opc = o'.opc) : o = o' := by
  have hall : ∀ x ∈ Op.all, ∀ y ∈ Op.all, x.opc = y.opc → x = y := by decide
  exact hall o (Op.mem_all o) o' (Op.mem_all o') h

/-- A row is selected by its `opc`, the reserved bits zero (R103, R107). -/
theorem selects_iff {o : Op} {w : Word} :
    o.selects w = true ↔ w.opc = o.opc ∧ w.a &&& o.format.reservedA = 0 ∧ w.imm &&& o.format.reservedImm = 0 := by
  simp only [Op.selects, Bool.and_eq_true, beq_iff_eq, and_assoc, eq_comm (a := o.opc)]

/-- A word has at most one row, because the rows differ in `opc`. -/
theorem decodeOp_eq_some {w : Word} {o : Op} : decodeOp w = some o ↔ o.selects w = true := by
  constructor
  · exact List.find?_some
  · intro h
    cases hf : decodeOp w with
    | none => exact absurd h (List.find?_eq_none.1 hf o (Op.mem_all o))
    | some o' => rw [Op.opc_injective ((decodeOp_opc hf).symm.trans (selects_iff.1 h).1)]

/-- The columns of R104 are made of `opc` and the reserved bits of the format. -/
theorem matchMask_eq (o : Op) : Op.matchMask o =
    (mkCommand o.opc 0 0, mkCommand 0xFF o.format.reservedA o.format.reservedImm) := by
  cases o <;> rfl

theorem selects_iff_mask {o : Op} {w : Word} : o.selects w = true ↔ w &&& (Op.matchMask o).2 = (Op.matchMask o).1 := by
  have hopc : w.opc &&& 0xFF = w.opc := BitVec.and_allOnes
  rw [selects_iff, matchMask_eq, ← mkCommand_fields w, mkCommand_and, mkCommand_inj]
  simp only [mkCommand_opc, mkCommand_a, mkCommand_imm, hopc]

theorem decodeOp_eq_none {w : Word} :
    decodeOp w = none ↔ ∀ o : Op, w &&& (Op.matchMask o).2 ≠ (Op.matchMask o).1 := by
  rw [decodeOp, List.find?_eq_none]
  constructor
  · exact fun h o e => h o (Op.mem_all o) (selects_iff_mask.2 e)
  · exact fun h o _ e => h o (selects_iff_mask.1 e)

/-- Settles O3: the reserved bits of a format are the bits of the mask. -/
theorem rowSelectedIffMaskMatches : Obligations.RowSelectedIffMaskMatches := fun _ _ =>
  decodeOp_eq_some.trans selects_iff_mask

/-- Settles O4: each of the five lengths is a field of the word as a number. -/
theorem payloadLengthByOpcode : Obligations.PayloadLengthByOpcode := by
  intro w
  have hopc : ∀ k : BitVec 8, w.opc = k ↔ w.toNat / 0x1000000 = k.toNat := fun k => by
    rw [← opc_toNat, BitVec.toNat_inj]
  simp [payloadLen, hopc, a_toNat, imm_toNat]

/-! ### Reading and writing a request -/

/-- What a request decodes to: the row it selects, assembled from fields and payload (R100 to R107). -/
theorem decode_request_eq_some {w : Word} {payload : List Byte} {i : Instr} :
    decode (.request w payload) = some i ↔
      payload.length = payloadLen w ∧ ∃ o : Op, o.selects w = true ∧ o.assemble w payload = i := by
  simp only [decode, decodeRequest, ← decodeOp_eq_some]
  by_cases hl : payload.length = payloadLen w
  · cases ho : decodeOp w <;> simp [hl, Except.toOption]
  · simp [hl, Except.toOption]

/-- A word of a row, the reserved bits of its fields zero, is read as that row. -/
theorem decode_mkCommand (o : Op) {a : BitVec 8} {imm : Half} {payload : List Byte} {i : Instr}
    (hl : payload.length = payloadLen (mkCommand o.opc a imm)) (ha : a &&& o.format.reservedA = 0)
    (himm : imm &&& o.format.reservedImm = 0) (hi : o.assemble (mkCommand o.opc a imm) payload = i) :
    decode (.request (mkCommand o.opc a imm) payload) = some i :=
  decode_request_eq_some.2 ⟨hl, o, selects_iff.2 (by simp [ha, himm]), hi⟩

/-- The fields the encoder fills leave the reserved bits zero (R103). -/
theorem zero_append_reserved {m n : Nat} (x : BitVec n) : (0#m ++ x) &&& (BitVec.allOnes m ++ 0#n) = 0 := by
  ext i hi
  simp

theorem cidField_reserved (cid : BitVec 4) : (0#4 ++ cid : BitVec 8) &&& 0xF0 = 0 := zero_append_reserved (m := 4) cid

theorem byteField_reserved (b : Byte) : (0#8 ++ b : Half) &&& 0xFF00 = 0 := zero_append_reserved (m := 8) b

theorem toA_reserved (sel : RingSel) : sel.toA &&& 0xFE = 0 := by cases sel <;> decide

theorem extract_zero_append {m n : Nat} (x : BitVec n) : (0#m ++ x).extractLsb' 0 n = x := by
  ext i hi
  simp [BitVec.getLsbD_append, hi]

@[simp] theorem cidField_extract (cid : BitVec 4) : (0#4 ++ cid : BitVec 8).extractLsb' 0 4 = cid := extract_zero_append (m := 4) cid

@[simp] theorem byteField_extract (b : Byte) : (0#8 ++ b : Half).extractLsb' 0 8 = b := extract_zero_append (m := 8) b

/-- Every instruction is read back from its encoding: its row is selected, and each operand stands in a field of its own width. -/
theorem decode_encode {i : Instr} (h : i.wellFormed = true) : decode (encode i) = some i := by
  cases i with
  | rbPush sel b =>
    exact decode_mkCommand .rbPush (PayloadLength.rbPush sel b h) (toA_reserved sel) (byteField_reserved b) (by simp [Op.assemble])
  | rbPop sel => exact decode_mkCommand .rbPop (PayloadLength.rbPop sel h) (toA_reserved sel) rfl (by simp [Op.assemble])
  | rbEmpty sel => exact decode_mkCommand .rbEmpty (PayloadLength.rbEmpty sel h) (toA_reserved sel) rfl (by simp [Op.assemble])
  | rbRewind sel k =>
    exact decode_mkCommand .rbRewind (PayloadLength.rbRewind sel k h) (toA_reserved sel) BitVec.and_zero (by simp [Op.assemble])
  | rbGetc sel => exact decode_mkCommand .rbGetc (PayloadLength.rbGetc sel h) (toA_reserved sel) rfl (by simp [Op.assemble])
  | smLoad pat => exact decode_mkCommand .smLoad (PayloadLength.smLoad pat h) BitVec.and_zero rfl rfl
  | smFeed b => exact decode_mkCommand .smFeed (PayloadLength.smFeed b h) rfl (byteField_reserved b) (by simp [Op.assemble])
  | chSend str => exact decode_mkCommand .chSend (PayloadLength.chSend str h) rfl BitVec.and_zero rfl
  | chRecv token => exact decode_mkCommand .chRecv (PayloadLength.chRecv token h) BitVec.and_zero rfl rfl
  | chReadtill limit delim =>
    exact decode_mkCommand .chReadtill (PayloadLength.chReadtill limit delim h) BitVec.and_zero BitVec.and_zero (by simp [Op.assemble])
  | chSetto ms => exact decode_mkCommand .chSetto (PayloadLength.chSetto ms h) rfl BitVec.and_zero (by simp [Op.assemble])
  | pqRecv cid amount =>
    exact decode_mkCommand .pqRecv (PayloadLength.pqRecv cid amount h) (cidField_reserved cid) BitVec.and_zero (by simp [Op.assemble])
  | bdSend cid data =>
    exact decode_mkCommand .bdSend (PayloadLength.bdSend cid data h) (cidField_reserved cid) BitVec.and_zero (by simp [Op.assemble])
  | pqFlush cid => exact decode_mkCommand .pqFlush (PayloadLength.pqFlush cid h) (cidField_reserved cid) rfl (by simp [Op.assemble])
  | sysRdstat => exact decode_mkCommand .sysRdstat (PayloadLength.sysRdstat h) rfl rfl rfl
  | sysRdevt => exact decode_mkCommand .sysRdevt (PayloadLength.sysRdevt h) rfl rfl rfl
  | wireBulkFrame c d3 d2 d1 d0 payload => exact if_pos ⟨rfl, rfl, of_decide_eq_true h⟩
  | wireDataAccepted => rfl

/-- Settles O1. -/
theorem decodeOfEncodeGivesInstruction : Obligations.DecodeOfEncodeGivesInstruction := fun _ => decode_encode

/-- An operation whose `opc` announces no payload has none (R105). -/
theorem payload_eq_nil {o a : BitVec 8} {imm : Half} {payload : List Byte} (hl : payload.length = payloadLen (mkCommand o a imm))
    (ho : o ∉ [0x10#8, 0x21, 0x22, 0x20, 0x31]) : payload = [] :=
  List.length_eq_zero_iff.1 (hl.trans (payloadLen_zero o a imm ho))

/-- The length field that the encoder writes is the one that was read (R105). -/
theorem lengthField_of_a {o a : BitVec 8} {imm : Half} {payload : List Byte} (hl : payload.length = payloadLen (mkCommand o a imm))
    (ho : o = 0x10 ∨ o = 0x21 ∨ o = 0x22) : BitVec.ofNat 8 payload.length = a :=
  ofNat_length (hl.trans (payloadLen_of_a o a imm ho))

theorem lengthField_of_imm {o a : BitVec 8} {imm : Half} {payload : List Byte} (hl : payload.length = payloadLen (mkCommand o a imm))
    (ho : o = 0x20 ∨ o = 0x31) : BitVec.ofNat 16 payload.length = imm :=
  ofNat_length (hl.trans (payloadLen_of_imm o a imm ho))

/-- What a row assembles is encoded as the word it was read from: the operands are all the bits that are not reserved. -/
theorem encode_assemble (o : Op) {a : BitVec 8} {imm : Half} {payload : List Byte} (ha : a &&& o.format.reservedA = 0)
    (himm : imm &&& o.format.reservedImm = 0) (hl : payload.length = payloadLen (mkCommand o.opc a imm)) :
    encode (o.assemble (mkCommand o.opc a imm) payload) = .request (mkCommand o.opc a imm) payload := by
  cases o with
  | rbPush =>
    rw [payload_eq_nil hl (by decide)]
    simp [Op.assemble, encode, Op.opc, toA_selOfA ha, byteField_eq himm]
  | rbPop =>
    rw [payload_eq_nil hl (by decide)]
    simp [Op.assemble, encode, Op.opc, toA_selOfA ha, reservedField_eq himm]
  | rbEmpty =>
    rw [payload_eq_nil hl (by decide)]
    simp [Op.assemble, encode, Op.opc, toA_selOfA ha, reservedField_eq himm]
  | rbRewind =>
    rw [payload_eq_nil hl (by decide)]
    simp [Op.assemble, encode, Op.opc, toA_selOfA ha]
  | rbGetc =>
    rw [payload_eq_nil hl (by decide)]
    simp [Op.assemble, encode, Op.opc, toA_selOfA ha, reservedField_eq himm]
  | smLoad => simp [Op.assemble, encode, Op.opc, lengthField_of_a hl (by decide), reservedField_eq himm]
  | smFeed =>
    rw [payload_eq_nil hl (by decide)]
    simp [Op.assemble, encode, Op.opc, reservedField_eq ha, byteField_eq himm]
  | chSend => simp [Op.assemble, encode, Op.opc, lengthField_of_imm hl (by decide), reservedField_eq ha]
  | chRecv => simp [Op.assemble, encode, Op.opc, lengthField_of_a hl (by decide), reservedField_eq himm]
  | chReadtill => simp [Op.assemble, encode, Op.opc, lengthField_of_a hl (by decide)]
  | chSetto =>
    rw [payload_eq_nil hl (by decide)]
    simp [Op.assemble, encode, Op.opc, reservedField_eq ha]
  | pqRecv =>
    rw [payload_eq_nil hl (by decide)]
    simp [Op.assemble, encode, Op.opc, cidField_eq ha]
  | bdSend => simp [Op.assemble, encode, Op.opc, lengthField_of_imm hl (by decide), cidField_eq ha]
  | pqFlush =>
    rw [payload_eq_nil hl (by decide)]
    simp [Op.assemble, encode, Op.opc, cidField_eq ha, reservedField_eq himm]
  | sysRdstat =>
    rw [payload_eq_nil hl (by decide)]
    simp [Op.assemble, encode, Op.opc, reservedField_eq ha, reservedField_eq himm]
  | sysRdevt =>
    rw [payload_eq_nil hl (by decide)]
    simp [Op.assemble, encode, Op.opc, reservedField_eq ha, reservedField_eq himm]

/-- A request that decodes is the encoding of what it decodes to. -/
theorem encode_of_decode_request {w : Word} {payload : List Byte} {i : Instr} (h : decode (.request w payload) = some i) :
    encode i = .request w payload := by
  obtain ⟨hl, o, hsel, rfl⟩ := decode_request_eq_some.1 h
  obtain ⟨hopc, ha, himm⟩ := selects_iff.1 hsel
  rw [← mkCommand_fields w, hopc] at hl ⊢
  exact encode_assemble o ha himm hl

/-- A byte string that decodes is the encoding of the wire format it decodes to, its payload as long as its header says (R110, R111). -/
theorem encode_of_decode_wire {bytes : List Byte} {i : Instr} (h : decode (.wire bytes) = some i) :
    encode i = .wire bytes ∧ i.wellFormed = true := by
  simp only [decode, decodeWire] at h
  split at h
  · split at h
    · rename_i hx
      obtain ⟨rfl, rfl⟩ := hx
      cases h
      exact ⟨rfl, rfl⟩
    · cases h
  · split at h
    · rename_i hx
      obtain ⟨rfl, rfl, hlen⟩ := hx
      cases h
      exact ⟨rfl, decide_eq_true hlen⟩
    · cases h
  · cases h

/-- Settles O2, for a request by its row and for bytes on the wire by their marker. -/
theorem encodeOfDecodeGivesWord : Obligations.EncodeOfDecodeGivesWord := by
  intro e i h
  cases e with
  | request w payload => exact ⟨encode_of_decode_request h, decode_request_wellFormed h⟩
  | wire bytes => exact encode_of_decode_wire h

/-- Settles O5, by evaluation of the decoder on each written-out word. -/
theorem writtenWordsDecode : Obligations.WrittenWordsDecode := ⟨rfl, rfl, rfl, rfl, rfl, rfl, rfl, rfl⟩

end Sys2Proof.Machine
end

section
/-! PROOF. The header of a bulk frame in numbers: what `header_ok` accepts, and what `BD.SEND` writes. -/

namespace Sys2Proof.Machine

/-! ### Digits -/

theorem isHex_iff {b : Byte} : isHex b = true ↔
    0x30 ≤ b.toNat ∧ b.toNat ≤ 0x39 ∨ 0x41 ≤ b.toNat ∧ b.toNat ≤ 0x46 ∨ 0x61 ≤ b.toNat ∧ b.toNat ≤ 0x66 := by
  simp [isHex, isDec, or_assoc]

theorem isDec4_iff {d3 d2 d1 d0 : Byte} :
    isDec4 d3 d2 d1 d0 = true ↔ ∀ d ∈ [d3, d2, d1, d0], 0x30 ≤ d.toNat ∧ d.toNat ≤ 0x39 := by
  simp [isDec4, isDec, and_assoc]

/-- The letters start at 10 (R12). -/
theorem hexval_eq {b : Byte} (h : isHex b = true) : hexval b =
    if b.toNat ≤ 0x39 then b.toNat - 0x30 else if b.toNat ≤ 0x46 then b.toNat - 0x37 else b.toNat - 0x57 := by
  have hb := isHex_iff.1 h
  unfold hexval
  split
  · rfl
  · split <;> omega

/-- `header_ok` and what it reads (R217). -/
theorem headerRead_eq (pktMax : Nat) (c d3 d2 d1 d0 : Byte) : headerRead pktMax [c, d3, d2, d1, d0] =
    if isHex c = true ∧ isDec4 d3 d2 d1 d0 = true ∧ undec4 d3 d2 d1 d0 ≤ pktMax then
      some (BitVec.ofNat 4 (hexval c), undec4 d3 d2 d1 d0) else none := by
  simp [headerRead, and_assoc]

/-! ### The digits that are written read back (R12) -/

theorem hexdigit_reads (cid : BitVec 4) : isHex (hexdigit cid.toNat) = true ∧ BitVec.ofNat 4 (hexval (hexdigit cid.toNat)) = cid := by
  have hall : ∀ c : BitVec 4, isHex (hexdigit c.toNat) = true ∧ BitVec.ofNat 4 (hexval (hexdigit c.toNat)) = c := by decide
  exact hall cid

theorem decdigit_toNat {v : Nat} (h : v ≤ 9) : (decdigit v).toNat = 0x30 + v := by
  rw [decdigit, BitVec.toNat_ofNat]
  omega

theorem dec4_reads {n : Nat} (h : n ≤ 9999) :
    isDec4 (decdigit (n / 1000)) (decdigit (n / 100 % 10)) (decdigit (n / 10 % 10)) (decdigit (n % 10)) = true ∧
      undec4 (decdigit (n / 1000)) (decdigit (n / 100 % 10)) (decdigit (n / 10 % 10)) (decdigit (n % 10)) = n := by
  have h3 := decdigit_toNat (v := n / 1000) (by omega)
  have h2 := decdigit_toNat (v := n / 100 % 10) (by omega)
  have h1 := decdigit_toNat (v := n / 10 % 10) (by omega)
  have h0 := decdigit_toNat (v := n % 10) (by omega)
  constructor
  · rw [isDec4_iff]
    simp only [List.forall_mem_cons, h3, h2, h1, h0]
    refine ⟨by omega, by omega, by omega, by omega, by simp⟩
  · simp only [undec4, decval, h3, h2, h1, h0]
    omega

/-- The header that is written passes the validation and gives back the id and the length (R114). -/
theorem headerRead_written {pktMax n : Nat} (cid : BitVec 4) (h : n ≤ min 9999 pktMax) :
    headerRead pktMax ([hexdigit cid.toNat] ++ dec4 n) = some (cid, n) := by
  obtain ⟨hhex, hcid⟩ := hexdigit_reads cid
  obtain ⟨hdec, hlen⟩ := dec4_reads (h.trans (min_le_left _ _))
  have hmax : n ≤ pktMax := h.trans (min_le_right _ _)
  rw [dec4, List.singleton_append, headerRead_eq, hlen, hcid, if_pos ⟨hhex, hdec, hmax⟩]

/-- Settles O6: the model's digits are R12's numbers, and digits that are written are read back. -/
theorem bulkHeaderRoundTrip : Obligations.BulkHeaderRoundTrip := by
  intro pktMax
  refine ⟨?_, fun n cid h => ⟨?_, headerRead_written cid h⟩⟩
  · intro c d3 d2 d1 d0
    dsimp only
    rw [← isHex_iff, ← isDec4_iff, headerRead_eq]
    refine ⟨fun h => ?_, fun h => if_neg h⟩
    rw [← hexval_eq h.1]
    exact if_pos h
  · have hhex : (if cid.toNat ≤ 9 then 0x30 + cid.toNat else 0x61 + cid.toNat - 10) =
        if cid.toNat ≤ 9 then 0x30 + cid.toNat else 0x57 + cid.toNat := by
      split <;> omega
    rw [hexdigit, hhex]
    rfl

end Sys2Proof.Machine
end

section
/-! PROOF. What becomes of a request: it is carried out, answered ILLEGAL or not accepted, and which operands are answered RANGE. -/

namespace Sys2Proof.Machine

/-! ### A chosen request or wire format -/

theorem issueEnabled_iff {p : Nat} {cmd : Word} {payload : List Byte} {s : State} : issueEnabled p cmd payload s = true ↔
    (p < s.ports.length ∧ (s.port p).op = .idle) ∧ payload.length = payloadLen cmd := by
  rw [issueEnabled, Bool.and_eq_true, portReady_iff, decide_eq_true_eq]

/-- A request that can be issued brings in what it decodes to. -/
theorem fetch_issue {p : Nat} {cmd : Word} {payload : List Byte} {s : State} (h : issueEnabled p cmd payload s = true) :
    fetch (.issue p cmd payload) s = decode (.request cmd payload) := if_pos h

/-- A step whose choice stands in the script and brings in an instruction. -/
theorem step_of_script_some {s : State} {a : Action} {rest : List Action} {i : Instr} (hs : s.script = a :: rest)
    (hf : fetch a { s with script := rest } = some i) : step s = exec i (deliver a { s with script := rest }) := by
  rw [← nextAction_of_script s a rest hs, ← advance_of_script s a rest hs] at hf ⊢
  exact step_of_fetch_some hf

/-- A step whose choice stands in the script and brings in none. -/
theorem step_of_script_none {s : State} {a : Action} {rest : List Action} (hs : s.script = a :: rest)
    (hf : fetch a { s with script := rest } = none) : step s = .next (agentStep a { s with script := rest }) := by
  rw [← nextAction_of_script s a rest hs, ← advance_of_script s a rest hs] at hf ⊢
  exact step_of_fetch_none hf

/-- Settles O8: what decodes is fetched. -/
theorem stepRunsTheDecodedInstruction : Obligations.StepRunsTheDecodedInstruction := by
  refine ⟨?_, fun s bytes rest i hs hd => step_of_script_some hs hd⟩
  intro s p cmd payload rest i hs hp hidle hd
  have hen : issueEnabled p cmd payload { s with script := rest } = true :=
    issueEnabled_iff.2 ⟨⟨hp, hidle⟩, (decode_request_eq_some.1 hd).1⟩
  exact step_of_script_some hs ((fetch_issue hen).trans hd)

/-! ### Illegal words and busy ports -/

/-- A word of no row is no instruction, whatever its payload (R107). -/
theorem decode_request_of_no_row {w : Word} {payload : List Byte} (h : ∀ o : Op, w &&& (Op.matchMask o).2 ≠ (Op.matchMask o).1) :
    decode (.request w payload) = none := by
  rw [Option.eq_none_iff_forall_ne_some]
  intro i hi
  obtain ⟨-, o, hsel, -⟩ := decode_request_eq_some.1 hi
  exact h o (selects_iff_mask.1 hsel)

/-- Settles O10: a word of no row is fetched as no instruction, and the issue step answers it. -/
theorem illegalRequestAnswersIllegal : Obligations.IllegalRequestAnswersIllegal := by
  refine ⟨decodeOp_eq_none.1 rfl, ?_⟩
  intro s p cmd payload rest hs hp hidle hl hrow
  have hen : issueEnabled p cmd payload { s with script := rest } = true := issueEnabled_iff.2 ⟨⟨hp, hidle⟩, hl⟩
  rw [step_of_script_none hs ((fetch_issue hen).trans (decode_request_of_no_row hrow)), agentStep, if_pos hen]
  rfl

/-- An operation is carried out as an issue step on the port `cur` (R190). -/
theorem exec_eq_issueOn {i : Instr} {cmd : Word} {payload : List Byte} (h : encode i = .request cmd payload) (s : State) :
    ∃ f, exec i s = issueOn s f := by
  unfold exec
  cases i with
  | wireBulkFrame c d3 d2 d1 d0 payload => cases h
  | wireDataAccepted => cases h
  | _ => exact ⟨_, rfl⟩

/-- There is no issue step on a port that is not ready (R100). -/
theorem issueOn_of_not_ready {s : State} (h : ¬ Ready s) (f : Nat → State) : issueOn s f = .refused .portBusy :=
  if_neg fun hr => h ((portReady_iff _ _).1 hr)

/-- Settles O11: the issue step is not enabled, and `exec` has no other for an operation. -/
theorem busyPortAcceptsNoRequest : Obligations.BusyPortAcceptsNoRequest := by
  constructor
  · intro s p cmd payload rest hs hbusy
    have hen : ¬ issueEnabled p cmd payload { s with script := rest } = true := fun h =>
      hbusy (issueEnabled_iff.1 h).1.2
    rw [step_of_script_none hs (if_neg hen), agentStep, if_neg hen]
  · intro s i cmd payload henc hbusy
    obtain ⟨f, hf⟩ := exec_eq_issueOn henc s
    have hready : ¬ Ready s := fun hr => hbusy.elim (Nat.not_le_of_lt hr.1) (absurd hr.2)
    rw [hf, issueOn_of_not_ready hready]

/-! ### RANGE -/

/-- From `s` to `u` the port `cur` has delivered no response. -/
structure Silent (s u : State) : Prop where
  count : u.ports.length = s.ports.length
  resps : (u.port s.cur).resps = (s.port s.cur).resps

/-- No response that the port `cur` delivered from `s` to `t` has the status RANGE. -/
def NoRangeAnswer (s t : State) : Prop :=
  ∀ r ∈ (t.port s.cur).resps.drop (s.port s.cur).resps.length, r.res.extractLsb' 28 4 ≠ 4

theorem Inner.silent {s u : State} (h : Inner s u) : Silent s u :=
  ⟨by rw [h.ports], by rw [h.port]⟩

/-- A change of the port `cur` that keeps its responses. -/
theorem Silent.modifyPort {s : State} (hr : Ready s) {f : Port → Port} (hf : ∀ o : Port, (f o).resps = o.resps) :
    Silent s (s.modifyPort s.cur f) :=
  ⟨by simp, by rw [modifyPort_port_self _ _ _ hr.1, hf]⟩

theorem Silent.noRange {s u : State} (h : Silent s u) : NoRangeAnswer s u := by
  intro r hmem
  simp [h.resps] at hmem

theorem Silent.setOp {s u : State} (hr : Ready s) (h : Silent s u) {op : PortOp} : NoRangeAnswer s (setOp s.cur op u) := by
  intro r hmem
  rw [setOp_port (h.count ▸ hr.1)] at hmem
  simp [h.resps] at hmem

/-- The status codes are distinct numbers (R102). -/
theorem statusNumber_eq_range {st : StatusCode} : statusNumber st = 4 ↔ st = .range := by cases st <;> decide

/-- A completion with another status. -/
theorem Silent.complete {s u : State} (hr : Ready s) (h : Silent s u) {st : StatusCode} (hst : st ≠ .range) {val : Half}
    {data : List Byte} : NoRangeAnswer s (complete s.cur st val data u) := by
  intro r hmem
  rw [complete_port (h.count ▸ hr.1)] at hmem
  obtain rfl : r = { res := resultWord st val, data := data } := by simpa [h.resps] using hmem
  rw [resultWord_status]
  exact fun e => hst (statusNumber_eq_range.1 e)

/-- An outcome from the state `s` that is an answer RANGE with no other change exactly under the condition `bad` (R108). -/
def RangeExactly (bad : Prop) (s : State) (x : Host.Outcome State Fault Refusal) : Prop :=
  (bad → x = .next { s with ports := delivered s s.cur 0x4000FFFF [] }) ∧ (¬ bad → ∃ t, x = .next t ∧ NoRangeAnswer s t)

/-- An issue step by its effect. -/
theorem issueOn_range {s : State} (hr : Ready s) {f : Nat → State} {bad : Prop} (hbad : bad → f s.cur = completeRange s.cur s)
    (hok : ¬ bad → NoRangeAnswer s (f s.cur)) : RangeExactly bad s (issueOn s f) := by
  rw [issueOn_of_ready hr]
  exact ⟨fun h => by rw [hbad h]; rfl, fun h => ⟨_, rfl, hok h⟩⟩

/-- An issue step that is out of range for no operand. -/
theorem issueOn_noRange {s : State} (hr : Ready s) {f : Nat → State} (hok : NoRangeAnswer s (f s.cur)) :
    RangeExactly False s (issueOn s f) :=
  issueOn_range hr False.elim fun _ => hok

/-- An issue step that takes a pattern, token or delimiter: out of range where that is empty or over-long. -/
theorem issueOn_pattern {s : State} (hr : Ready s) {pat : List Byte} {f : Nat → State} (hok : NoRangeAnswer s (f s.cur)) :
    RangeExactly (pat.length = 0 ∨ s.cfg.pmax < pat.length) s
      (issueOn s fun p => if patternInRange pat s then f p else completeRange p s) := by
  have hrange : patternInRange pat s = true ↔ ¬ (pat.length = 0 ∨ s.cfg.pmax < pat.length) := by
    rw [patternInRange_iff, not_or, List.length_eq_zero_iff, Nat.not_lt]
  refine issueOn_range hr (fun h => if_neg fun hp => hrange.1 hp h) fun h => ?_
  rwa [if_pos (hrange.2 h)]

/-- The arrival of bytes is no answer. -/
theorem rxBytes_noRange (bytes : List Byte) (s : State) : RangeExactly False s (.next (rxBytes bytes s)) :=
  ⟨False.elim, fun _ => ⟨_, rfl, (rxBytes_inner bytes s).silent.noRange⟩⟩

/-- A rewind is out of range beyond the history (R143). -/
theorem rbRewind_eq_none {sel : RingSel} {k : Nat} {s : State} : rbRewind sel k s = none ↔ (s.ring sel).hist < k := by
  by_cases h : k ≤ (s.ring sel).hist <;> simp [rbRewind, Ring.rewind, h, ← Nat.not_le]

/-- Settles O12: six operations have a test for their operand, and no other answers RANGE. -/
theorem outOfRangeRequestAnswersRange : Obligations.OutOfRangeRequestAnswersRange := by
  intro i s hr
  change RangeExactly _ s (exec i s)
  unfold exec
  have hsame : Silent s s := (Inner.refl s).silent
  have hload : ∀ pat, Silent s (loadMatcher s.cur pat s) := fun pat => .modifyPort hr fun _ => rfl
  cases i with
  | rbPush sel b => exact issueOn_noRange hr ((rbPush_inner sel b s).silent.complete hr (by decide))
  | rbPop sel =>
    refine issueOn_noRange hr ?_
    split
    · exact hsame.complete hr (by decide)
    · rename_i b u hpop
      exact (rbPop_inner hpop).silent.complete hr (by decide)
  | rbEmpty sel => exact issueOn_noRange hr (hsame.complete hr (by decide))
  | rbRewind sel k =>
    refine issueOn_range hr (fun h => ?_) fun h => ?_
    · rw [rbRewind_eq_none.2 h]
    · split
      · exact absurd (rbRewind_eq_none.1 ‹_›) h
      · rename_i u hrew
        exact (rbRewind_inner hrew).silent.complete hr (by decide)
  | rbGetc sel => exact issueOn_noRange hr (hsame.setOp hr)
  | smLoad pat => exact issueOn_pattern hr ((hload pat).complete hr (by decide))
  | smFeed b =>
    have hfeed : Silent s (feedMatcher s.cur b s) := .modifyPort hr fun _ => rfl
    refine issueOn_range hr (fun h => if_pos h) fun h => ?_
    rw [if_neg h]
    exact hfeed.complete hr (by decide)
  | chSend str => exact issueOn_noRange hr (hsame.setOp hr)
  | chRecv token => exact issueOn_pattern hr ((hload token).setOp hr)
  | chReadtill limit delim =>
    refine issueOn_pattern hr ?_
    split
    · exact (hload delim).complete hr (by decide)
    · exact (hload delim).setOp hr
  | chSetto ms => exact issueOn_noRange hr ((timeout_inner s ms).silent.complete hr (by decide))
  | pqRecv cid amount => exact issueOn_noRange hr (hsame.setOp hr)
  | bdSend cid data =>
    refine issueOn_range hr (fun h => if_neg (Nat.not_le.2 h)) fun h => ?_
    rw [if_pos (Nat.not_lt.1 h)]
    exact hsame.setOp hr
  | pqFlush cid => exact issueOn_noRange hr ((setQueue_inner s cid []).silent.complete hr (by decide))
  | sysRdstat => exact issueOn_noRange hr (hsame.complete hr (by decide))
  | sysRdevt => exact issueOn_noRange hr ((events_inner s 0).silent.complete hr (by decide))
  | wireBulkFrame c d3 d2 d1 d0 payload => exact rxBytes_noRange _ s
  | wireDataAccepted => exact rxBytes_noRange _ s

end Sys2Proof.Machine
end

section
/-! PROOF. Pushes with room keep every byte, so a wire format that fits arrives whole; and a chain of operations. -/

namespace Sys2Proof.Machine

/-! ### Pushes with room -/

theorem push_count {n : Nat} {r : Ring} {b : Byte} (h : r.count < n) : (Ring.push n r b).count = r.count + 1 :=
  if_neg (Nat.ne_of_lt h)

/-- A push with room appends its byte to the unread ones (R140). -/
theorem push_live {n : Nat} {r : Ring} {b : Byte} (hr : RingInv n r) (h : r.count < n) :
    (Ring.push n r b).live n = r.live n ++ [b] := by
  have htail : (Ring.push n r b).tail = r.tail := if_neg (Nat.ne_of_lt h)
  have hnew : memRead (Ring.push n r b).store ((r.tail + r.count) % n) = b := by
    rw [← hr.head_eq]
    exact memRead_memWrite_self hr.canonical r.head b
  have hold : ∀ j ∈ List.range r.count,
      memRead (Ring.push n r b).store ((r.tail + j) % n) = memRead r.store ((r.tail + j) % n) := by
    intro j hj
    have hj : j < r.count := List.mem_range.1 hj
    refine memRead_memWrite_other _ _ _ _ fun e => ?_
    rw [hr.head_eq] at e
    have hmod : j ≡ r.count [MOD n] := Nat.ModEq.add_left_cancel' r.tail e
    exact Nat.ne_of_lt hj (hmod.eq_of_lt_of_lt (hj.trans h) h)
  simp only [Ring.live, push_count h, htail, List.range_succ, List.map_append, List.map_cons, List.map_nil, hnew]
  rw [List.map_congr_left hold]

/-- A list of pushes with room for all counts every byte. -/
theorem pushes_count {n : Nat} {r : Ring} {bytes : List Byte} (h : r.count + bytes.length ≤ n) :
    (bytes.foldl (Ring.push n) r).count = r.count + bytes.length := by
  induction bytes generalizing r with
  | nil => rfl
  | cons b bytes ih =>
    rw [List.length_cons] at h ⊢
    have hc : (Ring.push n r b).count = r.count + 1 := push_count (by omega)
    rw [List.foldl_cons, ih (by omega)]
    omega

/-- A list of pushes with room for all appends the bytes in order. -/
theorem pushes_live {n : Nat} {r : Ring} {bytes : List Byte} (hr : RingInv n r) (h : r.count + bytes.length ≤ n) :
    (bytes.foldl (Ring.push n) r).live n = r.live n ++ bytes := by
  induction bytes generalizing r with
  | nil => exact (List.append_nil _).symm
  | cons b bytes ih =>
    rw [List.length_cons] at h
    have hroom : r.count < n := by omega
    have hc : (Ring.push n r b).count = r.count + 1 := push_count hroom
    rw [List.foldl_cons, ih (hr.push b) (by omega), push_live hr hroom, List.append_assoc, List.singleton_append]

/-- With room for all no push finds the ring full. -/
theorem pushes_not_full {n k : Nat} {r : Ring} {bytes : List Byte} (h : r.count + bytes.length ≤ n) (hk : k < bytes.length) :
    ((bytes.take k).foldl (Ring.push n) r).count ≠ n := by
  have hlen : (bytes.take k).length = k := List.length_take_of_le hk.le
  rw [pushes_count (by omega), hlen]
  omega

/-! ### A wire format that arrives -/

/-- The two wire formats are carried out as the arrival of their bytes. -/
theorem exec_wire {i : Instr} {bytes : List Byte} (h : encode i = .wire bytes) (s : State) : exec i s = .next (rxBytes bytes s) := by
  cases i with
  | wireBulkFrame c d3 d2 d1 d0 payload =>
    cases h
    rfl
  | wireDataAccepted =>
    cases h
    rfl
  | _ => cases h

/-- Settles O32, from what a list of arriving bytes does. -/
theorem wireFormatsArriveInOrder : Obligations.WireFormatsArriveInOrder := by
  intro s i bytes hi
  have henc : encode i = .wire bytes := by
    rcases hi with ⟨rfl, rfl⟩ | ⟨c, d3, d2, d1, d0, payload, rfl, rfl⟩ <;> rfl
  obtain ⟨st, heq, hst⟩ := rxBytes_eq bytes s
  refine ⟨_, exec_wire henc s, ?_⟩
  rw [heq]
  refine ⟨rfl, rfl, fun ⟨k, hk, hfull⟩ => ?_, fun hroom => ?_, fun hr hroom => ⟨pushes_live hr hroom, ?_⟩⟩
  · rcases hst with ⟨-, hnone⟩ | ⟨hflag, -⟩
    · exact absurd hfull (hnone k hk)
    · exact hflag
  · rcases hst with ⟨hflag, -⟩ | ⟨-, k, hk, hfull⟩
    · exact hflag
    · exact absurd hfull (hroom k hk)
  · rcases hst with ⟨hflag, -⟩ | ⟨-, k, hk, hfull⟩
    · exact hflag
    · exact absurd hfull (pushes_not_full hroom hk)

/-! ### Chains -/

theorem chainOk_iff (ops : List Instr) (rs : List Response) :
    chainOk ops rs = true ↔ ops.length ≤ rs.length ∧ ∀ r ∈ rs.take ops.length, r.isOk = true := by
  induction ops generalizing rs with
  | nil => simp [chainOk]
  | cons i ops ih =>
    cases rs with
    | nil => simp [chainOk]
    | cons r rs =>
      simp only [chainOk, Bool.and_eq_true, ih, List.length_cons, Nat.add_le_add_iff_right, List.take_succ_cons,
        List.forall_mem_cons]
      exact and_left_comm

theorem chainNext_eq_some (ops : List Instr) (rs : List Response) (i : Instr) :
    chainNext ops rs = some i ↔ ops[rs.length]? = some i ∧ ∀ r ∈ rs, r.isOk = true := by
  induction ops generalizing rs with
  | nil => simp [chainNext]
  | cons j ops ih =>
    cases rs with
    | nil => simp [chainNext]
    | cons r rs => cases hok : r.isOk <;> simp [chainNext, ih, hok]

/-- Settles O60: what a chain issues next was preceded by answers that are all OK. -/
theorem chainStopsAtFirstFailure : Obligations.ChainStopsAtFirstFailure := by
  intro ops rs
  refine ⟨chainOk_iff ops rs, fun ⟨r, hmem, hfail⟩ => ?_, chainNext_eq_some ops rs⟩
  rw [Option.eq_none_iff_forall_ne_some]
  intro i hi
  have hok : r.isOk = true := ((chainNext_eq_some ops rs i).1 hi).2 r (List.mem_of_mem_take hmem)
  simp [hok] at hfail

end Sys2Proof.Machine
end

section
/-! PROOF. The printed text of an operation reads back: digits, operands, operand lists, and the line (R120). -/

namespace Sys2Proof.Machine

/-! ### Digits and numbers -/

theorem hexChar_printDigit {v : Nat} (h : v < 16) : hexChar (printDigit v) = some v := by
  have hall : ∀ x < 16, hexChar (printDigit x) = some x := by decide
  exact hall v h

theorem readDigits_printDigit {v : Nat} (h : v < 16) (rest : List Char) (acc : Nat) :
    readDigits hexChar 16 (printDigit v :: rest) acc = readDigits hexChar 16 rest (acc * 16 + v) := by
  simp [readDigits, hexChar_printDigit h]

/-- Where an operand ends (R120): at the end of the text or at a comma. -/
def Ends (rest : List Char) : Prop := rest = [] ∨ ∃ rest', rest = ',' :: rest'

theorem Ends.readDigits {rest : List Char} (h : Ends rest) (acc : Nat) : readDigits hexChar 16 rest acc = (acc, rest) := by
  rcases h with rfl | ⟨rest', rfl⟩ <;> rfl

/-- A number that is printed reads back. -/
theorem readNumber_printNumber {n : Nat} (h : n < 65536) {rest : List Char} (hrest : Ends rest) :
    readNumber (printNumber n ++ rest) = some (n, rest) := by
  have hdigit : ∀ k, k % 16 < 16 := fun k => Nat.mod_lt k (by decide)
  have hsum : (((0 * 16 + n / 4096 % 16) * 16 + n / 256 % 16) * 16 + n / 16 % 16) * 16 + n % 16 = n := by omega
  have hread : readNumber (printNumber n ++ rest) = some (readDigits hexChar 16 (printDigit (n / 4096 % 16) ::
      printDigit (n / 256 % 16) :: printDigit (n / 16 % 16) :: printDigit (n % 16) :: rest) 0) := by
    simp [printNumber, readNumber, readNumberIn, hexChar_printDigit (hdigit _)]
  rw [hread, readDigits_printDigit (hdigit _), readDigits_printDigit (hdigit _), readDigits_printDigit (hdigit _),
    readDigits_printDigit (hdigit _), hrest.readDigits, hsum]

/-! ### Byte lists -/

theorem hexByte_printDigits (b : Byte) : hexByte (printDigit (b.toNat / 16)) (printDigit (b.toNat % 16)) = some b := by
  have hb := b.isLt
  have hsum : 16 * (b.toNat / 16) + b.toNat % 16 = b.toNat := by omega
  simp [hexByte, hexChar_printDigit (show b.toNat / 16 < 16 by omega), hexChar_printDigit (show b.toNat % 16 < 16 by omega), hsum]

/-- An escape is read as its byte. -/
theorem readString_printByte (b : Byte) (rest : List Char) :
    readString (printByte b ++ rest) = consByte b (readString rest) := by
  simp [printByte, readString, hexByte_printDigits]

/-- Escapes in front of the closing quote are read as their bytes. -/
theorem readString_escapes {quote rest : List Char} (h : readString quote = some ([], rest)) (l : List Byte) :
    readString (l.flatMap printByte ++ quote) = some (l, rest) := by
  induction l with
  | nil => exact h
  | cons b l ih => rw [List.flatMap_cons, List.append_assoc, readString_printByte, ih, consByte]

/-! ### Operands -/

/-- The text of an operand in the printer's form. -/
def printArg : Arg → List Char
  | .ring sel => printRing sel
  | .num n => printNumber n
  | .bytes l => printBytes l

/-- The numbers the printer writes in full: those of 16 bits. -/
def ArgFits : Arg → Prop
  | .ring _ => True
  | .num n => n < 65536
  | .bytes _ => True

/-- Every operand begins with a character that is no space. -/
theorem printArg_cons (arg : Arg) : ∃ c text, printArg arg = c :: text ∧ c ≠ ' ' := by
  cases arg with
  | ring sel => cases sel <;> exact ⟨_, _, rfl, by decide⟩
  | num n => exact ⟨_, _, rfl, by decide⟩
  | bytes l => exact ⟨_, _, rfl, by decide⟩

theorem skipSpaces_printArg (arg : Arg) (rest : List Char) : skipSpaces (printArg arg ++ rest) = printArg arg ++ rest := by
  obtain ⟨c, text, htext, hc⟩ := printArg_cons arg
  simp [htext, skipSpaces, hc]

/-- An operand that is printed reads back. -/
theorem readArg_printArg {arg : Arg} (h : ArgFits arg) {rest : List Char} (hrest : Ends rest) :
    readArg (printArg arg ++ rest) = some (arg, rest) := by
  cases arg with
  | ring sel => cases sel <;> rfl
  | num n =>
    have hread : readArg (printArg (.num n) ++ rest) = (readNumber (printNumber n ++ rest)).map fun x => (.num x.1, x.2) := rfl
    rw [hread, readNumber_printNumber h hrest]
    rfl
  | bytes l =>
    change (readString (l.flatMap printByte ++ _ ++ rest)).map _ = _
    rw [List.append_assoc, readString_escapes (rest := rest) rfl]
    rfl

/-- The operands of a line in the printer's form. -/
def printArgs : List Arg → List Char
  | [] => []
  | [arg] => printArg arg
  | arg :: arg' :: args => printArg arg ++ ',' :: ' ' :: printArgs (arg' :: args)

theorem printArgs_cons (arg : Arg) (args : List Arg) : ∃ c text, printArgs (arg :: args) = c :: text ∧ c ≠ ' ' := by
  obtain ⟨c, text, htext, hc⟩ := printArg_cons arg
  cases args with
  | nil => exact ⟨c, text, htext, hc⟩
  | cons arg' args => exact ⟨c, _, by rw [printArgs, htext, List.cons_append], hc⟩

theorem length_le_printArgs (args : List Arg) : args.length ≤ (printArgs args).length := by
  induction args using printArgs.induct with
  | case1 => exact Nat.le_refl _
  | case2 arg =>
    obtain ⟨c, text, htext, -⟩ := printArg_cons arg
    simp [printArgs, htext]
  | case3 arg arg' args ih =>
    rw [printArgs, List.length_append]
    simp only [List.length_cons] at ih ⊢
    omega

theorem readArgs_space (fuel : Nat) (text : List Char) : readArgs fuel (' ' :: text) = readArgs fuel text := by
  cases fuel <;> rfl

/-- The last operand ends the text. -/
theorem readArgs_last {text : List Char} {arg : Arg} (h : readArg (skipSpaces text) = some (arg, [])) (fuel : Nat) :
    readArgs (fuel + 1) text = some [arg] := by
  rw [readArgs, h]
  rfl

/-- Any other operand is followed by a comma. -/
theorem readArgs_comma {text rest : List Char} {arg : Arg} (h : readArg (skipSpaces text) = some (arg, ',' :: rest)) (fuel : Nat) :
    readArgs (fuel + 1) text = (readArgs fuel rest).map fun l => arg :: l := by
  rw [readArgs, h]
  rfl

/-- Operands that are printed read back. -/
theorem readArgs_printArgs {arg : Arg} {args : List Arg} (h : ∀ x ∈ arg :: args, ArgFits x) {fuel : Nat} (hfuel : args.length < fuel) :
    readArgs fuel (printArgs (arg :: args)) = some (arg :: args) := by
  obtain ⟨fuel, rfl⟩ := Nat.exists_eq_succ_of_ne_zero (Nat.ne_zero_of_lt hfuel)
  have harg := h arg List.mem_cons_self
  induction args generalizing arg fuel with
  | nil =>
    have hread := readArg_printArg harg (rest := []) (.inl rfl)
    rw [← skipSpaces_printArg, List.append_nil] at hread
    exact readArgs_last hread fuel
  | cons arg' args ih =>
    have hread := readArg_printArg harg (rest := ',' :: ' ' :: printArgs (arg' :: args)) (.inr ⟨_, rfl⟩)
    rw [← skipSpaces_printArg] at hread
    obtain ⟨fuel, rfl⟩ := Nat.exists_eq_succ_of_ne_zero (Nat.ne_zero_of_lt (Nat.lt_of_succ_lt_succ hfuel))
    have hrest := ih (fun x hx => h x (List.mem_cons_of_mem _ hx)) fuel (Nat.lt_of_succ_lt_succ hfuel)
      (h arg' (List.mem_cons_of_mem _ List.mem_cons_self))
    rw [printArgs, readArgs_comma hread, readArgs_space, hrest]
    rfl

/-! ### Lines -/

/-- The line of an operation in the printer's form. -/
def printLine (o : Op) : List Arg → List Char
  | [] => o.text
  | arg :: args => o.text ++ ' ' :: printArgs (arg :: args)

theorem text_no_space (o : Op) : ∀ c ∈ o.text, c ≠ ' ' := by cases o <;> simp [Op.text]

theorem find_text (o : Op) : Op.all.find? (fun o' => o'.text = o.text) = some o := by cases o <;> rfl

/-- A line is read as its mnemonic's operation with its operands. -/
theorem readOperation_printLine (o : Op) {args : List Arg} (h : ∀ x ∈ args, ArgFits x) :
    readOperation (printLine o args) = o.fromArgs args := by
  have htext : ∀ c ∈ o.text, decide (c ≠ ' ') = true := fun c hc => decide_eq_true (text_no_space o c hc)
  cases args with
  | nil =>
    have htake := List.takeWhile_append_of_pos (l₂ := []) htext
    have hdrop := List.dropWhile_append_of_pos (l₂ := []) htext
    rw [List.append_nil] at htake hdrop
    simp only [printLine, readOperation, htake, hdrop, List.takeWhile_nil, List.append_nil, find_text]
    rfl
  | cons arg args =>
    have htake := List.takeWhile_append_of_pos (l₂ := ' ' :: printArgs (arg :: args)) htext
    have hdrop := List.dropWhile_append_of_pos (l₂ := ' ' :: printArgs (arg :: args)) htext
    have hread := readArgs_printArgs h (length_le_printArgs (arg :: args))
    obtain ⟨c, text, hargs, hc⟩ := printArgs_cons arg args
    rw [hargs] at htake hdrop hread
    rw [List.length_cons] at hread
    have hskip : skipSpaces (' ' :: c :: text) = c :: text := by simp [skipSpaces, hc]
    simp only [printLine, hargs, readOperation, htake, hdrop]
    simp [find_text, hskip, hread]

/-- A line that begins with a mnemonic names no port: the mnemonics with a `p` go on with a letter (R120). -/
theorem readLine_text (o : Op) (rest : List Char) :
    readLine (o.text ++ rest) = (readOperation (o.text ++ rest)).map fun i => (0, i) := by
  cases o <;> rfl

/-- A printed line reads back as its operation on port 0. -/
theorem readLine_printLine (o : Op) {args : List Arg} (h : ∀ x ∈ args, ArgFits x) {i : Instr} (hi : o.fromArgs args = some i) :
    readLine (printLine o args) = some (0, i) := by
  have hline : readLine (printLine o args) = (readOperation (printLine o args)).map fun i => (0, i) := by
    cases args with
    | nil =>
      have hread := readLine_text o []
      rwa [List.append_nil] at hread
    | cons arg args => exact readLine_text o _
  rw [hline, readOperation_printLine o h, hi]
  rfl

/-! ### Operations -/

/-- The mnemonic and the operands of an operation (R104, R120); a wire format has none. -/
def operands : Instr → Option (Op × List Arg)
  | .rbPush sel b => some (.rbPush, [.ring sel, .num b.toNat])
  | .rbPop sel => some (.rbPop, [.ring sel])
  | .rbEmpty sel => some (.rbEmpty, [.ring sel])
  | .rbRewind sel k => some (.rbRewind, [.ring sel, .num k.toNat])
  | .rbGetc sel => some (.rbGetc, [.ring sel])
  | .smLoad pat => some (.smLoad, [.bytes pat])
  | .smFeed b => some (.smFeed, [.num b.toNat])
  | .chSend str => some (.chSend, [.bytes str])
  | .chRecv token => some (.chRecv, [.bytes token])
  | .chReadtill limit delim => some (.chReadtill, [.num limit.toNat, .bytes delim])
  | .chSetto ms => some (.chSetto, [.num ms.toNat])
  | .pqRecv cid amount => some (.pqRecv, [.num cid.toNat, .num amount.toNat])
  | .bdSend cid data => some (.bdSend, [.num cid.toNat, .bytes data])
  | .pqFlush cid => some (.pqFlush, [.num cid.toNat])
  | .sysRdstat => some (.sysRdstat, [])
  | .sysRdevt => some (.sysRdevt, [])
  | .wireBulkFrame _ _ _ _ _ _ => none
  | .wireDataAccepted => none

/-- The printer writes the line of the operation. -/
theorem printOperation_eq (i : Instr) : printOperation i = (operands i).map fun x => printLine x.1 x.2 := by
  cases i <;> simp [printOperation, operands, printLine, printArgs, printArg]

/-- A number of at most 16 bits is printed in full. -/
theorem argFits_toNat {n : Nat} (x : BitVec n) (hn : n ≤ 16) : ArgFits (.num x.toNat) :=
  x.isLt.trans_le (Nat.pow_le_pow_right (by decide) hn)

theorem operands_fit {i : Instr} {o : Op} {args : List Arg} (h : operands i = some (o, args)) : ∀ x ∈ args, ArgFits x := by
  have hring : ∀ sel, ArgFits (.ring sel) := fun _ => trivial
  have hbytes : ∀ l, ArgFits (.bytes l) := fun _ => trivial
  cases i <;> cases h <;> simp [hring, hbytes, argFits_toNat]

/-- The operands of a well-formed operation are in the ranges of their fields, so they give the operation back. -/
theorem fromArgs_operands {i : Instr} (hw : i.wellFormed = true) {o : Op} {args : List Arg} (h : operands i = some (o, args)) :
    o.fromArgs args = some i := by
  cases i with
  | rbPush sel b =>
    cases h
    simp [Op.fromArgs, b.isLt]
  | rbRewind sel k =>
    cases h
    simp [Op.fromArgs, k.isLt]
  | smLoad pat =>
    cases h
    exact if_pos (of_decide_eq_true hw)
  | smFeed b =>
    cases h
    simp [Op.fromArgs, b.isLt]
  | chSend str =>
    cases h
    exact if_pos (of_decide_eq_true hw)
  | chRecv token =>
    cases h
    exact if_pos (of_decide_eq_true hw)
  | chReadtill limit delim =>
    cases h
    have hlen : delim.length ≤ 255 := of_decide_eq_true hw
    simp [Op.fromArgs, limit.isLt, hlen]
  | chSetto ms =>
    cases h
    simp [Op.fromArgs, ms.isLt]
  | pqRecv cid amount =>
    cases h
    simp [Op.fromArgs, cid.isLt, amount.isLt]
  | bdSend cid data =>
    cases h
    have hlen : data.length ≤ 65535 := of_decide_eq_true hw
    simp [Op.fromArgs, cid.isLt, hlen]
  | pqFlush cid =>
    cases h
    simp [Op.fromArgs, cid.isLt]
  | wireBulkFrame c d3 d2 d1 d0 payload => cases h
  | wireDataAccepted => cases h
  | _ =>
    cases h
    rfl

/-- Settles O7: what is printed is a line, and a line reads back. -/
theorem printedOperationReadsBack : Obligations.PrintedOperationReadsBack := by
  intro i text hw htext
  rw [printOperation_eq, Option.map_eq_some_iff] at htext
  obtain ⟨⟨o, args⟩, hargs, rfl⟩ := htext
  exact readLine_printLine o (operands_fit hargs) (fromArgs_operands hw hargs)

end Sys2Proof.Machine
end

section
/-! PROOF. The ring's list form: the unread bytes and the history are runs of slots, and each operation moves the places where
they meet and end (R24, R140 to R145). -/

namespace Sys2Proof.Machine

/-! ### Runs of slots -/

/-- The bytes of `len` consecutive slots from slot `i` on, around the end of a ring of capacity `n`. -/
def slotRun (n : Nat) (m : Memory) (i len : Nat) : List Byte := (List.range len).map fun j => memRead m ((i + j) % n)

theorem live_eq_slotRun (n : Nat) (r : Ring) : r.live n = slotRun n r.store r.tail r.count := rfl

section
variable {n : Nat} {m : Memory}

@[simp] theorem length_slotRun (i len : Nat) : (slotRun n m i len).length = len := by simp [slotRun]

/-- Only the class of the first slot modulo the capacity counts. -/
theorem slotRun_congr {i i' : Nat} (h : i ≡ i' [MOD n]) (len : Nat) : slotRun n m i len = slotRun n m i' len :=
  List.map_congr_left fun j _ => congrArg (memRead m) (h.add_right j)

theorem slotRun_add (i a b : Nat) : slotRun n m i (a + b) = slotRun n m i a ++ slotRun n m (i + a) b := by
  simp [slotRun, List.range_add, Nat.add_assoc]

theorem slotRun_one (i : Nat) : slotRun n m i 1 = [memRead m (i % n)] := by simp [slotRun]

theorem drop_slotRun {k len : Nat} (i : Nat) (h : k ≤ len) : (slotRun n m i len).drop k = slotRun n m (i + k) (len - k) := by
  obtain ⟨d, rfl⟩ := Nat.exists_eq_add_of_le h
  rw [slotRun_add, List.drop_left' (length_slotRun i k), Nat.add_sub_cancel_left]

theorem take_slotRun {k len : Nat} (i : Nat) (h : k ≤ len) : (slotRun n m i len).take k = slotRun n m i k := by
  obtain ⟨d, rfl⟩ := Nat.exists_eq_add_of_le h
  rw [slotRun_add, List.take_left' (length_slotRun i k)]

/-- A write past the end of a run, but not all the way around, leaves the run alone. -/
theorem slotRun_memWrite {i d len : Nat} (hlen : len ≤ d) (hd : d < n) (b : Byte) :
    slotRun n (memWrite m ((i + d) % n) b) i len = slotRun n m i len := by
  refine List.map_congr_left fun j hj => memRead_memWrite_other _ _ _ _ fun e => ?_
  have hj : j < d := (List.mem_range.1 hj).trans_le hlen
  have hmod : j ≡ d [MOD n] := Nat.ModEq.add_left_cancel' i e
  exact Nat.ne_of_lt hj (hmod.eq_of_lt_of_lt (hj.trans hd) hd)

end

/-- An index moved back and then on again, around the ring. -/
theorem sub_add_modEq {n k i : Nat} (hk : k ≤ n) : i + n - k + k ≡ i [MOD n] := by
  rw [Nat.sub_add_cancel (by omega)]
  exact Nat.add_mod_right i n

/-- The history is the run of slots that ends where the unread bytes begin (R24). -/
theorem past_eq_slotRun {n i : Nat} {r : Ring} (hn : r.hist ≤ n) (hi : i + r.hist ≡ r.tail [MOD n]) :
    r.past n = slotRun n r.store i r.hist :=
  slotRun_congr (Nat.ModEq.add_right_cancel' r.hist ((sub_add_modEq hn).trans hi.symm)) _

theorem RingInv.exists_past_eq {n : Nat} {r : Ring} (hr : RingInv n r) :
    ∃ i, i + r.hist ≡ r.tail [MOD n] ∧ r.past n = slotRun n r.store i r.hist := by
  have hn : r.hist ≤ n := (Nat.le_add_left _ _).trans hr.room
  exact ⟨r.tail + n - r.hist, sub_add_modEq hn, rfl⟩

/-! ### Pop -/

/-- A pop takes the first unread byte (R141). -/
theorem pop_live {n : Nat} {r r' : Ring} {b : Byte} (hr : RingInv n r) (hp : Ring.pop n r = some (b, r')) :
    r.live n = b :: r'.live n := by
  obtain ⟨hc, rfl, rfl⟩ := ringPop_eq_some.1 hp
  obtain ⟨c, hc⟩ := Nat.exists_eq_add_one_of_ne_zero hc
  simp only [live_eq_slotRun, hc, Nat.add_sub_cancel]
  rw [Nat.add_comm c 1, slotRun_add, slotRun_one, Nat.mod_eq_of_lt hr.tail_lt, slotRun_congr (Nat.mod_modEq _ n)]
  rfl

/-- A pop appends its byte to the history (R141). -/
theorem pop_past {n : Nat} {r r' : Ring} {b : Byte} (hr : RingInv n r) (hp : Ring.pop n r = some (b, r')) :
    r'.past n = r.past n ++ [b] := by
  obtain ⟨hc, rfl, rfl⟩ := ringPop_eq_some.1 hp
  have hroom := hr.room
  obtain ⟨i, hi, hpast⟩ := hr.exists_past_eq
  have hnext : i + (r.hist + 1) ≡ (r.tail + 1) % n [MOD n] := (hi.add_right 1).trans (Nat.mod_modEq _ n).symm
  have hbyte : (i + r.hist) % n = r.tail := Nat.mod_eq_of_modEq hi hr.tail_lt
  rw [hpast, past_eq_slotRun (by dsimp only; omega) hnext, slotRun_add, slotRun_one, hbyte]

/-- Settles O14: a pop moves the end of the history one slot on. -/
theorem ringPopTakesOldestByte : Obligations.RingPopTakesOldestByte := by
  refine fun n r hr => ⟨ringPop_eq_none.symm, fun b r' hp => ⟨pop_live hr hp, pop_past hr hp, ?_⟩⟩
  obtain ⟨hc, rfl, rfl⟩ := ringPop_eq_some.1 hp
  refine ⟨rfl, rfl, ?_, rfl, rfl, ?_, rfl⟩ <;> dsimp only <;> omega

/-! ### Rewind -/

/-- A rewind is refused beyond the history (R143). -/
theorem ringRewind_eq_none {n k : Nat} {r : Ring} : Ring.rewind n r k = none ↔ r.hist < k := by
  simp [Ring.rewind]

/-- A rewind puts the last bytes of the history back before the unread ones (R143). -/
theorem rewind_live {n k : Nat} {r r' : Ring} (hr : RingInv n r) (h : Ring.rewind n r k = some r') :
    r'.live n = (r.past n).drop (r.hist - k) ++ r.live n := by
  obtain ⟨hk, rfl⟩ := ringRewind_eq_some.1 h
  have hroom := hr.room
  have hback : r.tail + n - k + k ≡ r.tail [MOD n] := sub_add_modEq (by omega)
  obtain ⟨i, hi, hpast⟩ := hr.exists_past_eq
  have hstart : r.tail + n - k ≡ i + (r.hist - k) [MOD n] := by
    refine Nat.ModEq.add_right_cancel' k (hback.trans ?_)
    rw [Nat.add_assoc, Nat.sub_add_cancel hk]
    exact hi.symm
  rw [hpast, drop_slotRun _ (Nat.sub_le _ _), Nat.sub_sub_self hk]
  simp only [live_eq_slotRun]
  rw [slotRun_congr (Nat.mod_modEq _ n), Nat.add_comm r.count k, slotRun_add, slotRun_congr hback, slotRun_congr hstart]

/-- A rewind leaves the rest of the history (R143). -/
theorem rewind_past {n k : Nat} {r r' : Ring} (hr : RingInv n r) (h : Ring.rewind n r k = some r') :
    r'.past n = (r.past n).take (r.hist - k) := by
  obtain ⟨hk, rfl⟩ := ringRewind_eq_some.1 h
  have hroom := hr.room
  obtain ⟨i, hi, hpast⟩ := hr.exists_past_eq
  rw [hpast, take_slotRun _ (Nat.sub_le _ _)]
  refine past_eq_slotRun (by dsimp only; omega) (Nat.ModEq.add_right_cancel' k ?_)
  have hback : (r.tail + n - k) % n + k ≡ r.tail [MOD n] :=
    ((Nat.mod_modEq _ n).add_right k).trans (sub_add_modEq (by omega))
  refine Nat.ModEq.trans ?_ hback.symm
  rwa [Nat.add_assoc, Nat.sub_add_cancel hk]

/-- Settles O15: a rewind moves the end of the history back. -/
theorem ringRewindRestoresBytes : Obligations.RingRewindRestoresBytes := by
  refine fun n k r hr => ⟨ringRewind_eq_none.symm, fun r' h => ⟨rewind_live hr h, rewind_past hr h, ?_⟩⟩
  have htail : r'.tail < n := (hr.rewind h).tail_lt
  obtain ⟨hk, rfl⟩ := ringRewind_eq_some.1 h
  have hroom := hr.room
  refine ⟨rfl, rfl, ?_, htail, rfl, Nat.sub_add_cancel hk, ?_⟩
  · rw [Nat.mod_add_mod]
    exact Nat.mod_eq_of_modEq (sub_add_modEq (by omega)) hr.tail_lt
  · rintro rfl
    simp [Nat.mod_eq_of_lt hr.tail_lt]

/-! ### Push -/

/-- A push onto a full ring does what a pop and then a push do (R140): the oldest byte is lost. -/
theorem push_of_full {n : Nat} {r : Ring} (hr : RingInv n r) (hfull : r.count = n) :
    ∃ c r₁, Ring.pop n r = some (c, r₁) ∧ r₁.count < n ∧ ∀ b, Ring.push n r b = Ring.push n r₁ b := by
  have hn : 0 < n := Nat.zero_lt_of_lt hr.head_lt
  refine ⟨_, _, ringPop_eq_some.2 ⟨by omega, rfl, rfl⟩, by dsimp only; omega, fun b => ?_⟩
  have hless : r.count - 1 ≠ n := by omega
  have hcount : r.count - 1 + 1 = r.count := by omega
  simp only [Ring.push, if_pos hfull, if_neg hless, hcount]
  simp [hfull]

/-- A push onto a full ring drops the oldest unread byte and appends its own (R140). -/
theorem push_live_full {n : Nat} {r : Ring} (hr : RingInv n r) (hfull : r.count = n) (b : Byte) :
    (Ring.push n r b).live n = (r.live n).tail ++ [b] := by
  obtain ⟨c, r₁, hpop, hroom, hpush⟩ := push_of_full hr hfull
  rw [hpush, push_live (hr.pop hpop) hroom, pop_live hr hpop, List.tail_cons]

/-- A push with room takes its slot from the oldest of the history where the store is all in use (R140). -/
theorem push_past {n : Nat} {r : Ring} (hr : RingInv n r) (h : r.count < n) (b : Byte) :
    (Ring.push n r b).past n = (r.past n).drop (r.hist - (n - (r.count + 1))) := by
  have hroom := hr.room
  obtain ⟨i, hi, hpast⟩ := hr.exists_past_eq
  obtain ⟨k, hk⟩ : ∃ k, k = r.hist - (n - (r.count + 1)) := ⟨_, rfl⟩
  have htail : (Ring.push n r b).tail = r.tail := if_neg (Nat.ne_of_lt h)
  have hhist : (Ring.push n r b).hist = r.hist - k := by
    change min r.hist (n - (Ring.push n r b).count) = _
    rw [push_count h]
    omega
  have hstart : i + k + (r.hist - k) ≡ r.tail [MOD n] := by
    rwa [Nat.add_assoc, Nat.add_sub_cancel' (by omega)]
  have hhead : r.head = (i + k + (r.hist - k + r.count)) % n := by
    rw [hr.head_eq, ← Nat.add_assoc]
    exact (hstart.add_right r.count).symm
  rw [← hk, hpast, drop_slotRun _ (by omega), past_eq_slotRun (i := i + k) (by omega) (by rwa [hhist, htail]), hhist]
  change slotRun n (memWrite r.store r.head b) _ _ = _
  rw [hhead, slotRun_memWrite (by omega) (by omega)]

/-! ### Overrun -/

/-- The unread bytes after a push, by one formula: the last `n` of those before it and the new one (R140, R145). -/
theorem push_live_drop {n : Nat} {r : Ring} (hr : RingInv n r) (b : Byte) :
    (Ring.push n r b).live n = (r.live n ++ [b]).drop (r.count + 1 - n) := by
  have hroom := hr.room
  by_cases hfull : r.count = n
  · obtain ⟨c, r₁, hpop, -, -⟩ := push_of_full hr hfull
    rw [push_live_full hr hfull, hfull, Nat.add_sub_cancel_left, pop_live hr hpop]
    rfl
  · rw [push_live hr (by omega), Nat.sub_eq_zero_of_le (by omega), List.drop_zero]

theorem length_live (n : Nat) (r : Ring) : (r.live n).length = r.count := length_slotRun _ _

/-- Pushes keep the ring invariant. -/
theorem RingInv.pushes {n : Nat} {r : Ring} (hr : RingInv n r) (bytes : List Byte) : RingInv n (bytes.foldl (Ring.push n) r) := by
  induction bytes generalizing r with
  | nil => exact hr
  | cons b bytes ih => exact ih (hr.push b)

/-- After a list of pushes the last `n` bytes of all are unread, in order (R145). -/
theorem pushes_live_drop {n : Nat} {r : Ring} (hr : RingInv n r) (bytes : List Byte) :
    (bytes.foldl (Ring.push n) r).live n = (r.live n ++ bytes).drop (r.count + bytes.length - n) := by
  have hroom := hr.room
  induction bytes generalizing r with
  | nil =>
    rw [List.length_nil, Nat.sub_eq_zero_of_le (by omega), List.append_nil]
    rfl
  | cons b bytes ih =>
    have hcount : (Ring.push n r b).count = r.count + 1 - (r.count + 1 - n) := by
      rw [← length_live n, push_live_drop hr, List.length_drop, List.length_append, length_live, List.length_singleton]
    have hle : r.count + 1 - n ≤ (r.live n ++ [b]).length := by
      rw [List.length_append, length_live, List.length_singleton]
      omega
    rw [List.foldl_cons, ih (hr.push b) (hr.push b).room, push_live_drop hr, ← List.drop_append_of_le_length hle,
      List.drop_drop, hcount, List.length_cons, List.append_assoc, List.singleton_append]
    congr 1
    omega

/-- Popping until the ring is empty gives the unread bytes (R145). -/
theorem popAll_eq_live {n : Nat} {r : Ring} (hr : RingInv n r) : popAll n r.count r = r.live n := by
  generalize hc : r.count = c
  induction c generalizing r with
  | zero =>
    rw [live_eq_slotRun, hc]
    rfl
  | succ c ih =>
    obtain ⟨x, hx⟩ := Option.ne_none_iff_exists'.1 (mt ringPop_eq_none.1 (by omega : r.count ≠ 0))
    obtain ⟨b, r'⟩ := x
    have hc' : r'.count = c := by
      obtain ⟨-, -, rfl⟩ := ringPop_eq_some.1 hx
      exact Nat.sub_eq_of_eq_add hc
    rw [pop_live hr hx, ← ih (hr.pop hx) hc', popAll, hx]

/-- Settles O17: each push onto the full ring drops the first unread byte, so the last ones remain. -/
theorem overrunKeepsLastBytes : Obligations.OverrunKeepsLastBytes := by
  refine ⟨fun n r b hr hfull => ?_, fun n r bytes hr hempty => ?_⟩
  · rw [push_live_full hr hfull, List.drop_one]
  · have hlive : (bytes.foldl (Ring.push n) r).live n = bytes.drop (bytes.length - n) := by
      rw [pushes_live_drop hr, live_eq_slotRun, hempty, Nat.zero_add]
      rfl
    exact ⟨hlive, (popAll_eq_live (hr.pushes bytes)).trans hlive⟩

/-! ### The shared push -/

/-- The shared push, on either ring: the ring is pushed, and its flag is set exactly when it was full (R140). -/
theorem rbPush_eq (sel : RingSel) (b : Byte) (s : State) :
    rbPush sel b s = { s.setRing sel (Ring.push (Config.ringN s.cfg sel) (s.ring sel) b) with
      status := if (s.ring sel).count = Config.ringN s.cfg sel then s.status ||| (match sel with | .rx => 1 | .rsp => 2)
        else s.status } := by
  cases sel
  · exact rbPush_rx b s
  · exact rbPush_rsp b s

theorem rbPush_ring (sel : RingSel) (b : Byte) (s : State) :
    (rbPush sel b s).ring sel = Ring.push (Config.ringN s.cfg sel) (s.ring sel) b := by
  rw [rbPush_eq]
  cases sel <;> rfl

/-- Settles O13: the ring is the pushed one, and the list form follows from what a push does to runs of slots. -/
theorem ringPushKeepsNewestBytes : Obligations.RingPushKeepsNewestBytes := by
  intro sel b s hr
  dsimp only
  rw [rbPush_ring]
  have hroom := hr.room
  refine ⟨fun h => ⟨push_live hr h, ?_⟩, fun h => ⟨push_live_full hr h b, ?_⟩, memRead_memWrite_self hr.canonical _ b,
    fun a ha => memRead_memWrite_other _ _ _ _ ha, rfl, rfl, rfl, rfl,
    congrArg State.status (rbPush_eq sel b s), ?_⟩
  · rw [push_past hr h]
    split
    · rw [← List.drop_one]
      congr 1
      omega
    · rw [Nat.sub_eq_zero_of_le (by omega), List.drop_zero]
  · simp [Ring.past, Ring.push, h]
  · rw [rbPush_eq]
    cases sel <;> rfl

end Sys2Proof.Machine
end

section
/-! PROOF. The ring operations of a client: issue and completion (R147 to R151), and the progress step of RB.GETC. -/

namespace Sys2Proof.Machine

/-! ### Result words -/

/-- The result word of a success is its value (R102). -/
theorem resultWord_ok (val : Half) : resultWord .ok val = val.setWidth 32 := by
  apply BitVec.eq_of_toNat_eq
  have hval := val.isLt
  rw [resultWord_toNat, BitVec.toNat_setWidth, Nat.mod_eq_of_lt (by omega)]
  simp [statusNumber]

/-- A completion with OK changes the ports only (R11). -/
theorem complete_ok {u s : State} (hp : u.ports = s.ports) (p : Nat) (val : Half) :
    complete p .ok val [] u = { u with ports := delivered s p (val.setWidth 32) [] } := by
  rw [← resultWord_ok, delivered, ← hp]
  rfl

/-- A completion with OK and one byte as the value. -/
theorem complete_ok_byte {u s : State} (hp : u.ports = s.ports) (p : Nat) (b : Byte) :
    complete p .ok (b.setWidth 16) [] u = { u with ports := delivered s p (b.setWidth 32) [] } := by
  have hword : (b.setWidth 16).setWidth 32 = b.setWidth 32 := BitVec.eq_of_toNat_eq (by simp)
  rw [complete_ok hp, hword]

/-! ### The instructions -/

theorem exec_rbPush (sel : RingSel) (b : Byte) (s : State) : exec (.rbPush sel b) s = execRbPush sel b s := rfl
theorem exec_rbPop (sel : RingSel) (s : State) : exec (.rbPop sel) s = execRbPop sel s := rfl
theorem exec_rbEmpty (sel : RingSel) (s : State) : exec (.rbEmpty sel) s = execRbEmpty sel s := rfl
theorem exec_rbRewind (sel : RingSel) (k : Half) (s : State) : exec (.rbRewind sel k) s = execRbRewind sel k s := rfl
theorem exec_rbGetc (sel : RingSel) (s : State) : exec (.rbGetc sel) s = execRbGetc sel s := rfl
theorem exec_pqRecv (cid : BitVec 4) (amount : Half) (s : State) : exec (.pqRecv cid amount) s = execPqRecv cid amount s := rfl

/-! ### Push, empty, and the operations that wait -/

/-- Settles O20, from what the shared push is. -/
theorem rbPushStoresByteAndAnswersOk : Obligations.RbPushStoresByteAndAnswersOk := by
  refine ⟨rfl, fun sel b s hr hwf => ?_⟩
  have hring : (complete s.cur .ok 0 [] (rbPush sel b s)).ring sel = Ring.push (Config.ringN s.cfg sel) (s.ring sel) b := by
    rw [← rbPush_ring]
    cases sel <;> rfl
  have hports : (complete s.cur .ok 0 [] (rbPush sel b s)).ports = delivered s s.cur 0 [] := by
    rw [complete_ok (rbPush_inner sel b s).ports]
    rfl
  rw [exec_rbPush, execRbPush, issueOn_of_ready hr]
  refine ⟨_, rfl, hports, ?_⟩
  rw [hring]
  refine ⟨memRead_memWrite_self hwf _ b, fun a ha => memRead_memWrite_other _ _ _ _ ha, rfl, rfl, rfl, rfl, ?_⟩
  rw [rbPush_eq]
  cases sel <;> rfl

/-- Settles O22: the shared test for emptiness becomes the value. -/
theorem rbEmptyAnswersCountIsZero : Obligations.RbEmptyAnswersCountIsZero := by
  refine ⟨rfl, fun sel s hr => ?_⟩
  rw [exec_rbEmpty, execRbEmpty, issueOn_of_ready hr, complete_ok rfl, rbEmpty]
  by_cases hc : (s.ring sel).count = 0 <;> simp [hc]

/-- Settles O24: an issue step that only stores a record. -/
theorem rbGetcAndPqRecvRecordTheirWait : Obligations.RbGetcAndPqRecvRecordTheirWait := by
  refine fun s hr => ⟨fun sel => ?_, fun cid amount => ?_⟩
  · rw [exec_rbGetc, execRbGetc, issueOn_of_ready hr]
    rfl
  · rw [exec_pqRecv, execPqRecv, issueOn_of_ready hr]
    rfl

/-! ### Pop -/

/-- Settles O21, by whether the shared pop has a byte. -/
theorem rbPopAnswersByteOrEmpty : Obligations.RbPopAnswersByteOrEmpty := by
  refine ⟨rfl, fun sel s hr => ?_⟩
  rw [exec_rbPop, execRbPop, issueOn_of_ready hr]
  refine ⟨fun hc => ?_, fun hc => ?_⟩
  · rw [rbPop_of_empty hc]
    rfl
  · rw [rbPop_of_count hc]
    exact congrArg _ (complete_ok_byte (setRing_ports _ _ _) _ _)

/-! ### Rewind -/

/-- The index moved back modulo the capacity, without the division (R74). -/
theorem sub_mod_eq_ite {n i k : Nat} (hi : i < n) (hk : k ≤ n) : (i + n - k) % n = if k ≤ i then i - k else i + n - k := by
  split
  · rw [Nat.sub_add_comm (by omega), Nat.add_mod_right, Nat.mod_eq_of_lt (by omega)]
  · exact Nat.mod_eq_of_lt (by omega)

/-- Settles O23, by whether the shared rewind is refused. -/
theorem rbRewindMovesTailBack : Obligations.RbRewindMovesTailBack := by
  refine ⟨rfl, fun sel k s hr hring => ?_⟩
  rw [exec_rbRewind, execRbRewind, issueOn_of_ready hr]
  refine ⟨fun hk => ?_, fun hk => ?_⟩
  · rw [rbRewind_eq_none.2 hk]
    rfl
  · have hroom := hring.room
    rw [rbRewind, ringRewind_eq_some.2 ⟨hk, rfl⟩, ← sub_mod_eq_ite hring.tail_lt (by omega)]
    exact congrArg _ (complete_ok (setRing_ports _ _ _) _ _)

/-! ### The progress step of RB.GETC -/

/-- A choice of a client's progress step is that step where its guard holds, and nothing otherwise. -/
theorem step_cli {s : State} {p : Nat} {accept : Bool} {rest : List Action} (hs : s.script = .cli p accept :: rest) :
    step s = .next (if cliEnabled p { s with script := rest } then cliStep p accept { s with script := rest }
      else { s with script := rest }) :=
  step_of_script_none hs rfl

/-- A port with a record is one of the list. -/
theorem lt_of_op_ne_idle {s : State} {p : Nat} (h : (s.port p).op ≠ .idle) : p < s.ports.length := by
  by_contra hp
  exact h (by rw [port_of_length_le p s (Nat.not_lt.1 hp)]; rfl)

/-- With the record of RB.GETC the guard is that of RB.GETC (R144). -/
theorem cliEnabled_getc {s : State} {p t : Nat} {sel : RingSel} (h : (s.port p).op = .getc sel t) :
    cliEnabled p s = true ↔ (s.ring sel).count ≠ 0 ∨ t = 0 := by
  have hp : p < s.ports.length := lt_of_op_ne_idle (by simp [h])
  simp [cliEnabled, h, hp, getcReady, rbEmpty]

theorem cliStep_getc {s : State} {p t : Nat} {sel : RingSel} (h : (s.port p).op = .getc sel t) (accept : Bool) :
    cliStep p accept s = stepGetc p sel s := by
  rw [cliStep, h]

/-- Settles O33: the guard opens for a byte or for the timer, and the step looks for the byte first. -/
theorem getcPrefersDataToTimeout : Obligations.GetcPrefersDataToTimeout := by
  intro s p accept rest sel t hs hop
  obtain ⟨u, hu⟩ : ∃ u : State, u = { s with script := rest } := ⟨_, rfl⟩
  have hopu : (u.port p).op = .getc sel t := hu ▸ hop
  have hring : u.ring sel = s.ring sel := by rw [hu]; cases sel <;> rfl
  rw [step_cli hs, ← hu, cliStep_getc hopu, stepGetc]
  refine ⟨fun hc => ?_, fun hc ht => ?_, fun hc ht => ?_⟩
  · rw [if_pos ((cliEnabled_getc hopu).2 (.inl (hring ▸ hc))), rbPop_of_count (hring ▸ hc), hring]
    dsimp only
    rw [complete_ok_byte (setRing_ports _ _ _), hu]
    cases sel <;> rfl
  · rw [if_pos ((cliEnabled_getc hopu).2 (.inr ht)), rbPop_of_empty (hring ▸ hc), hu]
    rfl
  · rw [if_neg fun h => ((cliEnabled_getc hopu).1 h).elim (absurd (hring ▸ hc)) ht]

end Sys2Proof.Machine
end

section
/-! PROOF. The matcher (R160 to R162), and the client operations on a port's ephemeral matcher (R163, R164). -/

namespace Sys2Proof.Machine

/-! ### One feed -/

section
variable {pat : List Byte} {cur : Nat} {b : Byte}

/-- The last byte of the pattern completes it. -/
theorem smFeed_last (h : pat[cur]? = some b) (hl : cur + 1 = pat.length) : smFeed pat cur b = (0, true) := by
  simp [smFeed, h, hl]

/-- Any earlier byte of the pattern moves the cursor on. -/
theorem smFeed_next (h : pat[cur]? = some b) (hl : cur + 1 ≠ pat.length) : smFeed pat cur b = (cur + 1, false) := by
  simp [smFeed, h, hl]

/-- A byte that ends a partial match and is the first of the pattern begins a new one. -/
theorem smFeed_restart (hlt : cur < pat.length) (h : pat[cur]? ≠ some b) (hpos : 0 < cur) (h0 : pat[0]? = some b) :
    smFeed pat cur b = (1, false) := by
  have hlen : 1 ≠ pat.length := by omega
  simp [smFeed, h, hpos, h0, hlen]

/-- Any other byte leaves no partial match. -/
theorem smFeed_zero (hlt : cur < pat.length) (h : pat[cur]? ≠ some b) (h0 : cur = 0 ∨ pat[0]? ≠ some b) :
    smFeed pat cur b = (0, false) := by
  have hlen : 0 ≠ pat.length := by omega
  have hno : ¬ (0 < cur ∧ pat[0]? = some b) := fun hr => h0.elim hr.1.ne' (absurd hr.2)
  simp [smFeed, h, hno, hlen]

/-- A match is the last byte of the pattern, fed with all the others matched. -/
theorem smFeed_hit_iff (hlt : cur < pat.length) :
    (smFeed pat cur b).2 = true ↔ pat[cur]? = some b ∧ cur + 1 = pat.length := by
  refine ⟨fun hhit => ?_, fun ⟨hb, hl⟩ => by rw [smFeed_last hb hl]⟩
  rcases smFeed_cases pat cur b hlt with ⟨hb, hl, -⟩ | ⟨-, -, h⟩ | ⟨-, -, -, h⟩ | ⟨-, -, h⟩
  · exact ⟨hb, hl⟩
  all_goals rw [h] at hhit; cases hhit

/-! ### A run of feeds -/

theorem feedFrom_cons (bytes : List Byte) : feedFrom pat cur (b :: bytes) = feedFrom pat (smFeed pat cur b).1 bytes := rfl

theorem feedFrom_append (l bytes : List Byte) : feedFrom pat cur (l ++ bytes) = feedFrom pat (feedFrom pat cur l) bytes :=
  List.foldl_append

theorem feedFrom_concat (bytes : List Byte) (b : Byte) :
    feedFrom pat cur (bytes ++ [b]) = (smFeed pat (feedFrom pat cur bytes) b).1 := feedFrom_append bytes [b]

/-- What a cursor means for the bytes fed so far (R161 (a), (b)). -/
structure Claims (pat bytes : List Byte) (c : Nat) : Prop where
  lt : c < pat.length
  le : c ≤ bytes.length
  last : bytes.drop (bytes.length - c) = pat.take c

theorem Claims.feed {bytes : List Byte} {c : Nat} (h : Claims pat bytes c) (b : Byte) :
    Claims pat (bytes ++ [b]) (smFeed pat c b).1 where
  lt := smFeed_cursor_lt pat c b h.lt
  le := by simpa using (smFeed_cursor_le pat c b).trans (Nat.succ_le_succ h.le)
  last := claim_fed h.lt h.le h.last b

/-- Every cursor a run reaches from 0 claims what it stands for. -/
theorem claims_feedFrom (hpat : pat ≠ []) (bytes : List Byte) : Claims pat bytes (feedFrom pat 0 bytes) := by
  induction bytes using List.reverseRecOn with
  | nil => exact ⟨List.length_pos_iff.2 hpat, le_rfl, rfl⟩
  | append_singleton bytes b ih => exact feedFrom_concat bytes b ▸ ih.feed b

/-- No false match (R161 (c)): the claim, and the byte that completes it, are the whole pattern. -/
theorem Claims.suffix_of_hit {bytes : List Byte} {c : Nat} (h : Claims pat bytes c) (hhit : (smFeed pat c b).2 = true) :
    pat <:+ bytes ++ [b] := by
  obtain ⟨hb, hl⟩ := (smFeed_hit_iff h.lt).1 hhit
  have hwhole : pat = bytes.drop (bytes.length - c) ++ [b] := by
    calc pat = pat.take (c + 1) := by rw [hl, List.take_length]
      _ = pat.take c ++ [b] := by rw [List.take_add_one, hb]; rfl
      _ = _ := by rw [h.last]
  rw [hwhole]
  exact ⟨bytes.take (bytes.length - c), by rw [← List.append_assoc, List.take_append_drop]⟩

end

/-- Settles O18: the cases of one feed, and what the cursor claims along a run. -/
theorem matcherReportsNoFalseMatch : Obligations.MatcherReportsNoFalseMatch := by
  refine ⟨fun pat cur b hlt => ⟨smFeed_last, smFeed_next, smFeed_restart hlt, smFeed_zero hlt⟩, ?_⟩
  intro pat bytes b hpat c
  have hc : Claims pat bytes c := claims_feedFrom hpat bytes
  refine ⟨hc.lt, hc.last, hc.le, fun hhit => ⟨hc.suffix_of_hit hhit, ?_⟩, fun hone => ?_⟩
  · obtain ⟨hb, hl⟩ := (smFeed_hit_iff hc.lt).1 hhit
    rw [smFeed_last hb hl]
  · have hzero : c = 0 := Nat.lt_one_iff.1 (hone ▸ hc.lt)
    rw [smFeed_hit_iff hc.lt, hzero, hone]
    exact ⟨rfl, and_iff_left rfl⟩

/-! ### Patterns whose first byte occurs once (R162) -/

/-- The bytes of the pattern, fed in order from the place where they stand in it, move the cursor past them, as long as they do
not complete it. -/
theorem feedFrom_along (l m : List Byte) {r : List Byte} (hr : r ≠ []) :
    feedFrom (l ++ (m ++ r)) l.length m = l.length + m.length := by
  induction m generalizing l with
  | nil => rfl
  | cons b m ih =>
    have hlen : l.length + 1 ≠ (l ++ (b :: m ++ r)).length := by
      have hpos := List.length_pos_iff.2 hr
      simp only [List.length_append, List.length_cons]
      omega
    have hnext := smFeed_next (b := b) (by simp) hlen
    have hmove := ih (l ++ [b])
    rw [feedFrom_cons, hnext]
    simpa [Nat.add_assoc, Nat.add_comm 1] using hmove

/-- From every cursor a first byte that occurs once is the beginning of a match. -/
theorem smFeed_distinct_start {pat : List Byte} {cur : Nat} {x : Byte} (hx : x ∉ pat) (hne : pat ≠ [])
    (hlt : cur < (x :: pat).length) :
    smFeed (x :: pat) cur x = (1, false) := by
  cases cur with
  | zero => exact smFeed_next rfl (by simpa using hne.symm)
  | succ c =>
    have hother : (x :: pat)[c + 1]? ≠ some x := fun h => hx (List.mem_of_getElem? (by simpa using h))
    exact smFeed_restart hlt hother (Nat.succ_pos c) rfl

/-- Whatever stands before it, such a pattern is found. -/
theorem hit_of_distinct_start {pat bytes : List Byte} {x b : Byte} (hx : x ∉ pat) (h : (x :: pat) <:+ bytes ++ [b]) :
    (smFeed (x :: pat) (feedFrom (x :: pat) 0 bytes) b).2 = true := by
  have hclaims := fun l => claims_feedFrom (List.cons_ne_nil x pat) l
  refine (smFeed_hit_iff (hclaims bytes).lt).2 ?_
  obtain ⟨pre, hpre⟩ := h
  rcases pat.eq_nil_or_concat' with rfl | ⟨q, y, rfl⟩
  · obtain ⟨-, rfl⟩ := List.append_singleton_inj.1 hpre
    have hzero := Nat.lt_one_iff.1 (hclaims bytes).lt
    rw [hzero]
    exact ⟨rfl, rfl⟩
  · rw [← List.cons_append, ← List.append_assoc] at hpre
    obtain ⟨rfl, rfl⟩ := List.append_singleton_inj.1 hpre
    have hstart := smFeed_distinct_start hx (by simp) (hclaims pre).lt
    have hmove : feedFrom (x :: (q ++ [y])) 1 q = 1 + q.length := feedFrom_along [x] q (List.cons_ne_nil y [])
    rw [feedFrom_append, feedFrom_cons, hstart, hmove, Nat.add_comm]
    exact ⟨by simp, by simp⟩

/-- Settles O19: a match is never false, and a distinct first byte begins one from every cursor. -/
theorem matcherMissesNothingOfDistinctStart : Obligations.MatcherMissesNothingOfDistinctStart :=
  ⟨by decide, by decide, fun x pat bytes _ hx =>
    ⟨(claims_feedFrom (List.cons_ne_nil x pat) bytes).suffix_of_hit, hit_of_distinct_start hx⟩⟩

/-! ### The client operations -/

theorem exec_smLoad (pat : List Byte) (s : State) : exec (.smLoad pat) s = execSmLoad pat s := rfl
theorem exec_smFeed (b : Byte) (s : State) : exec (.smFeed b) s = execSmFeed b s := rfl

/-- The result word of a success has zeros above its value (R102). -/
theorem resultWord_ok_append (val : Half) : resultWord .ok val = 0#16 ++ val := by
  rw [resultWord_ok]
  exact BitVec.setWidth_eq_append (by decide)

/-- A completion after another change of the port, as one change of it. -/
theorem complete_modifyPort (p : Nat) (st : StatusCode) (val : Half) (data : List Byte) (f : Port → Port) (s : State) :
    complete p st val data (s.modifyPort p f) = { s with ports := s.ports.modify p fun o =>
      { f o with op := .idle, resps := (f o).resps ++ [{ res := resultWord st val, data := data }] } } := by
  rw [complete, State.modifyPort, State.modifyPort, List.modify_modify_eq]
  rfl

/-- A change of a port depends on what it does to that port only. -/
theorem modify_congr_port {s : State} {p : Nat} {f g : Port → Port} (hp : p < s.ports.length)
    (h : f (s.port p) = g (s.port p)) :
    s.ports.modify p f = s.ports.modify p g := by
  have hport : s.port p = s.ports.get ⟨p, hp⟩ := by simp [State.port, hp]
  rw [List.modify_eq_set_get f hp, List.modify_eq_set_get g hp, ← hport, h]

/-- Settles O25, by whether the pattern is in range. -/
theorem smLoadReplacesPattern : Obligations.SmLoadReplacesPattern := by
  refine ⟨rfl, fun pat s hr => ?_⟩
  rw [exec_smLoad, execSmLoad, issueOn_of_ready hr]
  refine ⟨fun hpos hle => ?_, fun hbad => ?_⟩
  · have hrange : patternInRange pat s = true := patternInRange_iff.2 ⟨List.length_pos_iff.1 hpos, hle⟩
    rw [if_pos hrange, loadMatcher, complete_modifyPort, resultWord_ok_append]
    rfl
  · have hrange : ¬ patternInRange pat s = true := fun h => by
      obtain ⟨hne, hle⟩ := patternInRange_iff.1 h
      exact hbad.elim (hne ∘ List.length_eq_zero_iff.1) (Nat.not_lt.2 hle)
    rw [if_neg hrange]
    rfl

/-- Settles O26, by whether a pattern is loaded. -/
theorem smFeedStoresCursorAndAnswersMatch : Obligations.SmFeedStoresCursorAndAnswersMatch := by
  refine ⟨rfl, fun b s hr => ?_⟩
  rw [exec_smFeed, execSmFeed, issueOn_of_ready hr]
  refine ⟨fun hpat => ?_, fun hpat => ?_⟩
  · have hword : ∀ hit : Bool, resultWord .ok (if hit then 1 else 0) = if hit then 1 else 0 := by decide
    rw [if_neg hpat, feedMatcher, complete_modifyPort, matcherHit, hword]
    congr 2
    exact modify_congr_port hr.1 rfl
  · rw [if_pos hpat]
    rfl

end Sys2Proof.Machine
end

section
/-! PROOF. The dispatcher's guard (R172), and the scan step: how the window splits, which registration wins, what the handlers do (R174 to R178). -/

namespace Sys2Proof.Machine

/-! ### The guard -/

/-- A choice of the dispatcher is its step where the guard holds, and nothing otherwise. -/
theorem step_disp {s : State} {rest : List Action} (hs : s.script = .disp :: rest) :
    step s = .next (if dispEnabled { s with script := rest } then dispStep { s with script := rest }
      else { s with script := rest }) :=
  step_of_script_none hs rfl

section
variable {s : State}

theorem rbEmpty_rx_iff : rbEmpty .rx s = true ↔ s.rx.count = 0 := decide_eq_true_iff

theorem dispEnabled_scan (h : s.disp.phase = .scan) : dispEnabled s = true ↔ s.rx.count ≠ 0 := by
  simp [dispEnabled, h, ← rbEmpty_rx_iff]

/-- While a frame is read the guard opens for a byte or for the timer (R213, R214). -/
theorem dispEnabled_reading (h : s.disp.phase = .hdr ∨ s.disp.phase = .payload) :
    dispEnabled s = true ↔ s.rx.count ≠ 0 ∨ s.disp.t = 0 := by
  rcases h with h | h <;> simp [dispEnabled, h, ← rbEmpty_rx_iff]

theorem dispEnabled_putWait (h : s.disp.phase = .putWait) :
    dispEnabled s = true ↔ (s.queue s.disp.fCid).length < Config.qcap := by
  simp [dispEnabled, h]

end

/-- Settles O42: in each of the phases the guard is closed. -/
theorem blockedDispatcherTakesNoStep : Obligations.BlockedDispatcherTakesNoStep := by
  intro s rest hs hblocked
  have hclosed : ¬ dispEnabled { s with script := rest } = true := by
    rcases hblocked with ⟨hphase, hempty⟩ | ⟨hphase, hfull⟩ | ⟨hphase, hempty, ht⟩
    · exact fun h => (dispEnabled_scan hphase).1 h hempty
    · exact fun h => Nat.ne_of_lt ((dispEnabled_putWait hphase).1 h) hfull
    · exact fun h => ((dispEnabled_reading hphase).1 h).elim (absurd hempty) ht
  rw [step_disp hs, if_neg hclosed]

/-! ### Popping RX -/

/-- The state whose oldest unread RX byte has been taken (R141). -/
def popRx (s : State) : State :=
  { s with rx := { s.rx with tail := (s.rx.tail + 1) % s.cfg.rxN, count := s.rx.count - 1, hist := s.rx.hist + 1 } }

theorem rbPop_rx {s : State} (hc : s.rx.count ≠ 0) : rbPop .rx s = some (memRead s.rx.store s.rx.tail, popRx s) :=
  rbPop_of_count (sel := .rx) hc

/-! ### The registration that wins -/

/-- What the matcher of registration `j` makes of a byte; beyond the table there is an empty pattern. -/
def fedAt (reg : List Registration) (curs : List Nat) (b : Byte) (j : Nat) : Nat × Bool :=
  smFeed ((reg[j]?.map Registration.pat).getD []) ((curs[j]?).getD 0) b

section
variable {reg : List Registration} {curs : List Nat} {b : Byte}

/-- With a cursor for every registration, each matcher is fed once, in order (R165). -/
theorem feedAll_eq_map (hlen : curs.length = reg.length) : feedAll reg curs b = (List.range reg.length).map (fedAt reg curs b) := by
  refine List.ext_getElem (by simp [feedAll, hlen]) fun j hj hj' => ?_
  have hreg : j < reg.length := by simpa using hj'
  simp [feedAll, fedAt, hreg, hlen]

theorem firstHit_eq_none (hlen : curs.length = reg.length) (h : firstHit (feedAll reg curs b) = none) :
    ∀ j, j < reg.length → (fedAt reg curs b j).2 = false := by
  rw [firstHit, feedAll_eq_map hlen, List.findIdx?_eq_none_iff] at h
  exact fun j hj => h _ (List.mem_map_of_mem (List.mem_range.2 hj))

/-- The winner is a registration that hits, and none before it does (R171). -/
theorem firstHit_eq_some {w : Nat} (hlen : curs.length = reg.length) (h : firstHit (feedAll reg curs b) = some w) :
    w < reg.length ∧ (fedAt reg curs b w).2 = true ∧ ∀ j, j < w → (fedAt reg curs b j).2 = false := by
  rw [firstHit, feedAll_eq_map hlen, List.findIdx?_eq_some_iff_getElem] at h
  obtain ⟨hw, hhit, hbefore⟩ := h
  refine ⟨by simpa using hw, by simpa using hhit, fun j hj => ?_⟩
  simpa using hbefore j hj

end

/-- A registration that hits has its whole pattern at the window's end (R33, R161). -/
theorem DispInv.suffix_of_hit {s : State} (h : DispInv s) (hp : s.disp.phase = .scan) {w : Nat} {r : Registration} {b : Byte}
    (hr : s.cfg.reg[w]? = some r) (hhit : (fedAt s.cfg.reg s.mcur b w).2 = true) : r.pat <:+ s.disp.hold ++ [b] := by
  obtain ⟨c, hc⟩ : ∃ c, s.mcur[w]? = some c :=
    ⟨_, List.getElem?_eq_getElem (h.cursors ▸ (List.getElem?_eq_some_iff.1 hr).1)⟩
  have hclaims : Claims r.pat s.disp.hold c :=
    ⟨h.cursor_lt w c r hr hc, h.held hp ▸ List.le_max_of_le' 0 (List.mem_of_getElem? hc) le_rfl, h.claimed hp w c r hr hc⟩
  exact hclaims.suffix_of_hit (by simpa [fedAt, hr, hc] using hhit)

/-! ### What is released, and the handlers -/

/-- How STATUS goes from `old` to `new` when `bytes` are pushed onto the RSP ring `r`: RSP_OVF is set iff one of them finds it full (R140, R175). -/
structure OverflowExact (n : Nat) (r : Ring) (bytes : List Byte) (old new : Half) : Prop where
  full : (∃ k, k < bytes.length ∧ ((bytes.take k).foldl (fun r x => Ring.push n r x) r).count = n) → new = old ||| 2
  room : (∀ k, k < bytes.length → ((bytes.take k).foldl (fun r x => Ring.push n r x) r).count ≠ n) → new = old

/-- A release pushes the bytes onto RSP, and only RSP_OVF can change besides. -/
theorem release_exact (bytes : List Byte) (s : State) :
    ∃ st, release bytes s = { s with rsp := bytes.foldl (Ring.push s.cfg.rspN) s.rsp, status := st } ∧
      OverflowExact s.cfg.rspN s.rsp bytes s.status st := by
  obtain ⟨st, heq, hst⟩ := release_eq bytes s
  refine ⟨st, heq, fun ⟨k, hk, hfull⟩ => ?_, fun hroom => ?_⟩
  · rcases hst with ⟨-, hnone⟩ | ⟨hflag, -⟩
    · exact absurd hfull (hnone k hk)
    · exact hflag
  · rcases hst with ⟨hflag, -⟩ | ⟨-, k, hk, hfull⟩
    · exact hflag
    · exact absurd hfull (hroom k hk)

/-- A handler changes the dispatcher's registers and the events at most (R177, R178). -/
theorem invoke_eq (w : Nat) (s : State) : invoke w s = { s with disp := (invoke w s).disp, events := (invoke w s).events } := by
  unfold invoke
  split
  · rfl
  · split <;> rfl

section
variable {s : State} {w : Nat} {r : Registration}

/-- The event handler reads no byte and sets its bit (R177). -/
theorem invoke_event (hr : s.cfg.reg[w]? = some r) (hh : r.handler = .event) :
    (invoke w s).disp = s.disp ∧ (invoke w s).events = s.events ||| BitVec.twoPow 16 w := by
  simp [invoke, hr, hh]

/-- The bulk handler begins a frame (R178). -/
theorem invoke_bulk (hr : s.cfg.reg[w]? = some r) (hh : r.handler = .bulk) :
    (invoke w s).events = s.events ∧
      (invoke w s).disp = { s.disp with fHdr := [], fBuf := [], t := timerLoad s, phase := .hdr } := by
  simp [invoke, hr, hh, bulkEntry]

/-! ### The scan step -/

theorem dispScan_hit (hc : s.rx.count ≠ 0)
    (hw : firstHit (feedAll s.cfg.reg s.mcur (memRead s.rx.store s.rx.tail)) = some w) :
    dispScan s = scanHit w (s.disp.hold ++ [memRead s.rx.store s.rx.tail]) (popRx s) := by
  simp [dispScan, rbPop_rx hc, hw]

theorem dispScan_miss (hc : s.rx.count ≠ 0)
    (hw : firstHit (feedAll s.cfg.reg s.mcur (memRead s.rx.store s.rx.tail)) = none) :
    dispScan s = scanMiss ((feedAll s.cfg.reg s.mcur (memRead s.rx.store s.rx.tail)).map fun x => x.1)
      (s.disp.hold ++ [memRead s.rx.store s.rx.tail]) (popRx s) := by
  simp [dispScan, rbPop_rx hc, hw]

/-- A step of the scanning dispatcher that has a byte. -/
theorem step_dispScan {rest : List Action} (hs : s.script = .disp :: rest) (hp : s.disp.phase = .scan) (hc : s.rx.count ≠ 0) :
    step s = .next (dispScan { s with script := rest }) := by
  have hopen : dispEnabled { s with script := rest } = true := (dispEnabled_scan hp).2 hc
  rw [step_disp hs, if_pos hopen, dispStep]
  simp only [hp]

/-- A window that ends in the winner's pattern: what stands before it is released, and the handler finds the dispatcher cleared (R174). -/
theorem scanHit_eq (hr : s.cfg.reg[w]? = some r) (rel : List Byte) :
    ∃ st, scanHit w (rel ++ r.pat) s = invoke w { s with
        rsp := rel.foldl (Ring.push s.cfg.rspN) s.rsp
        status := st
        mcur := List.replicate s.mcur.length 0
        disp := { s.disp with hold := [] } } ∧
      OverflowExact s.cfg.rspN s.rsp rel s.status st := by
  obtain ⟨st, heq, hst⟩ := release_exact rel s
  have hrel : (rel ++ r.pat).take ((rel ++ r.pat).length - patternLen s w) = rel := by simp [patternLen, hr]
  refine ⟨st, ?_, hst⟩
  rw [scanHit, hrel, heq, List.map_const']

end

/-- Without a winner the window's end stays held (R174). -/
theorem scanMiss_eq (curs : List Nat) (win : List Byte) (s : State) :
    let rel := win.take (win.length - maxCur curs)
    ∃ st, scanMiss curs win s = { s with
        rsp := rel.foldl (Ring.push s.cfg.rspN) s.rsp
        status := st
        mcur := curs
        disp := { s.disp with hold := win.drop (win.length - maxCur curs) } } ∧
      OverflowExact s.cfg.rspN s.rsp rel s.status st := by
  obtain ⟨st, heq, hst⟩ := release_exact (win.take (win.length - maxCur curs)) s
  refine ⟨st, ?_, hst⟩
  rw [scanMiss, heq]

/-- Settles O41, by whether a registration wins: then the kept bytes are its pattern, else as many as the greatest cursor. -/
theorem scanRoutesEveryByte : Obligations.ScanRoutesEveryByte := by
  intro s rest hinv hs hp hc b fed
  have hstep := step_dispScan hs hp hc
  have hlen := hinv.disp.cursors
  cases hfirst : firstHit (feedAll s.cfg.reg s.mcur b) with
  | some w =>
    obtain ⟨hw, hhit, hbefore⟩ := firstHit_eq_some hlen hfirst
    obtain ⟨r, hr⟩ : ∃ r, s.cfg.reg[w]? = some r := ⟨_, List.getElem?_eq_getElem hw⟩
    obtain ⟨rel, hsplit⟩ := hinv.disp.suffix_of_hit hp hr hhit
    obtain ⟨st, heq, hst⟩ := scanHit_eq (s := popRx { s with script := rest }) hr rel
    rw [dispScan_hit (s := { s with script := rest }) hc hfirst, ← hsplit, heq, invoke_eq] at hstep
    refine ⟨_, rel, r.pat, hstep, hsplit.symm, rfl, rfl, rfl, hst.full, hst.room,
      .inl ⟨w, r, hr, hhit, hbefore, rfl, congrArg (List.replicate · 0) hlen, invoke_event hr, invoke_bulk hr⟩⟩
  | none =>
    obtain ⟨st, heq, hst⟩ := scanMiss_eq ((feedAll s.cfg.reg s.mcur b).map fun x => x.1) (s.disp.hold ++ [b])
      (popRx { s with script := rest })
    rw [dispScan_miss (s := { s with script := rest }) hc hfirst, heq] at hstep
    refine ⟨_, _, _, hstep, (List.take_append_drop _ _).symm, rfl, rfl, rfl, hst.full, hst.room,
      .inr ⟨firstHit_eq_none hlen hfirst, ?_, (hinv.disp.scanned hp b).held hp, rfl, rfl⟩⟩
    rw [feedAll_eq_map hlen, List.map_map]
    rfl

end Sys2Proof.Machine
end

section
/-! PROOF. The command channel (R191 to R197): issue, sending under the TX lock, and pulling from RSP under a timer. -/

namespace Sys2Proof.Machine

/-! ### The issue steps -/

theorem exec_chSend (str : List Byte) (s : State) : exec (.chSend str) s = execChSend str s := rfl
theorem exec_chRecv (token : List Byte) (s : State) : exec (.chRecv token) s = execChRecv token s := rfl
theorem exec_chReadtill (limit : Half) (delim : List Byte) (s : State) :
    exec (.chReadtill limit delim) s = execChReadtill limit delim s := rfl
theorem exec_chSetto (ms : Half) (s : State) : exec (.chSetto ms) s = execChSetto ms s := rfl
theorem exec_bdSend (cid : BitVec 4) (data : List Byte) (s : State) : exec (.bdSend cid data) s = execBdSend cid data s := rfl

/-- A record stored after another change of the port, as one change of it. -/
theorem setOp_modifyPort (p : Nat) (op : PortOp) (f : Port → Port) (s : State) :
    setOp p op (s.modifyPort p f) = { s with ports := s.ports.modify p fun o => { f o with op := op } } := by
  rw [setOp, State.modifyPort, State.modifyPort, List.modify_modify_eq]
  rfl

/-- A record stored with its pattern: nothing but the responses is left of the port. -/
theorem setOp_loadMatcher (p : Nat) (op : PortOp) (pat : List Byte) (s : State) :
    setOp p op (loadMatcher p pat s) = { s with ports := s.ports.modify p fun o =>
      { op := op, em := { pat := pat, cur := 0 }, resps := o.resps } } :=
  setOp_modifyPort p op _ s

/-- Settles O29. -/
theorem chSettoWritesTimeout : Obligations.ChSettoWritesTimeout := by
  refine ⟨rfl, fun ms s hr => ?_⟩
  rw [exec_chSetto, execChSetto, issueOn_of_ready hr]
  exact congrArg _ (complete_ok rfl _ _)

/-- Settles O27: two issue steps that only store a record. -/
theorem sendsRecordStringAwaitingLock : Obligations.SendsRecordStringAwaitingLock := by
  refine fun s hr => ⟨fun str => ?_, fun cid data hlen => ?_⟩
  · rw [exec_chSend, execChSend, issueOn_of_ready hr]
    rfl
  · rw [exec_bdSend, execBdSend, issueOn_of_ready hr, if_pos hlen]
    rfl

/-- Settles O28, by whether the limit is 0. -/
theorem receivesLoadMatcherAndTimer : Obligations.ReceivesLoadMatcherAndTimer := by
  intro s pat hr hpos hle
  have hrange : patternInRange pat s = true := patternInRange_iff.2 ⟨List.length_pos_iff.1 hpos, hle⟩
  refine ⟨?_, ?_, fun limit hlimit => ?_⟩
  · rw [exec_chRecv, execChRecv, issueOn_of_ready hr, if_pos hrange, setOp_loadMatcher]
    rfl
  · rw [exec_chReadtill, execChReadtill, issueOn_of_ready hr, if_pos hrange, if_pos rfl, loadMatcher, complete_modifyPort]
    rfl
  · rw [exec_chReadtill, execChReadtill, issueOn_of_ready hr, if_pos hrange, if_neg hlimit, setOp_loadMatcher]
    rfl

/-! ### A chosen progress step -/

/-- A client's choice whose guard holds. -/
theorem step_cli_enabled {s : State} {p : Nat} {accept : Bool} {rest : List Action} (hs : s.script = .cli p accept :: rest)
    (h : cliEnabled p { s with script := rest } = true) : step s = .next (cliStep p accept { s with script := rest }) := by
  rw [step_cli hs, if_pos h]

/-- A client's choice on a blocked port. -/
theorem step_cli_blocked {s : State} {p : Nat} {accept : Bool} {rest : List Action} (hs : s.script = .cli p accept :: rest)
    (h : ¬ cliEnabled p { s with script := rest } = true) : step s = .next { s with script := rest } := by
  rw [step_cli hs, if_neg h]

/-- A progress step that is taken at once. -/
theorem perform_cli {s : State} {p : Nat} (h : cliEnabled p s = true) (accept : Bool) :
    perform (.cli p accept) s = cliStep p accept s := by
  rw [perform, step_cli_enabled (s := { s with script := .cli p accept :: s.script }) rfl h]

/-! ### Sending (R191 to R193, R220) -/

section
variable {s : State} {p i n : Nat} {str : List Byte} {bulk : Bool}

/-- Waiting for the lock, the guard is that it is free (R193). -/
theorem cliEnabled_lock (h : (s.port p).op = .send str i .lock bulk n) : cliEnabled p s = true ↔ s.txOwner = none := by
  have hp : p < s.ports.length := lt_of_op_ne_idle (by simp [h])
  simp [cliEnabled, h, hp]

theorem cliStep_lock (h : (s.port p).op = .send str i .lock bulk n) (accept : Bool) :
    cliStep p accept s = stepLock p str i bulk n s := by
  rw [cliStep, h]

/-- Holding the lock, a port can always go on (R192). -/
theorem cliEnabled_emit (h : (s.port p).op = .send str i .emit bulk n) : cliEnabled p s = true := by
  have hp : p < s.ports.length := lt_of_op_ne_idle (by simp [h])
  simp [cliEnabled, h, hp]

theorem cliStep_emit (h : (s.port p).op = .send str i .emit bulk n) (accept : Bool) :
    cliStep p accept s = stepEmit p str i bulk n accept s := by
  rw [cliStep, h]

theorem stepEmit_accepted {b : Byte} (h : str[i]? = some b) : stepEmit p str i bulk n true s =
    setOp p (.send str (i + 1) .emit bulk n) { s with txLog := s.txLog ++ [b] } := by
  rw [stepEmit, h]
  rfl

theorem stepEmit_refused (h : i < str.length) : stepEmit p str i bulk n false s = stepRefused p i bulk s := by
  rw [stepEmit, List.getElem?_eq_getElem h]
  rfl

theorem stepEmit_end (accept : Bool) : stepEmit p str str.length bulk n accept s = stepSent p str bulk n s := by
  rw [stepEmit, List.getElem?_length]

/-- `CH.SEND` ends with the number of its bytes (R191). -/
theorem stepSent_send : stepSent p str false n s =
    { s with txOwner := none, ports := delivered s p (0x0000#16 ++ BitVec.ofNat 16 str.length) [] } := by
  rw [← resultWord_ok_append]
  rfl

/-- `BD.SEND` goes on to wait for its token (R220). -/
theorem stepSent_bulk : stepSent p str true n s = { s with
    txOwner := none
    ports := s.ports.modify p fun o =>
      { op := .tokwait n (s.timeout.toNat + 1), em := { pat := [0x1B, 0x4F], cur := 0 }, resps := o.resps } } := by
  rw [stepSent, if_pos rfl, setOp_loadMatcher]
  rfl

end

/-- The result word of a failure (R102). -/
theorem resultWord_fail (val : Half) : resultWord .fail val = 0x2000#16 ++ val := by
  apply BitVec.eq_of_toNat_eq
  rw [resultWord_toNat, BitVec.toNat_append, ← Nat.shiftLeft_add_eq_or_of_lt val.isLt, Nat.shiftLeft_eq]
  rfl

/-- Settles O34: the guard is the lock. -/
theorem lockStepNeedsFreeLock : Obligations.LockStepNeedsFreeLock := by
  intro s p accept rest str i bulk n hs hop
  have hguard := cliEnabled_lock (s := { s with script := rest }) hop
  refine ⟨fun hfree => ?_, fun hheld => step_cli_blocked hs (mt hguard.1 hheld)⟩
  rw [step_cli_enabled hs (hguard.2 hfree), cliStep_lock (s := { s with script := rest }) hop]
  rfl

/-- Settles O35, by what is left of the string and what the sink answers. -/
theorem emitStepSendsOneByte : Obligations.EmitStepSendsOneByte := by
  intro s p accept rest str i bulk n hs hop
  rw [step_cli_enabled hs (cliEnabled_emit hop), cliStep_emit (s := { s with script := rest }) hop]
  refine ⟨fun b hb ha => ?_, fun hi ha => ?_, fun hi hbulk => ?_, fun hi hbulk => ?_⟩
  · rw [ha, stepEmit_accepted hb]
    rfl
  · rw [ha, stepEmit_refused hi, stepRefused, complete_eq, resultWord_fail]
    rfl
  · rw [hi, hbulk, stepEmit_end, stepSent_send]
    rfl
  · rw [hi, hbulk, stepEmit_end, stepSent_bulk]

/-! ### A whole CH.SEND -/

theorem performAll_cons (a : Action) (acts : List Action) (s : State) :
    performAll (a :: acts) s = performAll acts (perform a s) := rfl

theorem performAll_append (acts acts' : List Action) (s : State) :
    performAll (acts ++ acts') s = performAll acts' (performAll acts s) := List.foldl_append

/-- The state in which port `p` holds the lock and `i` bytes of its string have gone out since `s`. -/
def sending (s : State) (p : Nat) (str : List Byte) (i : Nat) : State :=
  { s with txOwner := some p, txLog := s.txLog ++ str.take i, ports := recorded s p (.send str i .emit false 0) }

section
variable {s : State} {p : Nat} {str : List Byte}

/-- The record of the port that sends. -/
theorem sending_op (hp : p < s.ports.length) (i : Nat) : ((sending s p str i).port p).op = .send str i .emit false 0 :=
  congrArg Port.op (modifyPort_port_self p (fun o => { o with op := .send str i .emit false 0 }) s hp)

/-- A record replaces the one before it. -/
theorem recorded_recorded (op op' : PortOp) {u : State} (h : u.ports = recorded s p op) :
    recorded u p op' = recorded s p op' := by
  rw [recorded, h, recorded, List.modify_modify_eq]
  rfl

/-- A completion removes the record. -/
theorem delivered_recorded (op : PortOp) {u : State} (h : u.ports = recorded s p op) (res : Word) (data : List Byte) :
    delivered u p res data = delivered s p res data := by
  rw [delivered, h, recorded, List.modify_modify_eq]
  rfl

/-- The lock step of a send that has just been issued. -/
theorem perform_lock (hp : p < s.ports.length) (hfree : s.txOwner = none) :
    perform (.cli p true) (setOp p (.send str 0 .lock false 0) s) = sending s p str 0 := by
  have hop : ((setOp p (.send str 0 .lock false 0) s).port p).op = .send str 0 .lock false 0 := by rw [setOp_port hp]
  rw [perform_cli ((cliEnabled_lock hop).2 hfree), cliStep_lock hop, stepLock, setOp_eq, recorded_recorded _ _ rfl, sending,
    List.take_zero, List.append_nil]
  rfl

/-- An accepted byte. -/
theorem perform_sending (hp : p < s.ports.length) {i : Nat} (hi : i < str.length) :
    perform (.cli p true) (sending s p str i) = sending s p str (i + 1) := by
  have hop := sending_op (str := str) hp i
  rw [perform_cli (cliEnabled_emit hop), cliStep_emit hop, stepEmit_accepted (List.getElem?_eq_getElem hi), setOp_eq,
    recorded_recorded _ _ rfl, sending, sending, List.take_succ_eq_append_getElem hi, ← List.append_assoc]

/-- As many accepted bytes as the string has. -/
theorem performAll_sending (hp : p < s.ports.length) {k : Nat} (hk : k ≤ str.length) :
    performAll (List.replicate k (.cli p true)) (sending s p str 0) = sending s p str k := by
  induction k with
  | zero => rfl
  | succ k ih =>
    rw [List.replicate_succ', performAll_append, ih (Nat.le_of_succ_le hk)]
    exact perform_sending hp hk

/-- The closing step. -/
theorem perform_sent (hp : p < s.ports.length) : perform (.cli p true) (sending s p str str.length) =
    { s with txOwner := none, txLog := s.txLog ++ str,
             ports := delivered s p (0x0000#16 ++ BitVec.ofNat 16 str.length) [] } := by
  have hop := sending_op (str := str) hp str.length
  rw [perform_cli (cliEnabled_emit hop), cliStep_emit hop, stepEmit_end, stepSent_send, delivered_recorded _ rfl, sending,
    List.take_length]

end

/-- Settles O36: the lock step, the bytes, the closing step. -/
theorem chSendEmitsWholeString : Obligations.ChSendEmitsWholeString := by
  intro s str hr hfree
  refine ⟨_, by rw [exec_chSend, execChSend, issueOn_of_ready hr], ?_⟩
  rw [List.replicate_succ, performAll_cons, perform_lock hr.1 hfree, List.replicate_succ', performAll_append,
    performAll_sending hr.1 le_rfl]
  exact (perform_sent hr.1).trans (by rw [hfree])

/-! ### Pulling from RSP under a timer (R194, R195, R197, R220) -/

/-- The state whose oldest unread RSP byte has been taken (R141). -/
def popRsp (s : State) : State :=
  { s with rsp := { s.rsp with tail := (s.rsp.tail + 1) % s.cfg.rspN, count := s.rsp.count - 1, hist := s.rsp.hist + 1 } }

theorem rbPop_rsp {s : State} (hc : s.rsp.count ≠ 0) : rbPop .rsp s = some (memRead s.rsp.store s.rsp.tail, popRsp s) :=
  rbPop_of_count (sel := .rsp) hc

theorem pullReady_iff {t : Nat} {s : State} : pullReady t s = true ↔ t = 0 ∨ s.rsp.count ≠ 0 := by
  rw [pullReady, Bool.or_eq_true, decide_eq_true_eq, Bool.not_eq_true', rbEmpty, decide_eq_false_iff_not]
  rfl

section
variable {s : State} {p t : Nat}

/-- What the matcher of port `p` makes of a byte (R160). -/
def portFed (s : State) (p : Nat) (b : Byte) : Nat × Bool := smFeed (s.port p).em.pat (s.port p).em.cur b

/-- Feeding the matcher of port `p` stores the cursor only. -/
theorem feedMatcher_eq (hp : p < s.ports.length) (b : Byte) :
    feedMatcher p b s = s.modifyPort p fun o => { o with em := { o.em with cur := (portFed s p b).1 } } := by
  rw [feedMatcher, State.modifyPort, State.modifyPort]
  congr 1
  exact modify_congr_port hp rfl

/-- The operation completes with the byte that its matcher is fed. -/
theorem complete_feedMatcher_eq (hp : p < s.ports.length) (b : Byte) (st : StatusCode) (val : Half) (data : List Byte) :
    complete p st val data (feedMatcher p b s) = { s with ports := s.ports.modify p fun o =>
      { op := .idle, em := { o.em with cur := (portFed s p b).1 },
        resps := o.resps ++ [{ res := resultWord st val, data := data }] } } := by
  rw [feedMatcher_eq hp, complete_modifyPort]

/-- The operation goes on, with another record, after the byte that its matcher is fed. -/
theorem setOp_feedMatcher_eq (hp : p < s.ports.length) (b : Byte) (op : PortOp) :
    setOp p op (feedMatcher p b s) = { s with ports := s.ports.modify p fun o =>
      { op := op, em := { o.em with cur := (portFed s p b).1 }, resps := o.resps } } := by
  rw [feedMatcher_eq hp, setOp_modifyPort]

/-- With a byte there and time left, a pull feeds the byte and ends on a match. -/
theorem stepPull_byte (hp : p < s.ports.length) (ht : t ≠ 0) (hc : s.rsp.count ≠ 0) (timeoutVal okVal : Half) :
    let fed := portFed s p (memRead s.rsp.store s.rsp.tail)
    stepPull p t timeoutVal okVal s = { popRsp s with
      ports := s.ports.modify p fun o =>
        { op := if fed.2 then .idle else o.op
          em := { o.em with cur := fed.1 }
          resps := if fed.2 then o.resps ++ [{ res := resultWord .ok okVal, data := [] }] else o.resps } } := by
  intro fed
  have hpu : p < (popRsp s).ports.length := hp
  have hhit : matcherHit p (memRead s.rsp.store s.rsp.tail) (popRsp s) = fed.2 := rfl
  rw [stepPull, if_neg ht, rbPop_rsp hc]
  dsimp only
  rw [hhit]
  cases h : fed.2 with
  | true =>
    rw [if_pos rfl, complete_feedMatcher_eq hpu]
    rfl
  | false =>
    rw [if_neg nofun, feedMatcher_eq hpu]
    rfl

/-- With a byte there and time left, CH.READTILL feeds the byte and looks for the delimiter before the limit (R195). -/
theorem stepReadtill_byte (hp : p < s.ports.length) (ht : t ≠ 0) (hc : s.rsp.count ≠ 0) (limit : Nat) (out : List Byte) :
    let b := memRead s.rsp.store s.rsp.tail
    let fed := portFed s p b
    let v := out.length + 1 - (s.port p).em.pat.length
    stepReadtill p limit out t s = { popRsp s with
      ports := s.ports.modify p fun o =>
        if fed.2 then
          { op := .idle, em := { o.em with cur := fed.1 },
            resps := o.resps ++ [{ res := resultWord .ok (toVal v), data := (out ++ [b]).take v }] }
        else if out.length + 1 = limit then
          { op := .idle, em := { o.em with cur := fed.1 },
            resps := o.resps ++ [{ res := resultWord .ok (toVal limit), data := out ++ [b] }] }
        else
          { op := .readtill limit (out ++ [b]) t, em := { o.em with cur := fed.1 }, resps := o.resps } } := by
  intro b fed v
  have hpu : p < (popRsp s).ports.length := hp
  have hhit : matcherHit p b (popRsp s) = fed.2 := rfl
  have hlen : (out ++ [b]).length = out.length + 1 := List.length_append
  rw [stepReadtill, if_neg ht, rbPop_rsp hc]
  dsimp only
  rw [hhit, hlen]
  cases h : fed.2 with
  | true =>
    rw [if_pos rfl, complete_feedMatcher_eq hpu]
    rfl
  | false =>
    rw [if_neg nofun]
    by_cases hlimit : out.length + 1 = limit
    · simp only [if_pos hlimit]
      rw [complete_feedMatcher_eq hpu]
      rfl
    · simp only [if_neg hlimit]
      rw [setOp_feedMatcher_eq hpu]
      rfl

/-- The records that wait for RSP bytes under a timer (R194, R195, R220). -/
def PullsUnder (t : Nat) (op : PortOp) : Prop :=
  op = .recv t ∨ (∃ n, op = .tokwait n t) ∨ ∃ limit out, op = .readtill limit out t

theorem PullsUnder.ne_idle {op : PortOp} (h : PullsUnder t op) : op ≠ .idle := by
  rcases h with rfl | ⟨n, rfl⟩ | ⟨limit, out, rfl⟩ <;> nofun

/-- With such a record the guard is the timer run out or a byte in RSP. -/
theorem cliEnabled_pull (h : PullsUnder t (s.port p).op) : cliEnabled p s = true ↔ t = 0 ∨ s.rsp.count ≠ 0 := by
  rw [← pullReady_iff, cliEnabled, decide_eq_true (lt_of_op_ne_idle h.ne_idle), Bool.true_and]
  rcases h with h | ⟨n, h⟩ | ⟨limit, out, h⟩ <;> rw [h]

theorem cliStep_recv (h : (s.port p).op = .recv t) (accept : Bool) : cliStep p accept s = stepPull p t 0 1 s := by
  rw [cliStep, h]
  rfl

theorem cliStep_tokwait {n : Nat} (h : (s.port p).op = .tokwait n t) (accept : Bool) :
    cliStep p accept s = stepPull p t sentinel (toVal n) s := by
  rw [cliStep, h]
  rfl

theorem cliStep_readtill {limit : Nat} {out : List Byte} (h : (s.port p).op = .readtill limit out t) (accept : Bool) :
    cliStep p accept s = stepReadtill p limit out t s := by
  rw [cliStep, h]

/-- With neither expiry nor a byte the port is blocked. -/
theorem step_pull_blocked {accept : Bool} {rest : List Action} (hs : s.script = .cli p accept :: rest)
    (h : PullsUnder t (s.port p).op) (ht : t ≠ 0) (hc : s.rsp.count = 0) : step s = .next { s with script := rest } :=
  step_cli_blocked hs fun hen => ((cliEnabled_pull (s := { s with script := rest }) h).1 hen).elim ht (absurd hc)

/-- On expiry or with a byte there the port takes its step. -/
theorem step_pull_ready {accept : Bool} {rest : List Action} (hs : s.script = .cli p accept :: rest)
    (h : PullsUnder t (s.port p).op) (hready : t = 0 ∨ s.rsp.count ≠ 0) :
    step s = .next (cliStep p accept { s with script := rest }) :=
  step_cli_enabled hs ((cliEnabled_pull (s := { s with script := rest }) h).2 hready)

end

/-- Settles O37: both operations pull, with values of their own for the two ends. -/
theorem recvPullsOneByteUntilMatch : Obligations.RecvPullsOneByteUntilMatch := by
  intro s p accept rest t onTimeout onMatch hs hrec
  have hpull : PullsUnder t (s.port p).op := hrec.imp And.left fun ⟨n, hop, _⟩ => .inl ⟨n, hop⟩
  obtain ⟨timeoutVal, okVal, hstep, rfl, rfl⟩ : ∃ timeoutVal okVal,
      cliStep p accept { s with script := rest } = stepPull p t timeoutVal okVal { s with script := rest } ∧
        onTimeout = resultWord .timeout timeoutVal ∧ onMatch = resultWord .ok okVal := by
    rcases hrec with ⟨hop, ht, hm⟩ | ⟨n, hop, ht, hm⟩
    · exact ⟨0, 1, cliStep_recv (s := { s with script := rest }) hop accept, ht, hm⟩
    · exact ⟨sentinel, toVal n, cliStep_tokwait (s := { s with script := rest }) hop accept, ht,
        hm.trans (resultWord_ok_append _).symm⟩
  refine ⟨fun ht => ?_, step_pull_blocked hs hpull, fun ht hc => ?_⟩
  · rw [step_pull_ready hs hpull (.inl ht), hstep, stepPull, if_pos ht]
    rfl
  · rw [step_pull_ready hs hpull (.inr hc), hstep,
      stepPull_byte (s := { s with script := rest }) (lt_of_op_ne_idle hpull.ne_idle) ht hc]
    rfl

/-- Settles O38: expiry, then the delimiter, then the limit. -/
theorem readtillTrimsDelimiterBeforeLimit : Obligations.ReadtillTrimsDelimiterBeforeLimit := by
  intro s p accept rest limit out t hs hop
  have hpull : PullsUnder t (s.port p).op := .inr (.inr ⟨limit, out, hop⟩)
  have hstep := cliStep_readtill (s := { s with script := rest }) hop accept
  refine ⟨fun ht => ?_, step_pull_blocked hs hpull, fun ht hc => ?_⟩
  · rw [step_pull_ready hs hpull (.inl ht), hstep, stepReadtill, if_pos ht]
    rfl
  · rw [step_pull_ready hs hpull (.inr hc), hstep,
      stepReadtill_byte (s := { s with script := rest }) (lt_of_op_ne_idle hpull.ne_idle) ht hc]
    simp only [resultWord_ok_append]
    rfl

end Sys2Proof.Machine
end

section
/-! PROOF. The packet queues and the phases of a bulk frame (R210 to R221): flush and receive, the put, and each read of header and payload. -/

namespace Sys2Proof.Machine

/-! ### Queues -/

/-- The last list that is stored in a queue stays. -/
theorem setQueue_setQueue (c : BitVec 4) (l l' : List Packet) (s : State) :
    (s.setQueue c l).setQueue c l' = s.setQueue c l' := by
  simp [State.setQueue]

/-- A completion leaves the queues. -/
@[simp] theorem complete_queue (p : Nat) (st : StatusCode) (val : Half) (data : List Byte) (s : State) (c : BitVec 4) :
    (complete p st val data s).queue c = s.queue c := rfl

/-! ### PQ.FLUSH (R221) -/

theorem exec_pqFlush (cid : BitVec 4) (s : State) : exec (.pqFlush cid) s = execPqFlush cid s := rfl

/-- Settles O30: the one queue is set. -/
theorem pqFlushEmptiesOneQueue : Obligations.PqFlushEmptiesOneQueue := by
  refine ⟨rfl, fun cid s hr => ?_⟩
  rw [exec_pqFlush, execPqFlush, issueOn_of_ready hr]
  refine ⟨_, rfl, ?_, fun c hc => ?_, ?_⟩
  · rw [complete_queue, setQueue_queue_self]
  · rw [complete_queue, setQueue_queue_other cid c [] s hc]
  · rw [complete_eq, resultWord_ok_append]
    rfl

/-! ### PQ.RECV (R218) -/

section
variable {s : State} {p amount t : Nat} {cid : BitVec 4}

/-- The guard opens for a packet or for the timer. -/
theorem cliEnabled_pqrecv (h : (s.port p).op = .pqrecv cid amount t) : cliEnabled p s = true ↔ s.queue cid ≠ [] ∨ t = 0 := by
  have hp : p < s.ports.length := lt_of_op_ne_idle (by simp [h])
  simp [cliEnabled, h, hp, pqReady]

theorem cliStep_pqrecv (h : (s.port p).op = .pqrecv cid amount t) (accept : Bool) :
    cliStep p accept s = stepPqRecv p cid amount s := by
  rw [cliStep, h]

/-- What is left of a queue whose head packet has given at most `amount` bytes. -/
def consumed (amount : Nat) (pkt : Packet) (tail : List Packet) : List Packet :=
  if pkt.len ≤ amount then tail else { pkt with off := pkt.off + amount, len := pkt.len - amount } :: tail

/-- Without a packet the wait has timed out. -/
theorem stepPqRecv_empty (h : s.queue cid = []) :
    stepPqRecv p cid amount s = { s with ports := delivered s p 0x1000FFFF [] } := by
  rw [stepPqRecv, pqGet_eq_none.2 h]
  rfl

/-- With a packet its first bytes are delivered and the rest of it stays at the head. -/
theorem stepPqRecv_head {pkt : Packet} {tail : List Packet} (h : s.queue cid = pkt :: tail) :
    stepPqRecv p cid amount s = complete p .ok (toVal (min pkt.len amount)) ((pkt.data.drop pkt.off).take (min pkt.len amount))
      (s.setQueue cid (consumed amount pkt tail)) := by
  have hget : pqGet cid s = some (pkt, s.setQueue cid tail) := by rw [pqGet, h]
  rw [stepPqRecv, hget]
  dsimp only
  by_cases hle : pkt.len ≤ amount
  · rw [if_pos hle, consumed, if_pos hle, min_eq_left hle]
  · rw [if_neg hle, consumed, if_neg hle, min_eq_right (Nat.le_of_not_le hle), pqPutHead, setQueue_queue_self,
      setQueue_setQueue]

end

/-- Settles O39: the guard and the step both look at the queue first. -/
theorem pqRecvConsumesHeadPacket : Obligations.PqRecvConsumesHeadPacket := by
  intro s p accept rest cid amount t hs hop
  have hguard := cliEnabled_pqrecv (s := { s with script := rest }) hop
  have hstep := cliStep_pqrecv (s := { s with script := rest }) hop accept
  refine ⟨fun hq ht => ?_, fun hq ht => ?_, fun pkt tail hq => ?_⟩
  · rw [step_cli_enabled hs (hguard.2 (.inr ht)), hstep, stepPqRecv_empty (s := { s with script := rest }) hq]
    rfl
  · exact step_cli_blocked hs fun hen => (hguard.1 hen).elim (absurd hq) ht
  · have hne : s.queue cid ≠ [] := by simp [hq]
    rw [step_cli_enabled hs (hguard.2 (.inl hne)), hstep, stepPqRecv_head (s := { s with script := rest }) hq]
    refine ⟨_, rfl, fun c hc => ?_, ?_, ?_⟩
    · rw [complete_queue, setQueue_queue_other cid c _ _ hc]
      rfl
    · rw [complete_queue, setQueue_queue_self]
      rfl
    · rw [complete_eq, resultWord_ok_append]
      rfl

/-! ### DISP.PUT (R215) -/

/-- Waiting to put, the dispatcher puts as soon as there is room. -/
theorem step_dispPut {s : State} {rest : List Action} (hs : s.script = .disp :: rest) (hp : s.disp.phase = .putWait)
    (hroom : (s.queue s.disp.fCid).length < 5) : step s = .next (dispPut { s with script := rest }) := by
  rw [step_disp hs, if_pos ((dispEnabled_putWait (s := { s with script := rest }) hp).2 hroom), dispStep]
  simp only [hp]

section
variable {s : State}

/-- The packet of the frame registers, of which nothing is consumed. -/
def framePacket (d : Disp) : Packet := { cid := d.fCid, data := d.fBuf, off := 0, len := d.fLen }

theorem dispPut_queue_self : (dispPut s).queue s.disp.fCid = s.queue s.disp.fCid ++ [framePacket s.disp] :=
  pqPut_queue_self s.disp.fCid (framePacket s.disp) s

theorem dispPut_queue_other {c : BitVec 4} (hc : c ≠ s.disp.fCid) : (dispPut s).queue c = s.queue c :=
  setQueue_queue_other s.disp.fCid c _ s hc

theorem dispPut_eq : dispPut s =
    { s with q := (dispPut s).q, disp := { s.disp with fHdr := [], fBuf := [], phase := .scan } } := rfl

end

/-- Settles O46: the guard is room in the queue. -/
theorem putAppendsUnreadPacket : Obligations.PutAppendsUnreadPacket := by
  intro s rest hs hp
  refine ⟨fun hfull => blockedDispatcherTakesNoStep s rest hs (.inr (.inl ⟨hp, hfull⟩)), fun hroom => ?_⟩
  exact ⟨_, step_dispPut hs hp hroom, dispPut_queue_self, fun c hc => dispPut_queue_other hc, dispPut_eq⟩

/-! ### No byte is lost (R219) -/

theorem queueBytes_cons (pkt : Packet) (l : List Packet) :
    queueBytes (pkt :: l) = (pkt.data.drop pkt.off).take pkt.len ++ queueBytes l := rfl

theorem queueBytes_append (l l' : List Packet) : queueBytes (l ++ l') = queueBytes l ++ queueBytes l' := List.flatMap_append

/-- The bytes that are delivered, and then those that are left, are those that were there. -/
theorem delivered_append_consumed (amount : Nat) (pkt : Packet) (tail : List Packet) :
    (pkt.data.drop pkt.off).take (min pkt.len amount) ++ queueBytes (consumed amount pkt tail) = queueBytes (pkt :: tail) := by
  rw [consumed, queueBytes_cons]
  split
  · rename_i hle
    rw [min_eq_left hle]
  · rename_i hlt
    have hle : amount ≤ pkt.len := Nat.le_of_not_le hlt
    rw [min_eq_right hle, queueBytes_cons, ← List.append_assoc, ← List.drop_drop, ← List.take_add, Nat.add_sub_cancel' hle]

/-- A delivery appends its response. -/
theorem resps_of_delivered {s u : State} {p : Nat} (hp : p < s.ports.length) {res : Word} {data : List Byte}
    (h : u.ports = delivered s p res data) : (u.port p).resps = (s.port p).resps ++ [{ res := res, data := data }] := by
  rw [State.port, h]
  exact congrArg Port.resps (modifyPort_port_self p _ s hp)

/-- Settles O40, from what the two steps do to the queue. -/
theorem pqRecvLosesNoByte : Obligations.PqRecvLosesNoByte := by
  intro s _
  refine ⟨fun p accept rest cid amount t hs hop hne => ?_, fun rest hs hp hlen hroom => ?_⟩
  · obtain ⟨pkt, tail, hq⟩ := List.exists_cons_of_ne_nil hne
    obtain ⟨-, -, hpacket⟩ := pqRecvConsumesHeadPacket s p accept rest cid amount t hs hop
    obtain ⟨u, hstep, -, hleft, hu⟩ := hpacket pkt tail hq
    have hp : p < s.ports.length := lt_of_op_ne_idle (by simp [hop])
    refine ⟨u, _, hstep, resps_of_delivered hp (congrArg State.ports hu), ?_, ?_⟩
    · rw [hleft, hq]
      exact delivered_append_consumed amount pkt tail
    · exact (List.length_take_le _ _).trans (min_le_right _ _)
  · obtain ⟨-, hput⟩ := putAppendsUnreadPacket s rest hs hp
    obtain ⟨u, hstep, hqueue, -, -⟩ := hput hroom
    refine ⟨u, hstep, ?_⟩
    rw [hqueue, queueBytes_append, queueBytes_cons, ← hlen, List.drop_zero, List.take_length]
    exact congrArg _ (List.append_nil _)

/-! ### A short read (R216) -/

section
variable {s : State}

theorem step_dispHdr {rest : List Action} (hs : s.script = .disp :: rest) (hp : s.disp.phase = .hdr)
    (hready : s.rx.count ≠ 0 ∨ s.disp.t = 0) : step s = .next (dispHdr { s with script := rest }) := by
  rw [step_disp hs, if_pos ((dispEnabled_reading (s := { s with script := rest }) (.inl hp)).2 hready), dispStep]
  simp only [hp]

theorem step_dispPayload {rest : List Action} (hs : s.script = .disp :: rest) (hp : s.disp.phase = .payload)
    (hready : s.rx.count ≠ 0 ∨ s.disp.t = 0) : step s = .next (dispPayload { s with script := rest }) := by
  rw [step_disp hs, if_pos ((dispEnabled_reading (s := { s with script := rest }) (.inr hp)).2 hready), dispStep]
  simp only [hp]

theorem frameAbort_eq : frameAbort s =
    { s with status := s.status ||| 8, disp := { s.disp with fHdr := [], fBuf := [], phase := .scan } } := rfl

theorem dispHdr_empty (hc : s.rx.count = 0) : dispHdr s = frameAbort s := by
  rw [dispHdr, rbPop_of_empty (sel := .rx) hc]

theorem dispPayload_empty (hc : s.rx.count = 0) : dispPayload s = frameAbort s := by
  rw [dispPayload, rbPop_of_empty (sel := .rx) hc]

end

/-- Settles O45: without a byte both reads give the frame up. -/
theorem shortReadAbandonsFrame : Obligations.ShortReadAbandonsFrame := by
  intro s rest hs hp hc ht
  rcases hp with hp | hp
  · rw [step_dispHdr hs hp (.inr ht), dispHdr_empty (s := { s with script := rest }) hc, frameAbort_eq]
  · rw [step_dispPayload hs hp (.inr ht), dispPayload_empty (s := { s with script := rest }) hc, frameAbort_eq]

/-! ### A byte of a frame (R213, R214) -/

section
variable {s : State}

/-- The packet is complete: PQ_STALL is set if its queue is full. -/
theorem packetReady_eq : packetReady s = { s with
    disp := { s.disp with phase := .putWait }
    status := if (s.queue s.disp.fCid).length = 5 then s.status ||| 16 else s.status } := by
  have hstall : (if s.queueFull s.disp.fCid = true then setFlag .pqStall s else s) =
      { s with status := if (s.queue s.disp.fCid).length = 5 then s.status ||| 16 else s.status } := by
    by_cases hfull : (s.queue s.disp.fCid).length = 5
    · have hflag : s.queueFull s.disp.fCid = true := decide_eq_true hfull
      rw [if_pos hflag, if_pos hfull]
      rfl
    · have hflag : ¬ s.queueFull s.disp.fCid = true := fun h => hfull (of_decide_eq_true h)
      rw [if_neg hflag, if_neg hfull]
  rw [packetReady, hstall]

/-- A header that is not valid sets FRAME_BAD. -/
theorem judgeHeader_bad (h : headerRead s.cfg.pktMax s.disp.fHdr = none) :
    judgeHeader s = { s with disp := { s.disp with phase := .scan }, status := s.status ||| 4 } := by
  rw [judgeHeader, h]
  rfl

variable {cid : BitVec 4} {len : Nat}

/-- A frame without payload is complete with its header. -/
theorem judgeHeader_empty (h : headerRead s.cfg.pktMax s.disp.fHdr = some (cid, len)) (hlen : len = 0) :
    judgeHeader s = packetReady { s with disp := { s.disp with fCid := cid, fLen := len, fBuf := [] } } := by
  rw [judgeHeader, h]
  exact if_pos hlen

/-- Any other frame goes on with its payload. -/
theorem judgeHeader_payload (h : headerRead s.cfg.pktMax s.disp.fHdr = some (cid, len)) (hlen : len ≠ 0) :
    judgeHeader s = { s with disp := { s.disp with fCid := cid, fLen := len, fBuf := [], phase := .payload } } := by
  rw [judgeHeader, h]
  exact if_neg hlen

/-- The state in which a header byte has been taken. -/
def hdrTaken (s : State) : State :=
  { popRx s with disp := { s.disp with fHdr := s.disp.fHdr ++ [memRead s.rx.store s.rx.tail], t := timerLoad s } }

/-- The state in which a payload byte has been taken. -/
def bufTaken (s : State) : State :=
  { popRx s with disp := { s.disp with fBuf := s.disp.fBuf ++ [memRead s.rx.store s.rx.tail], t := timerLoad s } }

theorem dispHdr_byte (hc : s.rx.count ≠ 0) :
    dispHdr s = if (hdrTaken s).disp.fHdr.length = 5 then judgeHeader (hdrTaken s) else hdrTaken s := by
  rw [dispHdr, rbPop_rx hc]
  rfl

theorem dispPayload_byte (hc : s.rx.count ≠ 0) :
    dispPayload s = if (bufTaken s).disp.fBuf.length = s.disp.fLen then packetReady (bufTaken s) else bufTaken s := by
  rw [dispPayload, rbPop_rx hc]
  rfl

end

/-- Settles O43: the fifth byte completes the header, and `header_ok` in numbers judges it. -/
theorem headerBytesAreReadThenJudged : Obligations.HeaderBytesAreReadThenJudged := by
  intro s rest hs hp hc hdr d popped
  rw [step_dispHdr hs hp (.inl hc), dispHdr_byte (s := { s with script := rest }) hc]
  refine ⟨fun hlt => congrArg _ (if_neg (Nat.ne_of_lt hlt)), fun c d3 d2 d1 d0 hfive => ?_⟩
  obtain ⟨u, hu⟩ : ∃ u, u = hdrTaken { s with script := rest } := ⟨_, rfl⟩
  have hhdr : u.disp.fHdr = [c, d3, d2, d1, d0] := hu ▸ hfive
  have hjudged : u.disp.fHdr.length = 5 := congrArg List.length hhdr
  have hread : headerRead u.cfg.pktMax u.disp.fHdr = headerRead s.cfg.pktMax [c, d3, d2, d1, d0] := by
    rw [hhdr, hu]
    rfl
  obtain ⟨hnumbers, -⟩ := bulkHeaderRoundTrip s.cfg.pktMax
  obtain ⟨hvalid, hinvalid⟩ := hnumbers c d3 d2 d1 d0
  intro hex dec len cid d'
  rw [← hu, if_pos hjudged]
  refine ⟨fun hok => ⟨fun hlen => ?_, fun hlen => ?_⟩, fun hbad => ?_⟩
  · rw [judgeHeader_payload (hread.trans (hvalid hok)) hlen, hu]
    rfl
  · rw [judgeHeader_empty (hread.trans (hvalid hok)) hlen, packetReady_eq, hu]
    rfl
  · rw [judgeHeader_bad (hread.trans (hinvalid hbad)), hu]
    rfl

/-- Settles O44: the byte is the last one iff the length is reached with it. -/
theorem payloadBytesAreCollected : Obligations.PayloadBytesAreCollected := by
  intro s rest hs hp hc buf d popped
  rw [step_dispPayload hs hp (.inl hc), dispPayload_byte (s := { s with script := rest }) hc]
  refine ⟨fun hne => congrArg _ (if_neg hne), fun hfull => ?_⟩
  exact congrArg _ ((if_pos hfull).trans packetReady_eq)

end Sys2Proof.Machine
end

section
/-! PROOF. A whole bulk frame (R223): its bytes arrive, the dispatcher takes them one by one, and the packet is put. -/

namespace Sys2Proof.Machine

/-! ### Bytes that arrive and are taken -/

/-- The arrival of bytes, as one choice. -/
theorem perform_rx (bytes : List Byte) (s : State) : perform (.rx bytes) s = rxBytes bytes s := by
  obtain ⟨u, hu⟩ : ∃ u, u = { s with script := .rx bytes :: s.script } := ⟨_, rfl⟩
  have hs : u.script = .rx bytes :: s.script := hu ▸ rfl
  have hrest : { u with script := s.script } = s := hu ▸ rfl
  have hstep : step u = .next (rxBytes bytes s) := by
    cases hd : decode (.wire bytes) with
    | none => rw [step_of_script_none hs hd, hrest, agentStep]
    | some i => rw [step_of_script_some hs hd, hrest, deliver, exec_of_decode_wire hd]
  rw [perform, ← hu, hstep]

/-- A choice that is taken at once. -/
theorem perform_of_step {a : Action} {s t : State} (h : step { s with script := a :: s.script } = .next t) : perform a s = t := by
  rw [perform, h]

/-- `u` differs from `s` in the RX ring, whose unread bytes are `bytes`, in the cursors, now `curs`, and in the dispatcher's registers, now `d`. -/
structure Unread (s : State) (bytes : List Byte) (curs : List Nat) (d : Disp) (u : State) : Prop where
  ring : RingInv s.cfg.rxN u.rx
  live : u.rx.live s.cfg.rxN = bytes
  eq : u = { s with rx := u.rx, mcur := curs, disp := d }

/-- Bytes for which there is room arrive in order, and nothing else happens. -/
theorem rxBytes_unread {s : State} {bytes : List Byte} (hr : RingInv s.cfg.rxN s.rx) (hempty : s.rx.count = 0)
    (hroom : bytes.length ≤ s.cfg.rxN) : Unread s bytes s.mcur s.disp (rxBytes bytes s) := by
  have hfits : s.rx.count + bytes.length ≤ s.cfg.rxN := by omega
  have hlive : (bytes.foldl (Ring.push s.cfg.rxN) s.rx).live s.cfg.rxN = bytes := by
    rw [pushes_live hr hfits, List.length_eq_zero_iff.1 ((length_live _ _).trans hempty), List.nil_append]
  obtain ⟨st, heq, ⟨rfl, -⟩ | ⟨-, k, hk, hfull⟩⟩ := rxBytes_eq bytes s
  · rw [heq]
    exact ⟨hr.pushes bytes, hlive, rfl⟩
  · exact absurd hfull (pushes_not_full hfits hk)

/-- The reference registration (R5): the marker `1B 5A` begins a bulk frame. -/
def bulkOnly : List Registration := [{ pat := [0x1B, 0x5A], handler := .bulk }]

/-- Half the marker is claimed by the one cursor, so nothing is released. -/
theorem scanMiss_marker (s : State) :
    scanMiss [1] [0x1B] s = { s with mcur := [1], disp := { s.disp with hold := [0x1B] } } := rfl

/-- The whole marker releases nothing, and the bulk handler begins a frame. -/
theorem scanHit_marker {s : State} (hreg : s.cfg.reg = bulkOnly) : scanHit 0 [0x1B, 0x5A] s = { s with
    mcur := s.mcur.map fun _ => 0
    disp := { s.disp with hold := [], fHdr := [], fBuf := [], t := timerLoad s, phase := .hdr } } := by
  have hr : s.cfg.reg[0]? = some { pat := [0x1B, 0x5A], handler := .bulk } := by
    rw [hreg]
    rfl
  have hscan : scanHit 0 [0x1B, 0x5A] s = invoke 0 { s with mcur := s.mcur.map fun _ => 0, disp := { s.disp with hold := [] } } := by
    rw [scanHit, patternLen, hr]
    rfl
  obtain ⟨hevents, hdisp⟩ := invoke_bulk
    (s := { s with mcur := s.mcur.map fun _ => 0, disp := { s.disp with hold := [] } }) hr rfl
  rw [hscan, invoke_eq, hevents, hdisp]
  rfl

namespace Unread

variable {s u : State} {b : Byte} {bytes : List Byte} {curs : List Nat} {d : Disp}

theorem cfg (h : Unread s bytes curs d u) : u.cfg = s.cfg := (congrArg State.cfg h.eq :)
theorem mcur (h : Unread s bytes curs d u) : u.mcur = curs := congrArg State.mcur h.eq
theorem disp (h : Unread s bytes curs d u) : u.disp = d := congrArg State.disp h.eq
theorem queue (h : Unread s bytes curs d u) (c : BitVec 4) : u.queue c = s.queue c := (congrArg (State.queue · c) h.eq :)
theorem load (h : Unread s bytes curs d u) : timerLoad u = timerLoad s := (congrArg timerLoad h.eq :)

theorem matched (h : Unread s bytes curs d u) (curs' : List Nat) (d' : Disp) :
    Unread s bytes curs' d' { u with mcur := curs', disp := d' } :=
  ⟨h.ring, h.live, congrArg (fun v : State => { v with mcur := curs', disp := d' }) h.eq⟩

theorem withDisp (h : Unread s bytes curs d u) (d' : Disp) : Unread s bytes curs d' { u with disp := d' } :=
  ⟨h.ring, h.live, congrArg (fun v : State => { v with disp := d' }) h.eq⟩

/-- What a pop of RX does to a ring with unread bytes. -/
theorem ring_pop (h : Unread s (b :: bytes) curs d u) : Ring.pop s.cfg.rxN u.rx = some (b, (popRx u).rx) := by
  have hc : u.rx.count ≠ 0 := by
    rw [← length_live s.cfg.rxN, h.live]
    exact Nat.succ_ne_zero _
  have hpop : Ring.pop s.cfg.rxN u.rx = some (memRead u.rx.store u.rx.tail, (popRx u).rx) :=
    ringPop_eq_some.2 ⟨hc, rfl, by rw [popRx, h.cfg]⟩
  obtain ⟨hb, -⟩ := List.cons.inj (h.live.symm.trans (pop_live h.ring hpop))
  rw [hpop, hb]

theorem count (h : Unread s (b :: bytes) curs d u) : u.rx.count ≠ 0 := (ringPop_eq_some.1 h.ring_pop).1

theorem oldest (h : Unread s (b :: bytes) curs d u) : memRead u.rx.store u.rx.tail = b :=
  (ringPop_eq_some.1 h.ring_pop).2.1.symm

/-- The oldest of the unread bytes is taken. -/
theorem popped (h : Unread s (b :: bytes) curs d u) : Unread s bytes curs d (popRx u) where
  ring := h.ring.pop h.ring_pop
  live := (List.cons.inj ((pop_live h.ring h.ring_pop).symm.trans h.live)).2
  eq := congrArg (fun v : State => { v with rx := (popRx u).rx }) h.eq

/-! ### The marker -/

/-- The first byte of the marker is held. -/
theorem marker_first (h : Unread s (0x1B :: bytes) [0] d u) (hreg : s.cfg.reg = bulkOnly) (hp : d.phase = .scan) (hh : d.hold = []) :
    Unread s bytes [1] { d with hold := [0x1B] } (perform .disp u) := by
  have hfed : feedAll u.cfg.reg u.mcur (memRead u.rx.store u.rx.tail) = [(1, false)] := by
    rw [h.cfg, h.mcur, h.oldest, hreg]
    decide
  have hstep : perform .disp u = scanMiss [1] [0x1B] (popRx u) := by
    rw [perform_of_step (step_dispScan rfl (h.disp ▸ hp) h.count), dispScan_miss h.count (by rw [hfed]; decide), hfed, h.disp, hh,
      h.oldest]
    rfl
  rw [hstep, scanMiss_marker, h.popped.disp]
  exact h.popped.matched _ _

/-- The second byte of the marker begins the frame. -/
theorem marker_second (h : Unread s (0x5A :: bytes) [1] d u) (hreg : s.cfg.reg = bulkOnly) (hp : d.phase = .scan)
    (hh : d.hold = [0x1B]) : Unread s bytes [0]
      { d with hold := [], fHdr := [], fBuf := [], t := timerLoad s, phase := .hdr } (perform .disp u) := by
  have hfed : feedAll u.cfg.reg u.mcur (memRead u.rx.store u.rx.tail) = [(0, true)] := by
    rw [h.cfg, h.mcur, h.oldest, hreg]
    decide
  have hstep : perform .disp u = scanHit 0 [0x1B, 0x5A] (popRx u) := by
    rw [perform_of_step (step_dispScan rfl (h.disp ▸ hp) h.count), dispScan_hit (w := 0) h.count (by rw [hfed]; rfl), h.disp, hh,
      h.oldest]
    rfl
  rw [hstep, scanHit_marker (h.popped.cfg ▸ hreg), h.popped.mcur, h.popped.disp, h.popped.load]
  exact h.popped.matched _ _

/-! ### The header and the payload -/

theorem hdrTaken (h : Unread s (b :: bytes) curs d u) :
    Unread s bytes curs { d with fHdr := d.fHdr ++ [b], t := timerLoad s } (hdrTaken u) := by
  rw [Machine.hdrTaken, h.disp, h.oldest, h.load]
  exact h.popped.withDisp _

theorem bufTaken (h : Unread s (b :: bytes) curs d u) :
    Unread s bytes curs { d with fBuf := d.fBuf ++ [b], t := timerLoad s } (bufTaken u) := by
  rw [Machine.bufTaken, h.disp, h.oldest, h.load]
  exact h.popped.withDisp _

/-- A complete packet that finds room sets no flag. -/
theorem packetReady (h : Unread s bytes curs d u) (hroom : (s.queue d.fCid).length < 5) :
    Unread s bytes curs { d with phase := .putWait } (packetReady u) := by
  have hnot : ¬ (u.queue u.disp.fCid).length = 5 := by
    rw [h.disp, h.queue]
    exact Nat.ne_of_lt hroom
  rw [packetReady_eq, if_neg hnot, h.disp]
  exact h.withDisp _

variable {cid : BitVec 4} {len : Nat}

/-- A valid header is followed by its payload, if it has one. -/
theorem judgeHeader (h : Unread s bytes curs d u) (hread : headerRead s.cfg.pktMax d.fHdr = some (cid, len))
    (hroom : (s.queue cid).length < 5) : Unread s bytes curs
      { d with fCid := cid, fLen := len, fBuf := [], phase := if len = 0 then .putWait else .payload } (judgeHeader u) := by
  have hread' : headerRead u.cfg.pktMax u.disp.fHdr = some (cid, len) := by rw [h.cfg, h.disp, hread]
  by_cases hlen : len = 0
  · rw [judgeHeader_empty hread' hlen, if_pos hlen, h.disp]
    exact (h.withDisp { d with fCid := cid, fLen := len, fBuf := [] }).packetReady hroom
  · rw [judgeHeader_payload hread' hlen, if_neg hlen, h.disp]
    exact h.withDisp _

/-- The rest of a valid header, one byte per step. -/
theorem header {hdr : List Byte} (h : Unread s (hdr ++ bytes) curs d u) (hp : d.phase = .hdr) (hne : hdr ≠ [])
    (hfive : (d.fHdr ++ hdr).length = 5) (hread : headerRead s.cfg.pktMax (d.fHdr ++ hdr) = some (cid, len))
    (hroom : (s.queue cid).length < 5) : Unread s bytes curs
      { d with fHdr := d.fHdr ++ hdr, t := timerLoad s, fCid := cid, fLen := len, fBuf := [],
               phase := if len = 0 then .putWait else .payload }
      (performAll (List.replicate hdr.length .disp) u) := by
  induction hdr generalizing d u with
  | nil => exact absurd rfl hne
  | cons b hdr ih =>
    have htaken := h.hdrTaken
    have hstep : perform .disp u = dispHdr u := perform_of_step (step_dispHdr rfl (h.disp ▸ hp) (.inl h.count))
    rw [List.length_cons, List.replicate_succ, performAll_cons, hstep, dispHdr_byte h.count, htaken.disp]
    cases hdr with
    | nil =>
      rw [if_pos hfive]
      exact htaken.judgeHeader hread hroom
    | cons b' hdr =>
      have hmore : (d.fHdr ++ [b]).length ≠ 5 := by
        simp only [List.length_append, List.length_cons, List.length_nil] at hfive ⊢
        omega
      rw [List.append_cons] at hfive hread ⊢
      rw [if_neg hmore]
      exact ih htaken hp (List.cons_ne_nil _ _) hfive hread

/-- The rest of a payload, the last of the unread bytes, one byte per step. -/
theorem payload {buf : List Byte} (h : Unread s buf curs d u) (hp : d.phase = .payload) (hne : buf ≠ [])
    (hlen : (d.fBuf ++ buf).length = d.fLen) (hroom : (s.queue d.fCid).length < 5) :
    Unread s [] curs { d with fBuf := d.fBuf ++ buf, t := timerLoad s, phase := .putWait }
      (performAll (List.replicate buf.length .disp) u) := by
  induction buf generalizing d u with
  | nil => exact absurd rfl hne
  | cons b buf ih =>
    have htaken := h.bufTaken
    have hstep : perform .disp u = dispPayload u := perform_of_step (step_dispPayload rfl (h.disp ▸ hp) (.inl h.count))
    rw [List.length_cons, List.replicate_succ, performAll_cons, hstep, dispPayload_byte h.count, htaken.disp, h.disp]
    cases buf with
    | nil =>
      rw [if_pos hlen]
      exact htaken.packetReady hroom
    | cons b' buf =>
      have hmore : (d.fBuf ++ [b]).length ≠ d.fLen := by
        simp only [List.length_append, List.length_cons, List.length_nil] at hlen ⊢
        omega
      rw [List.append_cons] at hlen ⊢
      rw [if_neg hmore]
      exact ih htaken hp (List.cons_ne_nil _ _) hlen hroom

/-- A valid header and its payload leave a complete packet in the frame registers. -/
theorem frame {hdr buf : List Byte} (h : Unread s (hdr ++ buf) curs d u) (hp : d.phase = .hdr) (hd : d.fHdr = [])
    (hfive : hdr.length = 5) (hread : headerRead s.cfg.pktMax hdr = some (cid, buf.length)) (hroom : (s.queue cid).length < 5) :
    Unread s [] curs { d with fHdr := hdr, t := timerLoad s, fCid := cid, fLen := buf.length, fBuf := buf, phase := .putWait }
      (performAll (List.replicate (5 + buf.length) .disp) u) := by
  have hhdr : d.fHdr ++ hdr = hdr := by rw [hd, List.nil_append]
  have hjudged := h.header hp (List.ne_nil_of_length_eq_add_one hfive) (hhdr.symm ▸ hfive) (hhdr.symm ▸ hread) hroom
  rw [hhdr, hfive] at hjudged
  rw [List.replicate_add, performAll_append]
  by_cases hbuf : buf = []
  · rw [hbuf] at hjudged ⊢
    exact hjudged
  · rw [if_neg (mt List.length_eq_zero_iff.1 hbuf)] at hjudged
    exact hjudged.payload rfl hbuf rfl hroom

/-- The put. -/
theorem put (h : Unread s bytes curs d u) (hp : d.phase = .putWait) (hroom : (s.queue d.fCid).length < 5) :
    perform .disp u = dispPut u := by
  refine perform_of_step (step_dispPut rfl (h.disp ▸ hp) ?_)
  rw [h.disp]
  exact h.queue d.fCid ▸ hroom

end Unread

/-! ### A whole frame -/

/-- A scanning dispatcher with an empty window has no partial match under the reference registration (R33). -/
theorem Inv.mcur_eq {s : State} (h : Inv s) (hreg : s.cfg.reg = bulkOnly) (hp : s.disp.phase = .scan) (hh : s.disp.hold = []) :
    s.mcur = [0] := by
  have hlen : s.mcur.length = 1 := by rw [h.disp.cursors, hreg]; rfl
  have hmax := h.disp.held hp
  obtain ⟨c, hc⟩ := List.length_eq_one_iff.1 hlen
  rw [hh, hc] at hmax
  rw [hc]
  simpa using hmax.symm

/-- After the marker, the header and the payload a complete packet waits, and the last step puts it. -/
theorem exists_complete_frame {s : State} {hdr payload : List Byte} {cid : BitVec 4} (hinv : Inv s) (hreg : s.cfg.reg = bulkOnly)
    (hp : s.disp.phase = .scan) (hh : s.disp.hold = []) (hempty : s.rx.count = 0) (hfive : hdr.length = 5)
    (hfits : payload.length + 7 ≤ s.cfg.rxN) (hread : headerRead s.cfg.pktMax hdr = some (cid, payload.length))
    (hroom : (s.queue cid).length < 5) :
    ∃ d u, Unread s [] s.mcur d u ∧ d.hold = [] ∧ framePacket d = { cid := cid, data := payload, off := 0, len := payload.length } ∧
      performAll (.rx (0x1B :: 0x5A :: (hdr ++ payload)) :: List.replicate (payload.length + 8) .disp) s = dispPut u := by
  have hbytes : (0x1B :: 0x5A :: (hdr ++ payload)).length ≤ s.cfg.rxN := by
    simp only [List.length_cons, List.length_append, hfive]
    omega
  have hacts : List.replicate (payload.length + 8) Action.disp =
      .disp :: .disp :: (List.replicate (5 + payload.length) .disp ++ [.disp]) := by
    rw [← List.replicate_succ', ← List.replicate_succ, ← List.replicate_succ]
    congr 1
    omega
  have hcurs := hinv.mcur_eq hreg hp hh
  have harrived := rxBytes_unread hinv.rx hempty hbytes
  rw [hcurs] at harrived
  have hframe := ((harrived.marker_first hreg hp hh).marker_second hreg hp rfl).frame rfl rfl hfive hread hroom
  refine ⟨_, _, hcurs ▸ hframe, rfl, rfl, ?_⟩
  rw [hacts, performAll_cons, perform_rx, performAll_cons, performAll_cons, performAll_append]
  exact hframe.put rfl hroom

/-- Settles O47: the marker, the header, the payload, the put. -/
theorem frameBecomesPacketEndToEnd : Obligations.FrameBecomesPacketEndToEnd := by
  intro s c d3 d2 d1 d0 payload cid hinv hreg hp hh hempty hfits hread hroom t
  obtain ⟨d, u, hu, hhold, hpkt, ht⟩ := exists_complete_frame hinv hreg hp hh hempty rfl hfits hread hroom
  have hcid : u.disp.fCid = cid := hu.disp ▸ congrArg Packet.cid hpkt
  have ht : t = dispPut u := ht
  rw [ht, ← hcid]
  refine ⟨?_, fun c' hc => ?_, rfl, ?_, ?_, ?_⟩
  · rw [dispPut_queue_self, hcid, hu.queue, hu.disp, hpkt]
  · rw [dispPut_queue_other hc, hu.queue]
  · exact (congrArg Disp.hold hu.disp).trans hhold
  · exact (length_live _ _).symm.trans (congrArg List.length hu.live)
  · exact congrArg (fun v : State => { v with disp := (dispPut u).disp, q := (dispPut u).q }) hu.eq

end Sys2Proof.Machine
end

section
/-! PROOF. The status and event operations (R240, R241), and the transition relation of the dispatcher's phase (R244). -/

namespace Sys2Proof.Machine

/-! ### SYS.RDSTAT and SYS.RDEVT (R240, R241) -/

theorem exec_sysRdstat (s : State) : exec .sysRdstat s = execSysRdstat s := rfl
theorem exec_sysRdevt (s : State) : exec .sysRdevt s = execSysRdevt s := rfl

/-- A completion on the ready port, after a change that left the ports alone, leaves the port ready for the next request. -/
theorem Ready.complete {s u : State} (hr : Ready s) (hcur : u.cur = s.cur) (hports : u.ports = s.ports) (st : StatusCode) (val : Half)
    (data : List Byte) : Ready (complete s.cur st val data u) := by
  have hlt : s.cur < u.ports.length := hports ▸ hr.1
  refine ⟨?_, ?_⟩
  · rwa [complete_cur, hcur, complete_ports, List.length_modify]
  · rw [complete_cur, hcur, complete_port hlt]

/-- On a ready port the flags are answered and kept. -/
theorem exec_sysRdstat_of_ready {s : State} (hr : Ready s) :
    exec .sysRdstat s = .next { s with ports := delivered s s.cur (s.status.setWidth 32) [] } := by
  rw [exec_sysRdstat, execSysRdstat, issueOn_of_ready hr, complete_ok rfl]

/-- On a ready port the events are answered and cleared. -/
theorem exec_sysRdevt_of_ready {s : State} (hr : Ready s) :
    exec .sysRdevt s = .next { s with events := 0, ports := delivered s s.cur (s.events.setWidth 32) [] } := by
  rw [exec_sysRdevt, execSysRdevt, issueOn_of_ready hr]
  exact congrArg _ (complete_ok rfl _ _)

/-- Settles O31: the first read leaves the port ready and no event set, and the second one reads that. -/
theorem statusAndEventReads : Obligations.StatusAndEventReads := by
  refine ⟨rfl, rfl, fun s hr => ⟨exec_sysRdstat_of_ready hr, exec_sysRdevt_of_ready hr, fun t ht => ?_⟩⟩
  obtain ⟨-, rfl⟩ := issueOn_next (show execSysRdevt s = _ from ht)
  have hready := hr.complete (u := { s with events := 0 }) rfl rfl .ok s.events []
  exact ⟨_, exec_sysRdevt_of_ready hready, rfl⟩

/-! ### What leaves the dispatcher's registers alone (R265) -/

theorem rbPush_disp (sel : RingSel) (b : Byte) (s : State) : (rbPush sel b s).disp = s.disp := by
  rw [rbPush_eq]
  cases sel <;> rfl

theorem rbPop_disp {sel : RingSel} {b : Byte} {s t : State} (h : rbPop sel s = some (b, t)) : t.disp = s.disp := by
  obtain ⟨-, -, rfl⟩ := rbPop_eq_some h
  exact setRing_disp _ _ _

theorem rbRewind_disp {sel : RingSel} {k : Nat} {s t : State} (h : rbRewind sel k s = some t) : t.disp = s.disp := by
  obtain ⟨r, -, rfl⟩ := rbRewind_eq_some h
  exact setRing_disp _ _ _

theorem rxBytes_disp (bytes : List Byte) (s : State) : (rxBytes bytes s).disp = s.disp := by
  obtain ⟨st, h, -⟩ := rxBytes_eq bytes s
  rw [h]

/-- Two ends of a step that have the same dispatcher. -/
theorem ite_disp {c : Prop} [Decidable c] {s t : State} {d : Disp} (hs : s.disp = d) (ht : t.disp = d) :
    (if c then s else t).disp = d := by
  split
  · exact hs
  · exact ht

/-- An issue step has the dispatcher of its effect. -/
theorem issueOn_disp {s t : State} {f : Nat → State} {d : Disp} (h : issueOn s f = .next t) (hf : (f s.cur).disp = d) :
    t.disp = d := by
  obtain ⟨-, rfl⟩ := issueOn_next h
  exact hf

/-- No instruction touches the dispatcher: an operation's issue step works on a ring, a queue, a register or its port, and a wire
format only arrives. -/
theorem exec_disp {i : Instr} {s t : State} (h : exec i s = .next t) : t.disp = s.disp := by
  unfold exec at h
  cases i with
  | rbPush sel b => exact issueOn_disp h (rbPush_disp sel b s)
  | rbPop sel =>
    refine issueOn_disp h ?_
    split
    · rfl
    · rename_i b u hpop
      exact (rbPop_disp hpop :)
  | rbRewind sel k =>
    refine issueOn_disp h ?_
    split
    · rfl
    · rename_i u hrew
      exact (rbRewind_disp hrew :)
  | smLoad pat => exact issueOn_disp h (ite_disp rfl rfl)
  | smFeed b => exact issueOn_disp h (ite_disp rfl rfl)
  | chRecv token => exact issueOn_disp h (ite_disp rfl rfl)
  | chReadtill limit delim => exact issueOn_disp h (ite_disp (ite_disp rfl rfl) rfl)
  | bdSend cid data => exact issueOn_disp h (ite_disp rfl rfl)
  | rbEmpty | rbGetc | chSend | chSetto | pqRecv | pqFlush | sysRdstat | sysRdevt => exact issueOn_disp h rfl
  | wireBulkFrame c d3 d2 d1 d0 payload =>
    cases h
    exact rxBytes_disp _ s
  | wireDataAccepted =>
    cases h
    exact rxBytes_disp _ s

section
variable (p : Nat) (s : State)

theorem stepGetc_disp (sel : RingSel) : (stepGetc p sel s).disp = s.disp := by
  unfold stepGetc
  split
  · rename_i b u hpop
    exact (rbPop_disp hpop :)
  · rfl

theorem stepEmit_disp (str : List Byte) (i : Nat) (bulk : Bool) (n : Nat) (accept : Bool) :
    (stepEmit p str i bulk n accept s).disp = s.disp := by
  unfold stepEmit
  split
  · exact ite_disp rfl rfl
  · exact ite_disp rfl rfl

theorem stepPull_disp (t : Nat) (timeoutVal okVal : Half) : (stepPull p t timeoutVal okVal s).disp = s.disp := by
  refine ite_disp rfl ?_
  split
  · rfl
  · rename_i b u hpop
    have hu := rbPop_disp hpop
    exact ite_disp hu hu

theorem stepReadtill_disp (limit : Nat) (out : List Byte) (t : Nat) : (stepReadtill p limit out t s).disp = s.disp := by
  refine ite_disp rfl ?_
  split
  · rfl
  · rename_i b u hpop
    have hu := rbPop_disp hpop
    exact ite_disp hu (ite_disp hu hu)

theorem stepPqRecv_disp (cid : BitVec 4) (amount : Nat) : (stepPqRecv p cid amount s).disp = s.disp := by
  unfold stepPqRecv
  split
  · rfl
  · rename_i pkt u hget
    obtain ⟨rest, -, rfl⟩ := pqGet_eq_some hget
    exact ite_disp rfl rfl

/-- No progress step of a client touches the dispatcher. -/
theorem cliStep_disp (accept : Bool) : (cliStep p accept s).disp = s.disp := by
  unfold cliStep
  split
  · rfl
  · exact stepGetc_disp p s _
  · rfl
  · exact stepEmit_disp p s _ _ _ _ _
  · exact stepPull_disp p s _ _ _
  · exact stepReadtill_disp p s _ _ _
  · exact stepPqRecv_disp p s _ _
  · exact stepPull_disp p s _ _ _

end

/-! ### The phase after a step of the dispatcher (R174, R213 to R216) -/

/-- A handler begins a frame or leaves the phase as it is (R177, R178). -/
theorem invoke_phase (w : Nat) (s : State) : (invoke w s).disp.phase = s.disp.phase ∨ (invoke w s).disp.phase = .hdr := by
  unfold invoke
  split
  · exact .inl rfl
  · split
    · exact .inl rfl
    · exact .inr rfl

/-- A scan that hits leaves the phase to the handler (R174, R176). -/
theorem scanHit_phase (w : Nat) (win : List Byte) (s : State) :
    (scanHit w win s).disp.phase = s.disp.phase ∨ (scanHit w win s).disp.phase = .hdr := by
  have hrel : (release (win.take (win.length - patternLen s w)) s).disp.phase = s.disp.phase := by rw [release_disp]
  rw [← hrel]
  exact invoke_phase w _

theorem scanMiss_phase (curs : List Nat) (win : List Byte) (s : State) : (scanMiss curs win s).disp.phase = s.disp.phase :=
  (congrArg Disp.phase (release_disp (win.take (win.length - maxCur curs)) s) :)

/-- A scan keeps the phase or begins a frame (R174). -/
theorem dispScan_phase (s : State) : (dispScan s).disp.phase = s.disp.phase ∨ (dispScan s).disp.phase = .hdr := by
  unfold dispScan
  split
  · exact .inl rfl
  · rename_i b u hpop
    rw [← rbPop_disp hpop]
    dsimp only
    split
    · exact scanHit_phase _ _ u
    · exact .inl (scanMiss_phase _ _ u)

theorem packetReady_phase (s : State) : (packetReady s).disp.phase = .putWait := by rw [packetReady_eq]

/-- A read of the payload goes on, ends the frame or abandons it (R214, R216). -/
theorem dispPayload_phase (s : State) : (dispPayload s).disp.phase = s.disp.phase ∨ (dispPayload s).disp.phase = .putWait ∨
    (dispPayload s).disp.phase = .scan := by
  by_cases hc : s.rx.count = 0
  · rw [dispPayload_empty hc]
    exact .inr (.inr rfl)
  · rw [dispPayload_byte hc]
    split
    · exact .inr (.inl (packetReady_phase _))
    · exact .inl rfl

/-- The arrows of R244 that change the phase. -/
def PhaseArrow (old new : Phase) : Prop :=
  old = .scan ∧ new = .hdr ∨ old = .hdr ∧ new = .payload ∨ old = .hdr ∧ new = .putWait ∨ old = .hdr ∧ new = .scan ∨
    old = .payload ∧ new = .putWait ∨ old = .payload ∧ new = .scan ∨ old = .putWait ∧ new = .scan

/-- HDR is left for any other phase (R213, R216). -/
theorem phaseArrow_of_hdr (new : Phase) : new = .hdr ∨ PhaseArrow .hdr new := by cases new <;> simp [PhaseArrow]

/-- The dispatcher's step goes along an arrow of R244, from each phase. -/
theorem dispStep_phase (s : State) : (dispStep s).disp.phase = s.disp.phase ∨ PhaseArrow s.disp.phase (dispStep s).disp.phase := by
  unfold dispStep
  split
  next hp =>
    rcases dispScan_phase s with h | h
    · exact .inl h
    · exact .inr (.inl ⟨hp, h⟩)
  next hp =>
    rw [hp]
    exact phaseArrow_of_hdr _
  next hp =>
    rcases dispPayload_phase s with h | h | h
    · exact .inl h
    · exact .inr (by simp [PhaseArrow, hp, h])
    · exact .inr (by simp [PhaseArrow, hp, h])
  next hp => exact .inr (by simp [PhaseArrow, hp, dispPut])

/-! ### The statement -/

/-- A tick counts, and keeps the phase (R262). -/
theorem tickDisp_phase (d : Disp) : (tickDisp d).phase = d.phase := by
  obtain ⟨t, -, h⟩ := tickDisp_eq d
  rw [h]

/-- Who changes the phase: the dispatcher along an arrow, and reset. -/
theorem Taken.phase {u t : State} {a : Action} (h : Taken u a t) : t.disp.phase = u.disp.phase ∨ a = .reset ∧ t.disp.phase = .scan ∨
    a = .disp ∧ PhaseArrow u.disp.phase t.disp.phase := by
  cases h with
  | idle => exact .inl rfl
  | issue cmd payload ready wf next => exact .inl (congrArg Disp.phase (exec_disp next) :)
  | illegal cmd payload ready => exact .inl rfl
  | rx bytes => exact .inl (congrArg Disp.phase (rxBytes_disp bytes u))
  | disp enabled =>
    rcases dispStep_phase u with hsame | harrow
    · exact .inl hsame
    · exact .inr (.inr ⟨rfl, harrow⟩)
  | cli accept enabled => exact .inl (congrArg Disp.phase (cliStep_disp _ u accept))
  | tick => exact .inl (tickDisp_phase u.disp)
  | reset => exact .inr (.inl ⟨rfl, rfl⟩)

/-- Settles O54, by the outcomes of the environment's choice. -/
theorem phaseTransitionsAreComplete : Obligations.PhaseTransitionsAreComplete := by
  intro s t h
  rw [← advance_disp s]
  exact (step_taken h).phase

end Sys2Proof.Machine
end

section
/-! PROOF. No step stops the block (R250); what a tick counts and what a timer measures (R262, R263); and who writes the dispatcher's state (R265). -/

namespace Sys2Proof.Machine

/-! ### No step stops the block (R250) -/

/-- A fetched instruction is a request on a ready port or a wire format that arrives whole (R100, R110, R111). -/
theorem fetch_eq_some {a : Action} {u : State} {i : Instr} (h : fetch a u = some i) :
    (∃ p cmd payload, a = .issue p cmd payload ∧ portReady p u = true ∧ encode i = .request cmd payload) ∨
      ∃ bytes, a = .rx bytes ∧ decode (.wire bytes) = some i := by
  cases a with
  | issue p cmd payload =>
    simp only [fetch] at h
    split at h
    · rename_i hen
      exact .inl ⟨p, cmd, payload, rfl, ready_of_issueEnabled hen, encode_of_decode_request h⟩
    · cases h
  | rx bytes => exact .inr ⟨bytes, rfl, h⟩
  | disp => cases h
  | cli p accept => cases h
  | tick => cases h
  | reset => cases h

/-- What is fetched is not refused: a request is fetched on a ready port only, and bytes always arrive. -/
theorem exec_of_fetch {a : Action} {u : State} {i : Instr} (h : fetch a u = some i) : ∃ t, exec i (deliver a u) = .next t := by
  rcases fetch_eq_some h with ⟨p, cmd, payload, rfl, hready, henc⟩ | ⟨bytes, rfl, hdec⟩
  · have hr : Ready (deliver (.issue p cmd payload) u) := (portReady_iff p u).1 hready
    obtain ⟨f, hf⟩ := exec_eq_issueOn henc (deliver (.issue p cmd payload) u)
    exact ⟨_, hf.trans (issueOn_of_ready hr f)⟩
  · exact ⟨_, exec_of_decode_wire hdec u⟩

/-- Settles O9, by whether the choice brings in an instruction. -/
theorem everyStepAnswersNext : Obligations.EveryStepAnswersNext := by
  intro s
  cases hf : fetch (nextAction s) (advance s) with
  | none => exact ⟨_, step_of_fetch_none hf⟩
  | some i =>
    rw [step_of_fetch_some hf]
    exact exec_of_fetch hf

/-- A choice that is placed and taken is one step of the block. -/
theorem step_perform (a : Action) (s : State) : step { s with script := a :: s.script } = .next (perform a s) := by
  obtain ⟨t, ht⟩ := everyStepAnswersNext { s with script := a :: s.script }
  rw [ht, perform_of_step ht]

/-! ### TICK (R262) -/

/-- A chosen tick. -/
theorem step_tick {s : State} {rest : List Action} (hs : s.script = .tick :: rest) :
    step s = .next (tickStep { s with script := rest }) := step_of_script_none hs rfl

theorem perform_tick (s : State) : perform .tick s = tickStep s := perform_of_step (step_tick rfl)

/-- A counter that stops at 0 is the subtraction of the natural numbers. -/
theorem countDown_eq (t : Nat) : t - 1 = if 0 < t then t - 1 else t := by split <;> omega

/-- A tick in the dispatcher changes nothing but the read timer. -/
theorem tickDisp_frame (d : Disp) : tickDisp d = { d with t := (tickDisp d).t } := by
  obtain ⟨t, -, h⟩ := tickDisp_eq d
  rw [h]

/-- The read timer counts in phases HDR and PAYLOAD only. -/
theorem tickDisp_t (d : Disp) :
    (tickDisp d).t = if (d.phase = .hdr ∨ d.phase = .payload) ∧ 0 < d.t then d.t - 1 else d.t := by
  unfold tickDisp
  split
  next h => simp [h]
  next h => simpa [h] using countDown_eq d.t
  next h => simpa [h] using countDown_eq d.t
  next h => simp [h]

/-- Settles O48: the dispatcher's timer, and one port's record at a time. -/
theorem tickCountsActiveTimersDown : Obligations.TickCountsActiveTimersDown := by
  intro s rest hs
  have hdisp : (tickStep { s with script := rest }).disp = tickDisp s.disp := rfl
  refine ⟨_, step_tick hs, ?_, tickDisp_t s.disp, List.length_map _, fun p => ?_⟩
  · rw [hdisp, ← tickDisp_frame]
    rfl
  · rw [tickStep_port]
    refine ⟨rfl, rfl, ?_⟩
    change tickOp (s.port p).op = _
    cases (s.port p).op with
    | idle => rfl
    | send str i stage bulk n => rfl
    | getc sel t => exact congrArg (PortOp.getc sel) (countDown_eq t)
    | recv t => exact congrArg (PortOp.recv) (countDown_eq t)
    | readtill limit out t => exact congrArg (PortOp.readtill limit out) (countDown_eq t)
    | pqrecv cid amount t => exact congrArg (PortOp.pqrecv cid amount) (countDown_eq t)
    | tokwait n t => exact congrArg (PortOp.tokwait n) (countDown_eq t)

/-! ### The timer of CH.RECV (R194, R263) -/

/-- A choice after which CH.RECV is still in progress counts its timer if it is a tick, and else leaves the timer alone. -/
theorem perform_recv {a : Action} {s : State} {p t t' : Nat} (h : (s.port p).op = .recv t)
    (h' : ((perform a s).port p).op = .recv t') : t' = if a = .tick then t - 1 else t := by
  by_cases ha : a = .tick
  · rw [ha, perform_tick, tickStep_port, h] at h'
    cases h'
    rw [if_pos ha]
  · rw [if_neg ha]
    rcases portsAreChangedOnlyByTheirOwnSteps _ _ p (step_perform a s) with
      hsame | ⟨_, _, -, hidle, -⟩ | ⟨_, -, harrow, -⟩ | ⟨htick, -⟩ | ⟨-, hidle, -⟩
    · rw [hsame] at h'
      cases h.symm.trans h'
      rfl
    · cases h.symm.trans hidle
    · change ProgressArrow _ (s.port p).op _ at harrow
      rw [h, h'] at harrow
      rcases harrow with hend | hgo
      · cases hend
      · cases hgo
        rfl
    · exact absurd htick ha
    · cases h'.symm.trans hidle

/-- Settles O49, by induction on the choices. -/
theorem recvTimerCountsEveryTick : Obligations.RecvTimerCountsEveryTick := by
  intro acts
  induction acts with
  | nil => exact fun s p t h _ => h
  | cons a acts ih =>
    intro s p t h hstay
    obtain ⟨t', ht'⟩ := hstay 1 (Nat.succ_pos _)
    have hnext := ih (perform a s) p t' ht' fun k hk => hstay (k + 1) (Nat.succ_le_succ hk)
    rw [performAll_cons, hnext, perform_recv h ht']
    by_cases ha : a = .tick
    · simp [ha, Nat.sub_sub, Nat.add_comm]
    · simp [ha]

/-! ### What leaves the cursors and the dispatcher's flags alone (R265) -/

/-- From `s` to `t` the cursors, bits 2 to 4 of STATUS (with those above, which are never set) and EVENTS stay: what the dispatcher
writes beside its own registers. -/
structure RoutingKept (s t : State) : Prop where
  mcur : t.mcur = s.mcur
  status : ∀ i, 2 ≤ i → t.status.getLsbD i = s.status.getLsbD i
  events : t.events = s.events

namespace RoutingKept

variable {s t u : State}

theorem refl (s : State) : RoutingKept s s := ⟨rfl, fun _ _ => rfl, rfl⟩

theorem trans (h : RoutingKept s t) (h' : RoutingKept t u) : RoutingKept s u :=
  ⟨h'.mcur.trans h.mcur, fun i hi => (h'.status i hi).trans (h.status i hi), h'.events.trans h.events⟩

/-- Only the three elements matter. -/
theorem congr (h : RoutingKept s t) (hm : u.mcur = t.mcur) (hs : u.status = t.status) (he : u.events = t.events) :
    RoutingKept s u := h.trans ⟨hm, fun _ _ => by rw [hs], he⟩

/-- A step that leaves the three elements alone. -/
theorem of_eq (hm : t.mcur = s.mcur) (hs : t.status = s.status) (he : t.events = s.events) : RoutingKept s t :=
  (refl s).congr hm hs he

theorem ite {c : Prop} [Decidable c] (ht : RoutingKept s t) (hu : RoutingKept s u) : RoutingKept s (if c then t else u) := by
  split
  · exact ht
  · exact hu

theorem setRing (sel : RingSel) (r : Ring) (s : State) : RoutingKept s (s.setRing sel r) :=
  of_eq (setRing_mcur _ _ _) (setRing_status _ _ _) (setRing_events _ _ _)

/-- The overflow flags are bits 0 and 1 (R47). -/
theorem setOverflow (sel : RingSel) (s : State) : RoutingKept s (setFlag (overflowFlag sel) s) := by
  have hbit : flagBit (overflowFlag sel) < 2 := by cases sel <;> decide
  refine ⟨rfl, fun i hi => ?_, rfl⟩
  rw [setFlag_status, BitVec.getLsbD_or, BitVec.getLsbD_twoPow, decide_eq_false (by omega : ¬ flagBit (overflowFlag sel) = i),
    Bool.and_false, Bool.or_false]

theorem rbPush (sel : RingSel) (b : Byte) (s : State) : RoutingKept s (rbPush sel b s) :=
  .ite ((setRing sel _ s).trans (setOverflow sel _)) (setRing sel _ s)

theorem rbPop {sel : RingSel} {b : Byte} (h : rbPop sel s = some (b, t)) : RoutingKept s t := by
  obtain ⟨-, -, rfl⟩ := rbPop_eq_some h
  exact setRing sel _ s

theorem rbRewind {sel : RingSel} {k : Nat} (h : rbRewind sel k s = some t) : RoutingKept s t := by
  obtain ⟨r, -, rfl⟩ := rbRewind_eq_some h
  exact setRing sel r s

theorem rxBytes (bytes : List Byte) (s : State) : RoutingKept s (rxBytes bytes s) := by
  induction bytes generalizing s with
  | nil => exact refl s
  | cons b bytes ih => exact (rbPush .rx b s).trans (ih (rxByte b s))

/-- An issue step has the frame of its effect. -/
theorem issue {f : Nat → State} (h : issueOn u f = .next t) (hf : RoutingKept s (f u.cur)) : RoutingKept s t := by
  obtain ⟨-, rfl⟩ := issueOn_next h
  exact hf

/-- Every instruction but `SYS.RDEVT`: the operations on rings set an overflow flag at most. -/
theorem exec {i : Instr} (h : exec i s = .next t) (hi : i ≠ .sysRdevt) : RoutingKept s t := by
  unfold Machine.exec at h
  cases i with
  | rbPush sel b => exact issue h ((rbPush sel b s).congr rfl rfl rfl)
  | rbPop sel =>
    refine issue h ?_
    split
    · exact of_eq rfl rfl rfl
    · rename_i b u hpop
      exact (rbPop hpop).congr rfl rfl rfl
  | rbRewind sel k =>
    refine issue h ?_
    split
    · exact of_eq rfl rfl rfl
    · rename_i u hrew
      exact (rbRewind hrew).congr rfl rfl rfl
  | smLoad pat => exact issue h (.ite (of_eq rfl rfl rfl) (of_eq rfl rfl rfl))
  | smFeed b => exact issue h (.ite (of_eq rfl rfl rfl) (of_eq rfl rfl rfl))
  | chRecv token => exact issue h (.ite (of_eq rfl rfl rfl) (of_eq rfl rfl rfl))
  | chReadtill limit delim =>
    exact issue h (.ite (.ite (of_eq rfl rfl rfl) (of_eq rfl rfl rfl)) (of_eq rfl rfl rfl))
  | bdSend cid data => exact issue h (.ite (of_eq rfl rfl rfl) (of_eq rfl rfl rfl))
  | rbEmpty | rbGetc | chSend | chSetto | pqRecv | pqFlush | sysRdstat => exact issue h (of_eq rfl rfl rfl)
  | sysRdevt => exact absurd rfl hi
  | wireBulkFrame c d3 d2 d1 d0 payload =>
    cases h
    exact rxBytes _ s
  | wireDataAccepted =>
    cases h
    exact rxBytes _ s

end RoutingKept

/-- `SYS.RDEVT` clears EVENTS and leaves the rest alone (R241). -/
theorem exec_sysRdevt_routing {s t : State} (h : exec .sysRdevt s = .next t) : RoutingKept { s with events := 0 } t :=
  .issue (show execSysRdevt s = _ from h) (.of_eq rfl rfl rfl)

section
variable (p : Nat) (s : State)

theorem stepGetc_routing (sel : RingSel) : RoutingKept s (stepGetc p sel s) := by
  unfold stepGetc
  split
  · rename_i b u hpop
    exact (RoutingKept.rbPop hpop).congr rfl rfl rfl
  · exact .of_eq rfl rfl rfl

theorem stepEmit_routing (str : List Byte) (i : Nat) (bulk : Bool) (n : Nat) (accept : Bool) :
    RoutingKept s (stepEmit p str i bulk n accept s) := by
  unfold stepEmit
  split
  · exact .ite (.of_eq rfl rfl rfl) (.of_eq rfl rfl rfl)
  · exact .ite (.of_eq rfl rfl rfl) (.of_eq rfl rfl rfl)

theorem stepPull_routing (t : Nat) (timeoutVal okVal : Half) : RoutingKept s (stepPull p t timeoutVal okVal s) := by
  refine .ite (.of_eq rfl rfl rfl) ?_
  split
  · exact .refl s
  · rename_i b u hpop
    have hu := RoutingKept.rbPop hpop
    exact .ite (hu.congr rfl rfl rfl) (hu.congr rfl rfl rfl)

theorem stepReadtill_routing (limit : Nat) (out : List Byte) (t : Nat) : RoutingKept s (stepReadtill p limit out t s) := by
  refine .ite (.of_eq rfl rfl rfl) ?_
  split
  · exact .refl s
  · rename_i b u hpop
    have hu := RoutingKept.rbPop hpop
    exact .ite (hu.congr rfl rfl rfl) (.ite (hu.congr rfl rfl rfl) (hu.congr rfl rfl rfl))

theorem stepPqRecv_routing (cid : BitVec 4) (amount : Nat) : RoutingKept s (stepPqRecv p cid amount s) := by
  unfold stepPqRecv
  split
  · exact .of_eq rfl rfl rfl
  · rename_i pkt u hget
    obtain ⟨rest, -, rfl⟩ := pqGet_eq_some hget
    exact .ite (.of_eq rfl rfl rfl) (.of_eq rfl rfl rfl)

/-- No progress step of a client touches them: it takes bytes and packets, and sets no flag. -/
theorem cliStep_routing (accept : Bool) : RoutingKept s (cliStep p accept s) := by
  unfold cliStep
  split
  · exact .refl s
  · exact stepGetc_routing p s _
  · exact .of_eq rfl rfl rfl
  · exact stepEmit_routing p s _ _ _ _ _
  · exact stepPull_routing p s _ _ _
  · exact stepReadtill_routing p s _ _ _
  · exact stepPqRecv_routing p s _ _
  · exact stepPull_routing p s _ _ _

end

/-! ### The statement -/

/-- The agents' steps that carry out no instruction, but for the dispatcher's and reset. -/
theorem agentStep_routing {a : Action} (u : State) (hdisp : a ≠ .disp) (hreset : a ≠ .reset) : RoutingKept u (agentStep a u) := by
  cases a with
  | issue p cmd payload => exact .ite (.of_eq rfl rfl rfl) (.refl u)
  | rx bytes => exact .rxBytes bytes u
  | disp => exact absurd rfl hdisp
  | cli p accept => exact .ite (cliStep_routing p u accept) (.refl u)
  | tick => exact .of_eq rfl rfl rfl
  | reset => exact absurd rfl hreset

/-- A fetched instruction keeps them, or is `SYS.RDEVT`, whose one command word stands in numbers (R104). -/
theorem exec_fetch_routing {a : Action} {i : Instr} {u t : State} (hf : fetch a u = some i) (h : exec i (deliver a u) = .next t) :
    RoutingKept u t ∨
      RoutingKept { u with events := 0 } t ∧ ∃ p, a = .issue p 0x41000000 [] ∧ (u.port p).op = .idle := by
  rcases fetch_eq_some hf with ⟨p, cmd, payload, rfl, hready, henc⟩ | ⟨bytes, rfl, hdec⟩
  · by_cases hi : i = .sysRdevt
    · subst hi
      obtain ⟨rfl, rfl⟩ : mkCommand 0x41 0 0 = cmd ∧ [] = payload := Encoded.request.inj henc
      have hcur0 : RoutingKept { u with events := 0 } { u with cur := p, events := 0 } := .of_eq rfl rfl rfl
      exact .inr ⟨hcur0.trans (exec_sysRdevt_routing h), p, rfl, ((portReady_iff p u).1 hready).2⟩
    · have hcur : RoutingKept u { u with cur := p } := .of_eq rfl rfl rfl
      exact .inl (hcur.trans (.exec h hi))
  · cases (exec_of_decode_wire hdec u).symm.trans h
    exact .inl (.rxBytes bytes u)

/-- Who changes the dispatcher's registers beside its own steps and reset: a tick, and then the read timer. -/
theorem Taken.disp_kept {u t : State} {a : Action} (h : Taken u a t) (hdisp : a ≠ .disp) (hreset : a ≠ .reset) :
    t.disp = u.disp ∨ a = .tick ∧ t.disp = tickDisp u.disp := by
  cases h with
  | idle => exact .inl rfl
  | issue cmd payload ready wf next => exact .inl (exec_disp next :)
  | illegal cmd payload ready => exact .inl rfl
  | rx bytes => exact .inl (rxBytes_disp bytes u)
  | disp enabled => exact absurd rfl hdisp
  | cli accept enabled => exact .inl (cliStep_disp _ u accept)
  | tick => exact .inr ⟨rfl, rfl⟩
  | reset => exact absurd rfl hreset

/-- What a step that is none of the dispatcher's and no reset does to the cursors and the dispatcher's flags. -/
theorem step_routing {s t : State} (h : step s = .next t) (hdisp : nextAction s ≠ .disp) (hreset : nextAction s ≠ .reset) :
    RoutingKept s t ∨
      RoutingKept { s with events := 0 } t ∧ ∃ p, nextAction s = .issue p 0x41000000 [] ∧ (s.port p).op = .idle := by
  have hadv : RoutingKept s (advance s) := .of_eq (advance_mcur s) (advance_status s) (advance_events s)
  cases hf : fetch (nextAction s) (advance s) with
  | none =>
    rw [step_of_fetch_none hf] at h
    cases h
    exact .inl (hadv.trans (agentStep_routing _ hdisp hreset))
  | some i =>
    rw [step_of_fetch_some hf] at h
    rcases exec_fetch_routing hf h with hkept | ⟨hclear, p, ha, hidle⟩
    · exact .inl (hadv.trans hkept)
    · have hadv0 : RoutingKept { s with events := 0 } { advance s with events := 0 } := ⟨hadv.mcur, hadv.status, rfl⟩
      exact .inr ⟨hadv0.trans hclear, p, ha, advance_port s p ▸ hidle⟩

/-- Settles O58: the dispatcher's registers, then its cursors and flags. -/
theorem onlyTheDispatcherWritesItsState : Obligations.OnlyTheDispatcherWritesItsState := by
  intro s t h hdisp hreset
  have hd : t.disp = { s.disp with t := t.disp.t } ∧ (t.disp.t ≠ s.disp.t → nextAction s = .tick) := by
    rcases (step_taken h).disp_kept hdisp hreset with hsame | ⟨htick, hcount⟩
    · rw [hsame, advance_disp]
      exact ⟨rfl, fun hne => absurd rfl hne⟩
    · rw [hcount, advance_disp]
      exact ⟨tickDisp_frame s.disp, fun _ => htick⟩
  obtain ⟨hframe, htimer⟩ := hd
  rcases step_routing h hdisp hreset with hk | ⟨hk, hread⟩
  · exact ⟨hk.mcur, hframe, htimer, hk.status, .inl hk.events⟩
  · exact ⟨hk.mcur, hframe, htimer, hk.status, .inr ⟨hk.events, hread⟩⟩

end Sys2Proof.Machine
end

section
/-! PROOF. Reset (R280), and the end of every wait under a timer in a fair execution (R303, R306). -/

namespace Sys2Proof.Machine

/-! ### Reset (R280) -/

/-- A chosen reset. -/
theorem step_reset {s : State} {rest : List Action} (hs : s.script = .reset :: rest) :
    step s = .next (State.initial s.cfg rest s.clock) := step_of_script_none hs rfl

theorem initial_ring (cfg : Config) (script : List Action) (clock : Nat) (sel : RingSel) :
    (State.initial cfg script clock).ring sel = Ring.init := by cases sel <;> rfl

theorem initial_queue (cfg : Config) (script : List Action) (clock : Nat) (c : BitVec 4) :
    (State.initial cfg script clock).queue c = [] := Vector.getElem_replicate _

/-- Settles O50: the state after reset is the table of R50. -/
theorem resetRestoresEveryElement : Obligations.ResetRestoresEveryElement := by
  intro s rest hs
  refine ⟨_, step_reset hs, rfl, fun sel => ?_, List.length_replicate, fun c => List.eq_of_mem_replicate, rfl,
    initial_queue _ _ _, rfl, rfl, rfl, rfl, rfl, List.length_replicate, fun o ho => ?_⟩
  · rw [initial_ring]
    exact ⟨rfl, rfl, rfl, rfl⟩
  · rw [List.eq_of_mem_replicate ho]
    exact ⟨rfl, rfl⟩

/-! ### The timer of a record (R262) -/

/-- The ticks left in a record, 0 where it has no timer. -/
def ticksLeft : PortOp → Nat
  | .idle => 0
  | .getc _ t => t
  | .send _ _ _ _ _ => 0
  | .recv t => t
  | .readtill _ _ t => t
  | .pqrecv _ _ t => t
  | .tokwait _ t => t

@[simp] theorem timed_tickOp (op : PortOp) : timed (tickOp op) = timed op := by cases op <;> rfl

@[simp] theorem ticksLeft_tickOp (op : PortOp) : ticksLeft (tickOp op) = ticksLeft op - 1 := by cases op <;> rfl

theorem ne_idle_of_timed {op : PortOp} (h : timed op = true) : op ≠ .idle := by
  rintro rfl
  cases h

/-- A timer that has run out opens the guard of every wait (R144, R194, R195, R218, R220). -/
theorem cliEnabled_of_expired {s : State} {p : Nat} (ht : timed (s.port p).op = true)
    (h0 : ticksLeft (s.port p).op = 0) : cliEnabled p s = true := by
  cases hop : (s.port p).op with
  | idle => exact absurd hop (ne_idle_of_timed ht)
  | send str i stage bulk n => rw [hop] at ht; cases ht
  | getc sel t => exact (cliEnabled_getc hop).2 (.inr (by simpa [hop, ticksLeft] using h0))
  | pqrecv cid amount t => exact (cliEnabled_pqrecv hop).2 (.inr (by simpa [hop, ticksLeft] using h0))
  | recv t => exact (cliEnabled_pull (.inl hop)).2 (.inl (by simpa [hop, ticksLeft] using h0))
  | readtill limit out t =>
    exact (cliEnabled_pull (.inr (.inr ⟨limit, out, hop⟩))).2 (.inl (by simpa [hop, ticksLeft] using h0))
  | tokwait n t => exact (cliEnabled_pull (.inr (.inl ⟨n, hop⟩))).2 (.inl (by simpa [hop, ticksLeft] using h0))

/-! ### The progress step of a wait -/

/-- From `s` to `t` the operation of port `p` completes: the port is IDLE, with one more response delivered (R11, R100). -/
def Completes (p : Nat) (s t : State) : Prop :=
  (t.port p).op = .idle ∧ ∃ r, (t.port p).resps = (s.port p).resps ++ [r]

/-- From `s` to `t` the operation of port `p` waits on with `n` ticks left. -/
def WaitsOn (p n : Nat) (t : State) : Prop := timed (t.port p).op = true ∧ ticksLeft (t.port p).op = n

section
variable {s u : State} {p t : Nat}

theorem waitsOn_of_op {op : PortOp} (hop : (s.port p).op = op) (ht : timed op = true) : WaitsOn p (ticksLeft op) s := by
  rw [WaitsOn, hop]
  exact ⟨ht, rfl⟩

/-- A completion, after changes that deliver no response on the port. -/
theorem completes_complete (hp : p < u.ports.length) (hresps : (u.port p).resps = (s.port p).resps) (st : StatusCode)
    (val : Half) (data : List Byte) : Completes p s (complete p st val data u) := by
  rw [Completes, complete_port hp, hresps]
  exact ⟨rfl, _, rfl⟩

/-- A completion, after a change of no port. -/
theorem Inner.completes (h : Inner s u) (hp : p < s.ports.length) (st : StatusCode) (val : Half) (data : List Byte) :
    Completes p s (complete p st val data u) :=
  completes_complete (h.ports ▸ hp) (by rw [h.port]) st val data

/-- A completion with the byte that the port's matcher is fed. -/
theorem completes_fed {b : Byte} (hp : p < s.ports.length) (hpop : rbPop .rsp s = some (b, u)) (st : StatusCode) (val : Half)
    (data : List Byte) : Completes p s (complete p st val data (feedMatcher p b u)) :=
  completes_complete ((feed_popped_local hpop).count ▸ hp) (by rw [feed_popped_port hp hpop]) st val data

/-- RB.GETC ends at its progress step (R151). -/
theorem stepGetc_completes (hp : p < s.ports.length) (sel : RingSel) : Completes p s (stepGetc p sel s) := by
  unfold stepGetc
  split
  · rename_i b u hpop
    exact (rbPop_inner hpop).completes hp _ _ _
  · exact (Inner.refl s).completes hp _ _ _

/-- PQ.RECV ends at its progress step (R218). -/
theorem stepPqRecv_completes (hp : p < s.ports.length) (cid : BitVec 4) (amount : Nat) :
    Completes p s (stepPqRecv p cid amount s) := by
  cases hq : s.queue cid with
  | nil =>
    rw [stepPqRecv, pqGet_eq_none.2 hq]
    exact (Inner.refl s).completes hp _ _ _
  | cons pkt tail =>
    rw [stepPqRecv_head hq]
    exact (setQueue_inner s cid _).completes hp _ _ _

/-- A pull ends on expiry; else it ends, or the record stays as it is (R194, R220). -/
theorem stepPull_completes (hp : p < s.ports.length) (hwait : WaitsOn p t s) (timeoutVal okVal : Half) :
    Completes p s (stepPull p t timeoutVal okVal s) ∨ t ≠ 0 ∧ WaitsOn p t (stepPull p t timeoutVal okVal s) := by
  unfold stepPull
  split
  · exact .inl ((Inner.refl s).completes hp _ _ _)
  · rename_i ht
    split
    · exact .inr ⟨ht, hwait⟩
    · rename_i b u hpop
      split
      · exact .inl (completes_fed hp hpop _ _ _)
      · exact .inr ⟨ht, by rwa [WaitsOn, feed_popped_port hp hpop]⟩

/-- CH.READTILL ends on expiry; else it ends, or waits on with what it has collected under the same timer (R195). -/
theorem stepReadtill_completes {limit : Nat} {out : List Byte} (hp : p < s.ports.length)
    (hop : (s.port p).op = .readtill limit out t) :
    Completes p s (stepReadtill p limit out t s) ∨ t ≠ 0 ∧ WaitsOn p t (stepReadtill p limit out t s) := by
  unfold stepReadtill
  split
  · exact .inl ((Inner.refl s).completes hp _ _ _)
  · rename_i ht
    split
    · exact .inr ⟨ht, waitsOn_of_op hop rfl⟩
    · rename_i b u hpop
      dsimp only
      split
      · exact .inl (completes_fed hp hpop _ _ _)
      · split
        · exact .inl (completes_fed hp hpop _ _ _)
        · have hport := setOp_port ((feed_popped_local (p := p) hpop).count ▸ hp) (.readtill limit (out ++ [b]) t)
          exact .inr ⟨ht, waitsOn_of_op (congrArg Port.op hport) rfl⟩

/-- The progress step of a wait completes the operation, or leaves a timer that has not run out as it is. -/
theorem cliStep_timed (ht : timed (s.port p).op = true) (accept : Bool) :
    Completes p s (cliStep p accept s) ∨
      ticksLeft (s.port p).op ≠ 0 ∧ WaitsOn p (ticksLeft (s.port p).op) (cliStep p accept s) := by
  have hp : p < s.ports.length := lt_of_op_ne_idle (ne_idle_of_timed ht)
  cases hop : (s.port p).op with
  | idle => exact absurd hop (ne_idle_of_timed ht)
  | send str i stage bulk n => rw [hop] at ht; cases ht
  | getc sel t =>
    rw [cliStep_getc hop]
    exact .inl (stepGetc_completes hp sel)
  | pqrecv cid amount t =>
    rw [cliStep_pqrecv hop]
    exact .inl (stepPqRecv_completes hp cid amount)
  | recv t =>
    rw [cliStep_recv hop]
    exact stepPull_completes hp (waitsOn_of_op hop rfl) _ _
  | tokwait n t =>
    rw [cliStep_tokwait hop]
    exact stepPull_completes hp (waitsOn_of_op hop rfl) _ _
  | readtill limit out t =>
    rw [cliStep_readtill hop]
    exact stepReadtill_completes hp hop

end

/-! ### Any step during a wait -/

/-- The chosen step `a` from `s` to `t` ends the operation of port `p`: it completes it, or is a reset (R280). -/
def EndsWait (p : Nat) (a : Action) (s t : State) : Prop :=
  (t.port p).op = .idle ∧
    (a = .reset ∨ ∃ r accept, a = .cli p accept ∧ (t.port p).resps = (s.port p).resps ++ [r])

/-- The chosen step `a` from `s` to `t` does not end the wait of port `p`: a tick counts, every other step leaves the timer alone, and it
is no progress step of `p` on expiry. -/
structure KeepsWaiting (p : Nat) (a : Action) (s t : State) : Prop where
  timed : timed (t.port p).op = true
  left : ticksLeft (t.port p).op = if a = .tick then ticksLeft (s.port p).op - 1 else ticksLeft (s.port p).op
  blocked : ticksLeft (s.port p).op = 0 → ∀ accept, a ≠ .cli p accept

/-- A client's choice on a blocked port changes nothing. -/
theorem perform_cli_blocked {s : State} {p : Nat} (h : ¬ cliEnabled p s = true) (accept : Bool) :
    perform (.cli p accept) s = s := by
  rw [perform, step_cli_blocked (s := { s with script := .cli p accept :: s.script }) rfl h]

section
variable {s : State} {p : Nat}

/-- The port's own progress step ends the wait, or keeps it with time left. -/
theorem perform_cli_timed (ht : timed (s.port p).op = true) (accept : Bool) :
    EndsWait p (.cli p accept) s (perform (.cli p accept) s) ∨
      KeepsWaiting p (.cli p accept) s (perform (.cli p accept) s) := by
  by_cases hen : cliEnabled p s = true
  · rw [perform_cli hen]
    rcases cliStep_timed ht accept with ⟨hidle, r, hr⟩ | ⟨h0, htimed, hleft⟩
    · exact .inl ⟨hidle, .inr ⟨r, accept, rfl, hr⟩⟩
    · exact .inr ⟨htimed, by rw [hleft, if_neg nofun], fun h => absurd h h0⟩
  · rw [perform_cli_blocked hen]
    exact .inr ⟨ht, by rw [if_neg nofun], fun h0 => absurd (cliEnabled_of_expired ht h0) hen⟩

/-- Any step ends a wait or keeps it: beside the port's own step only a tick and a reset reach it (R190, R265). -/
theorem perform_timed (ht : timed (s.port p).op = true) (a : Action) :
    EndsWait p a s (perform a s) ∨ KeepsWaiting p a s (perform a s) := by
  by_cases hcli : ∃ accept, a = .cli p accept
  · obtain ⟨accept, rfl⟩ := hcli
    exact perform_cli_timed ht accept
  · have hother : ∀ accept, a ≠ .cli p accept := not_exists.1 hcli
    by_cases htick : a = .tick
    · subst htick
      rw [perform_tick]
      exact .inr ⟨by simpa [tickStep_port] using ht, by simp [tickStep_port], fun _ => hother⟩
    · rcases portsAreChangedOnlyByTheirOwnSteps _ _ p (step_perform a s) with
        hsame | ⟨_, _, -, hidle, -⟩ | ⟨accept, hown, -⟩ | ⟨ha, -⟩ | ⟨hreset, hidle, -⟩
      · have hport : (perform a s).port p = s.port p := hsame
        exact .inr ⟨by rw [hport, ht], by rw [hport, if_neg htick], fun _ => hother⟩
      · exact absurd hidle (ne_idle_of_timed ht)
      · exact absurd hown (hother accept)
      · exact absurd ha htick
      · exact .inl ⟨hidle, .inl hreset⟩

end

/-! ### Fair executions (R303, R306) -/

/-- A number that never rises, and falls again and again until it is 0, is 0 from some point on. -/
theorem exists_zero_of_falling {f : Nat → Nat} {n : Nat} (hle : ∀ k, n ≤ k → f (k + 1) ≤ f k)
    (hfall : ∀ k, n ≤ k → ∃ m, k ≤ m ∧ f (m + 1) = f m - 1) : ∃ k, n ≤ k ∧ ∀ m, k ≤ m → f m = 0 := by
  have hmono : ∀ k m, n ≤ k → k ≤ m → f m ≤ f k := fun k m hk hkm => by
    induction m, hkm using Nat.le_induction with
    | base => exact le_rfl
    | succ m hkm ih => exact (hle m (hk.trans hkm)).trans ih
  have hreach : ∀ b k, n ≤ k → f k ≤ b → ∃ m, n ≤ m ∧ f m = 0 := fun b => by
    induction b with
    | zero => exact fun k hk hb => ⟨k, hk, Nat.le_zero.1 hb⟩
    | succ b ih =>
      intro k hk hb
      obtain ⟨m, hkm, hm⟩ := hfall k hk
      have hmk := hmono k m hk hkm
      exact ih (m + 1) (by omega) (by omega)
  obtain ⟨k, hk, h0⟩ := hreach (f n) n le_rfl le_rfl
  exact ⟨k, hk, fun m hm => Nat.le_zero.1 (h0 ▸ hmono k m hk hm)⟩

/-- In a fair execution no wait is kept for ever: the ticks run the timer out, which opens the guard of the progress step for good, and
fairness then takes that step. -/
theorem FairRun.not_waiting_forever {acts : Nat → Action} {run : Nat → State} {p n : Nat} (hfair : FairRun acts run)
    (htimed : ∀ k, n ≤ k → timed ((run k).port p).op = true)
    (hkeeps : ∀ k, n ≤ k → KeepsWaiting p (acts k) (run k) (run (k + 1))) : False := by
  obtain ⟨k, hnk, hexpired⟩ : ∃ k, n ≤ k ∧ ∀ m, k ≤ m → ticksLeft ((run m).port p).op = 0 := by
    refine exists_zero_of_falling (fun k hk => ?_) (fun k hk => ?_)
    · rw [(hkeeps k hk).left]
      split
      · exact Nat.sub_le _ _
      · exact le_rfl
    · obtain ⟨m, hkm, htick⟩ := hfair.tick k
      exact ⟨m, hkm, by rw [(hkeeps m (hk.trans hkm)).left, if_pos htick]⟩
  obtain ⟨m, hkm, accept, hcli⟩ := hfair.cli p k fun m hm =>
    cliEnabled_of_expired (htimed m (hnk.trans hm)) (hexpired m hm)
  exact (hkeeps m (hnk.trans hkm)).blocked (hexpired m hkm) accept hcli

/-- Settles O59: a wait that no step ended would be kept for ever. -/
theorem timedOperationsComplete : Obligations.TimedOperationsComplete := by
  intro acts run p n hfair hn
  by_contra hnever
  have hstep : ∀ k, timed ((run k).port p).op = true →
      EndsWait p (acts k) (run k) (run (k + 1)) ∨ KeepsWaiting p (acts k) (run k) (run (k + 1)) := fun k hk => by
    rw [hfair.steps]
    exact perform_timed hk (acts k)
  have hkeeps : ∀ k, n ≤ k → (∀ j, n ≤ j → j ≤ k → timed ((run j).port p).op = true) →
      KeepsWaiting p (acts k) (run k) (run (k + 1)) := fun k hk hupto =>
    (hstep k (hupto k hk le_rfl)).resolve_left fun ⟨hidle, hend⟩ => hnever ⟨k, hk, hupto, hidle, hend⟩
  have hupto : ∀ k, n ≤ k → ∀ j, n ≤ j → j ≤ k → timed ((run j).port p).op = true := fun k hk => by
    induction k, hk using Nat.le_induction with
    | base => exact fun j hnj hjn => le_antisymm hnj hjn ▸ hn
    | succ k hk ih =>
      intro j hnj hjk
      rcases Nat.le_succ_iff.1 hjk with hle | rfl
      · exact ih j hnj hle
      · exact (hkeeps k hk ih).timed
  exact hfair.not_waiting_forever (fun k hk => hupto k hk k hk le_rfl) (fun k hk => hkeeps k hk (hupto k hk))

end Sys2Proof.Machine
end
